-- ==== Sys2Proof/Word.lean ====
section
/-!
DEFINITION. The word types of the machine (spec/00_scope.md R6, R7): a word is 32 bits, a byte 8 bits, and a register
index one of 32 names (spec/10_state.md R11, R14).
-/
namespace Sys2Proof

/-- A word: a register value, `pc`, an instruction word, an info word (R6 `XLEN`, `ILEN`; R7). -/
abbrev Word := BitVec 32

/-- A byte: one memory cell (R40), the opcode field (R61) or an operand byte (R62). -/
abbrev Byte := BitVec 8

/-- A general register's index, 0 to 31. No word names a register that does not exist (R11, R14). -/
abbrev Reg := Fin 32

end Sys2Proof
end

