-- ==== Sys2Proof/Config.lean ====
section
/-!
DEFINITION. What is fixed for the machine: the parameters of spec/00_scope.md R6 that are constants here, the value of
a byte nothing has written, and the free values, which have no body so that no proof can see what they are.
The launch parameters (INIT_REGS, INIT_PC, POOL, MEM_MAP) are arguments of `State.construct` instead.
-/
namespace Sys2Proof

/-- `SP`, the register STORE and RESTORE use as the stack pointer (R6, R13). -/
def Config.sp : Reg := 1

/-- `RA`, the register calls write and RET reads (R6, R13). -/
def Config.ra : Reg := 2

/-- What an unlisted byte of memory reads as. The spec leaves it open (spec/93_implementation_defined.md U5).
DESIGN CHOICE, unsafe: entry 5. -/
def Config.unwritten : Byte := 0

/-- FREE VALUE (entry 9): the `k`-th destination byte after the `n`-th refused bulk transaction. The spec gives it
'any value' (U6); nothing constrains it. -/
opaque Config.bulkResidue : Nat → Nat → Byte

/-- FREE VALUE (entry 17): `RealToFixed` of a real whose scaled value is outside the 32-bit range (R152, U9). -/
opaque Config.fixedOutOfRange : Rat → Word

/-- FREE VALUE (entry 17): `RealToFixed9` of a real whose scaled value is outside the 32-bit range (R152, U9). -/
opaque Config.fixed9OutOfRange : Rat → Word

end Sys2Proof
end

