-- ==== Sys2Proof/Machine/State.lean ====
section
/-!
DEFINITION. The machine's state as plain data (spec/10_state.md), the reasons a step can stop, and the state after
reset (R29, R300). The fields follow INVENTORY.md's list.
-/
namespace Sys2Proof.Machine

/-- The event latch (R19). -/
inductive Event where
  | none         -- nothing signalled since loop entry
  | yield        -- a SLEEP ran (R254)
  | terminated   -- a KILLTASK ran (R253)
deriving DecidableEq, Repr

/-- The kinds of fatal error (R270). -/
inductive ErrorKind where
  | decodeError | poolError | reentrancyError | divideError | misalignedPC | busError
deriving DecidableEq, Repr

/-- The record of the fault latch (R20). Fields without meaning for a kind are zero (R270). -/
structure FaultRecord where
  /-- which fatal error -/
  kind : ErrorKind
  /-- the offending opcode (DecodeError) -/
  opcode : Byte
  /-- `A`, the address of the instruction whose iteration raised it -/
  pc : Word
  /-- the offending pool index (PoolError) -/
  index : Word
  /-- the address of the refused transaction (BusError) -/
  addr : Word
deriving DecidableEq, Repr

/-- What the CTRL port answers a `Run` transaction (R92, R94, R280). -/
inductive RunAnswer where
  | ok
  | error (kind : ErrorKind)
deriving DecidableEq, Repr

/-- An entry of the constant pool (R21): an integer, or any other literal. -/
inductive PoolEntry where
  | int (v : Word)
  | nonInt
deriving DecidableEq, Repr

/-- A run of `size` addresses from `base`, modulo 2^32 (R46, R52). -/
structure AddrRange where
  /-- first address -/
  base : Word
  /-- number of addresses -/
  size : Nat
deriving DecidableEq, Repr

/-- The bytes of the reference memory that differ from what an unlisted address reads as (R40, R48; entries 5, 8). -/
abbrev Memory := List Host.Cell

/-- The constant pool's entries by index; where an index is listed twice the first entry counts (R21; entry 4). -/
abbrev Pool := List (BitVec 31 × PoolEntry)

/-- A move the host can make between two iterations (R5, R23, R95; entry 10). -/
inductive HostMove where
  /-- `Run(b)`: 0 to 2^31 - 1 (R26, R90) -/
  | run (b : BitVec 31)
  /-- `Stop()` (R95) -/
  | stop
  /-- write a general register while Idle (R23) -/
  | writeReg (r : Reg) (v : Word)
  /-- write `pc` while Idle (R23) -/
  | writePc (v : Word)
  /-- write a byte of memory while Idle (R54, R301) -/
  | writeByte (a : Word) (v : Byte)
  /-- put a program's pool in place while Idle (R301) -/
  | loadPool (p : Pool)
  /-- the host does nothing: the core moves -/
  | pass
deriving DecidableEq, Repr

/-- The machine's state. -/
structure State where
  /-- r0 .. r31 (R10, R11, R12) -/
  regs : Vector Word 32
  /-- the program counter (R15, R16) -/
  pc : Word
  /-- run state: 1 while Running (R25, R90) -/
  isRunning : Bool
  /-- request to leave the loop (R25, R95) -/
  shouldStop : Bool
  /-- instructions completed in this or the last run (R25, R97) -/
  instructionRan : BitVec 32
  /-- the argument of `Run` (R26) -/
  budget : BitVec 31
  /-- event latch (R19) -/
  event : Event
  /-- fault latch (R20) -/
  fault : Option FaultRecord
  /-- the constant pool of the loaded program (R21) -/
  pool : Pool
  /-- the memory behind the ports (R40, R48) -/
  mem : Memory
  /-- MEM_MAP: the addresses the ports refuse (R52, R58; entry 6) -/
  unserved : List AddrRange
  /-- MODEL'S OWN: the CTRL port's last answer to a `Run` (entry 11) -/
  answer : Option RunAnswer
  /-- MODEL'S OWN: what the host does next, first move first (entry 10) -/
  hostMoves : List HostMove
  /-- MODEL'S OWN: how many free values have been drawn (entry 9) -/
  freeIndex : Nat
deriving DecidableEq, Repr

/-- Why a step stops with a fault: never. Every fatal error of the spec is the abort sequence, a next state (R280), so
nothing raises a fault; safe (entry 13). -/
inductive Fault where
deriving DecidableEq, Repr

/-- Why a step is refused. -/
inductive Refusal where
  /-- an instruction without a meaning. Raised by `exec`'s refused arms only, of which there are none; safe. -/
  | notModelled (mnemonic : String)
  /-- the host writes a register, `pc`, memory or the pool while the core is Running. The spec gives such a host no
  move (R23, R307; spec/93_implementation_defined.md U10). Raised by `hostMove`; safe (entry 12). -/
  | hostAccessWhileRunning
deriving DecidableEq, Repr

/-- What a step or a meaning answers. -/
abbrev Out := Host.Outcome State Fault Refusal

/-- The state after construction with given launch parameters (R29, R300): `initRegs` is INIT_REGS, `initPc` INIT_PC,
`pool` POOL, `unserved` the complement of MEM_MAP, `mem` the initial memory contents. -/
def State.construct (initRegs : Vector Word 32) (initPc : Word) (pool : Pool) (unserved : List AddrRange)
    (mem : Memory) : State where
  regs := initRegs
  pc := initPc
  isRunning := false
  shouldStop := false
  instructionRan := 0
  budget := 0
  event := .none
  fault := none
  pool := pool
  mem := mem
  unserved := unserved
  answer := none
  hostMoves := []
  freeIndex := 0

/-- The machine right after reset. The launch parameters have no default in the spec (R29, R300); the values here are
the model's: all registers and `pc` zero (entries 1, 2), an empty pool (entry 4), every address served (entry 6),
nothing in memory (entry 5), and `budget` zero (entry 3). DESIGN CHOICE, unsafe. -/
def State.reset : State := State.construct (Vector.replicate 32 0) 0 [] [] []

end Sys2Proof.Machine
end

