-- ==== Sys2Proof/Machine/Memory.lean ====
section
/-!
DEFINITION. The reference memory (spec/20_memory.md R46 to R49, R52): one store for code and data, little-endian, with
MEM_MAP given as the ranges of addresses that are not served. Its canonical form: addresses strictly rising and below
2^32, and no entry equal to what an unlisted address reads as.
-/
namespace Sys2Proof.Machine

/-- The canonical form of a memory. -/
abbrev Memory.wf (m : Memory) : Prop :=
  m.Pairwise (fun p q => p.1 < q.1) ∧ ∀ c ∈ m, c.2 ≠ Config.unwritten ∧ c.1 < 2 ^ 32

/-- The byte at an address. -/
def Memory.read : Memory → Nat → Byte
  | [], _ => Config.unwritten
  | (a, b) :: m, x => if a = x then b else Memory.read m x

/-- Put an entry in its place. -/
def Memory.insert : Memory → Nat → Byte → Memory
  | [], x, v => [(x, v)]
  | (a, b) :: m, x, v =>
    if x < a then (x, v) :: (a, b) :: m
    else if x = a then (x, v) :: m
    else (a, b) :: Memory.insert m x v

/-- Write one byte, keeping the canonical form: the value of an unlisted byte is not listed. -/
def Memory.write (m : Memory) (x : Nat) (v : Byte) : Memory :=
  if v = Config.unwritten then m.filter (fun c => c.1 != x) else m.insert x v

/-- The `n` bytes from `a` on, addresses modulo 2^32 (R46). -/
def Memory.readBytes (m : Memory) (a : Word) (n : Nat) : List Byte :=
  (List.range n).map (fun k => m.read (a + BitVec.ofNat 32 k).toNat)

/-- Store bytes from `a` on, lowest address first, addresses modulo 2^32 (R46, R47). -/
def Memory.writeBytes (m : Memory) (a : Word) : List Byte → Memory
  | [] => m
  | b :: bs => Memory.writeBytes (m.write a.toNat b) (a + 1) bs

/-- The value of bytes in little-endian order: the sum of `byte[k] * 256^k` (R48). -/
def littleEndian : List Byte → Nat
  | [] => 0
  | b :: bs => b.toNat + 256 * littleEndian bs

/-- The low `n` bytes of a word in little-endian order (R45, R48). -/
def bytesOf (n : Nat) (v : Word) : List Byte :=
  (List.range n).map (fun k => v.extractLsb' (8 * k) 8)

/-! ## MEM_MAP -/

/-- Whether an address lies in a range, modulo 2^32. -/
def AddrRange.holds (r : AddrRange) (a : Word) : Bool := decide ((a - r.base).toNat < r.size)

/-- Whether the `n` addresses from `a` on share one with a range, modulo 2^32. -/
def AddrRange.meets (r : AddrRange) (a : Word) (n : Nat) : Bool :=
  decide (0 < n ∧ 0 < r.size ∧ ((r.base - a).toNat < n ∨ (a - r.base).toNat < r.size))

/-- Whether the ports serve an address (R52). -/
def served (u : List AddrRange) (a : Word) : Bool := u.all (fun r => !r.holds a)

/-- Whether the ports serve each of the `n` addresses from `a` on (R52, R58; entry 7). -/
def servedRange (u : List AddrRange) (a : Word) (n : Nat) : Bool := u.all (fun r => !r.meets a n)

/-! ## Access widths -/

/-- Whether an `n`-byte access at `a` is naturally aligned (R49). -/
def alignedTo (n : Nat) (a : Word) : Bool := a.toNat % n == 0

end Sys2Proof.Machine
end

