-- ==== Sys2Proof/Machine/Ops.lean ====
section
/-!
DEFINITION. The operations the meanings share: registers, the six port transactions of spec/20_memory.md, taking a
fatal error (spec/60_exceptions.md R280), and the run state machine's own transitions (spec/40_loop_and_resolver.md).
A meaning runs at handler entry, where `pc` is the instruction's address plus 4 (R16).
-/
namespace Sys2Proof.Machine

/-! ## Registers -/

/-- `R[i]`. No register is hardwired (R12). -/
def State.reg (s : State) (r : Reg) : Word := s.regs[r]

/-- `R[i] <- v` (R12). -/
def State.setReg (s : State) (r : Reg) (v : Word) : State := { s with regs := s.regs.set r v }

/-- `pc <- v`. -/
def State.setPc (s : State) (v : Word) : State := { s with pc := v }

/-- Replace the memory. -/
def State.setMem (s : State) (m : Memory) : State := { s with mem := m }

/-- `A`, the address of the instruction whose handler has just been entered: `pc = A + 4` there (R16; entry 14). -/
def State.insnAddr (s : State) : Word := s.pc - 4

/-! ## The ports (R42 to R47, R58) -/

/-- `MemRead(addr, n)`: `none` is `Err`, which the reference memory answers to a misaligned access and to an address
outside MEM_MAP (R44, R49, R52, R58). -/
def memRead (s : State) (a : Word) (n : Nat) : Option Word :=
  if alignedTo n a && servedRange s.unserved a n then
    some (BitVec.ofNat 32 (littleEndian (s.mem.readBytes a n)))
  else none

/-- `MemWrite(addr, n, v)`: stores the low `8n` bits of `v`; `none` is `Err`, and no data moves (R45, R49, R58). -/
def memWrite (s : State) (a : Word) (n : Nat) (v : Word) : Option State :=
  if alignedTo n a && servedRange s.unserved a n then
    some (s.setMem (s.mem.writeBytes a (bytesOf n v)))
  else none

/-- `FetchInsn(addr)` (R42). With the reference memory it reads the one store for code and data (R48, R56). -/
def fetchInsn (s : State) (a : Word) : Option Word := memRead s a 4

/-- `FetchData(addr)`: same contract as `FetchInsn` (R43). -/
def fetchData (s : State) (a : Word) : Option Word := memRead s a 4

/-- `PoolLookup(i)`: the integer of an entry; `none` is `NotInt`, for a non-integer entry and for no entry (R21). -/
def poolLookup (p : Pool) (i : BitVec 31) : Option Word :=
  match p.lookup i with
  | some (.int v) => some v
  | some .nonInt => none
  | none => none

/-- The bytes a refused bulk transaction leaves in its destination range: FREE VALUES (U6; entry 9). -/
def residueBytes (draw n : Nat) : List Byte := (List.range n).map (Config.bulkResidue draw)

/-- A bulk transaction that answered `Err`: the destination bytes hold any value, all others are unchanged (U6). -/
def bulkRefused (s : State) (dst : Word) (n : Nat) : State :=
  { s with mem := s.mem.writeBytes dst (residueBytes s.freeIndex n), freeIndex := s.freeIndex + 1 }

/-- `BlockCopy(dst, src, n)`: all source bytes are read before any destination byte is written (R46). The error case
carries the state after the refusal. -/
def blockCopy (s : State) (dst src : Word) (n : Nat) : Except State State :=
  if servedRange s.unserved dst n && servedRange s.unserved src n then
    .ok (s.setMem (s.mem.writeBytes dst (s.mem.readBytes src n)))
  else .error (bulkRefused s dst n)

/-- `BlockFill(dst, b, n)` (R47). -/
def blockFill (s : State) (dst : Word) (b : Byte) (n : Nat) : Except State State :=
  if servedRange s.unserved dst n then
    .ok (s.setMem (s.mem.writeBytes dst (List.replicate n b)))
  else .error (bulkRefused s dst n)

/-! ## Taking a fatal error (R270, R280) -/

/-- The numeric code of a kind (R270). -/
def errorCode : ErrorKind → Nat
  | .decodeError => 1
  | .poolError => 2
  | .reentrancyError => 3
  | .divideError => 4
  | .misalignedPC => 5
  | .busError => 6

/-- The abort sequence: write the fault latch, leave Running, answer the `Run` with the error. The counter,
`shouldStop`, `event`, `budget`, registers, `pc` and memory stay as they are at the raise; nothing is rolled back
(R279, R280). There is no vector and no return from it (R280, R281): the host issues a later `Run`. -/
def raise (r : FaultRecord) (s : State) : State :=
  { s with fault := some r, isRunning := false, answer := some (.error r.kind) }

/-- `DecodeError(opcode, A)` (R271). -/
def raiseDecodeError (op : Byte) (a : Word) (s : State) : State :=
  raise { kind := .decodeError, opcode := op, pc := a, index := 0, addr := 0 } s

/-- `PoolError(index)` in the instruction at `A` (R272). -/
def raisePoolError (index a : Word) (s : State) : State :=
  raise { kind := .poolError, opcode := 0, pc := a, index := index, addr := 0 } s

/-- `DivideError` in the instruction at `A` (R274). -/
def raiseDivideError (a : Word) (s : State) : State :=
  raise { kind := .divideError, opcode := 0, pc := a, index := 0, addr := 0 } s

/-- `MisalignedPC(A)`, the misaligned value itself (R275). -/
def raiseMisalignedPC (a : Word) (s : State) : State :=
  raise { kind := .misalignedPC, opcode := 0, pc := a, index := 0, addr := 0 } s

/-- `BusError(addr)` in the instruction at `A` (R276). -/
def raiseBusError (addr a : Word) (s : State) : State :=
  raise { kind := .busError, opcode := 0, pc := a, index := 0, addr := addr } s

/-! ## The run state machine (R90 to R95) -/

/-- Loop entry, `Idle -> Running`, on `Run(b)`: registers and `pc` are not touched (R91). -/
def loopEntry (b : BitVec 31) (s : State) : State :=
  { s with isRunning := true, shouldStop := false, instructionRan := 0, budget := b, event := .none,
           fault := none, answer := none }

/-- Loop exit, `Running -> Idle`: nothing else changes, and `Run` answers Ok (R94). -/
def loopExit (s : State) : State := { s with isRunning := false, answer := some .ok }

/-- The loop-top check: leave when stopped or when the counter has reached the budget (R93). -/
def leavesLoop (s : State) : Bool := s.shouldStop || decide (s.budget.toNat ≤ s.instructionRan.toNat)

/-- `Run(b)`: loop entry when Idle; when Running, rejected with ReentrancyError, nothing but the answer changing
(R90, R92, R273). -/
def hostRun (b : BitVec 31) (s : State) : State :=
  if s.isRunning then { s with answer := some (.error .reentrancyError) } else loopEntry b s

/-- `Stop()`: sets the flag and does nothing else, in either state (R95). -/
def hostStop (s : State) : State := { s with shouldStop := true }

/-- A host access allowed only while Idle; refused while Running (R23, R307, U10; entry 12). -/
def whileIdle (s s' : State) : Out :=
  if s.isRunning then .refused .hostAccessWhileRunning else .next s'

/-- One move of the host (R5, R23, R54, R90 to R95, R301). -/
def hostMove (m : HostMove) (s : State) : Out :=
  match m with
  | .run b => .next (hostRun b s)
  | .stop => .next (hostStop s)
  | .writeReg r v => whileIdle s (s.setReg r v)
  | .writePc v => whileIdle s (s.setPc v)
  | .writeByte a v => whileIdle s (s.setMem (s.mem.write a.toNat v))
  | .loadPool p => whileIdle s { s with pool := p }
  | .pass => .next s

end Sys2Proof.Machine
end

