-- ==== Sys2Proof/Machine/Operands.lean ====
section
/-!
DEFINITION. Operand forms: extension and narrowing (spec/00_scope.md R7), the immediate / constant-pool resolver
(spec/40_loop_and_resolver.md R100 to R105), shift counts (spec/42_shift.md R160), displacements and effective
addresses (R190, R220), register ranges (R66, R250).
-/
namespace Sys2Proof.Machine

/-- `zext_N(v)`: the low `n` bits, zeros above (R7). -/
def zext (n : Nat) (v : Word) : Word := (v.setWidth n).setWidth 32

/-- `sext_N(v)`: the low `n` bits, bit `n - 1` in all higher bits (R7). -/
def sext (n : Nat) (v : Word) : Word := (v.setWidth n).signExtend 32

/-! ## The resolver -/

/-- What an info word stands for: with bit 31 set the 31-bit two's-complement literal in bits 30..0 (R101); with bit 31
clear the integer of the pool entry it indexes, if there is one (R102). No bit changes for the consumer (R103). -/
def resolve (p : Pool) (info : Word) : Option Word :=
  if info.msb then some (sext 31 info) else poolLookup p (info.setWidth 31)

/-- `FetchImmediate()` (R100): the info word at `pc`, resolved; `pc` advances by 4 whichever branch is taken. The error
case carries the state after the abort: BusError with `pc` not advanced, PoolError with `pc` advanced (R272, R279). -/
def fetchImmediate (s : State) : Except State (Word × State) :=
  match fetchData s s.pc with
  | none => .error (raiseBusError s.pc s.insnAddr s)
  | some info =>
    match resolve s.pool info with
    | some v => .ok (v, s.setPc (s.pc + 4))
    | none => .error (raisePoolError info s.insnAddr (s.setPc (s.pc + 4)))

/-- `SkipImmediate()`: used by no instruction (R104). -/
def skipImmediate (s : State) : State := s.setPc (s.pc + 4)

/-- An instruction with an info word: `FetchImmediate()` is its first action, before any register is read (R105). -/
def withImmediate (s : State) (k : Word → State → Out) : Out :=
  match fetchImmediate s with
  | .error s' => .next s'
  | .ok (imm, s') => k imm s'

/-! ## Counts, displacements, addresses, ranges -/

/-- The count of a register-count shift: the low 5 bits (R160). -/
def countOf (v : Word) : Nat := v.toNat % 32

/-- `pc + 4 * disp`, modulo 2^32: a displacement counts words (R190). -/
def relTarget (pc : Word) (disp : Int) : Word := pc + BitVec.ofInt 32 (4 * disp)

/-- `EA = (R[s] + disp) mod 2^32` (R220). -/
def effAddr (s : State) (rs : Reg) (disp : Word) : Word := s.reg rs + disp

/-- How many registers a range names: 0 when `first > last` (R250). -/
def rangeCount (first last : Reg) : Nat := if first ≤ last then last.val - first.val + 1 else 0

/-- The registers of a range in ascending order (R66, R250). -/
def rangeRegs (first last : Reg) : List Reg :=
  (List.range' first.val (rangeCount first last)).map (Fin.ofNat 32)

end Sys2Proof.Machine
end

