-- ==== Sys2Proof/Machine/Arith.lean ====
section
/-!
DEFINITION. Arithmetic and logic, register-register and register-immediate (spec/41_arith_logic.md R120 to R138, R149,
R150). No instruction here touches memory beyond the info-word fetch, and none transfers control.
-/
namespace Sys2Proof.Machine

/-- Signed quotient rounded toward zero, modulo 2^32: -2^31 / -1 wraps to 0x80000000 (R124, R150). -/
def quotS (x y : Word) : Word := BitVec.ofInt 32 (x.toInt.tdiv y.toInt)

/-- Unsigned quotient, `floor(u(x) / u(y))` (R125, R150). -/
def quotU (x y : Word) : Word := BitVec.ofNat 32 (x.toNat / y.toNat)

/-- Three-register form: both sources are read before the destination is written whole (R120). -/
def binary (f : Word → Word → Word) (rd rs rt : Reg) (s : State) : Out :=
  .next (s.setReg rd (f (s.reg rs) (s.reg rt)))

/-- Two-register form (R120, R180). -/
def unary (f : Word → Word) (rd rs : Reg) (s : State) : Out := .next (s.setReg rd (f (s.reg rs)))

/-- Immediate form: the right operand is the info word's value, fetched first (R105, R120). -/
def binaryImm (f : Word → Word → Word) (rd rs : Reg) (s : State) : Out :=
  withImmediate s (fun imm s' => .next (s'.setReg rd (f (s'.reg rs) imm)))

/-- A division in the instruction at `a`: a zero divisor raises DivideError and writes no register (R150, R274). -/
def divide (q : Word → Word → Word) (rd : Reg) (x y a : Word) (s : State) : Out :=
  if y = 0 then .next (raiseDivideError a s) else .next (s.setReg rd (q x y))

/-- ADD (R121): modulo 2^32 (R149). -/
def execAdd (rd rs rt : Reg) (s : State) : Out := binary (fun x y => x + y) rd rs rt s

/-- SUB (R122): modulo 2^32 (R149). -/
def execSub (rd rs rt : Reg) (s : State) : Out := binary (fun x y => x - y) rd rs rt s

/-- MUL (R123): the low 32 bits of the product (R149). -/
def execMul (rd rs rt : Reg) (s : State) : Out := binary (fun x y => x * y) rd rs rt s

/-- DIV (R124): signed, truncating (R150). -/
def execDiv (rd rs rt : Reg) (s : State) : Out := divide quotS rd (s.reg rs) (s.reg rt) s.insnAddr s

/-- DIVU (R125): unsigned (R150). -/
def execDivu (rd rs rt : Reg) (s : State) : Out := divide quotU rd (s.reg rs) (s.reg rt) s.insnAddr s

/-- AND (R126): bitwise and. -/
def execAnd (rd rs rt : Reg) (s : State) : Out := binary (fun x y => x &&& y) rd rs rt s

/-- OR (R127): bitwise or. -/
def execOr (rd rs rt : Reg) (s : State) : Out := binary (fun x y => x ||| y) rd rs rt s

/-- XOR (R128): bitwise exclusive or. -/
def execXor (rd rs rt : Reg) (s : State) : Out := binary (fun x y => x ^^^ y) rd rs rt s

/-- NEG (R129): `0 - R[s]`, modulo 2^32. -/
def execNeg (rd rs : Reg) (s : State) : Out := unary (fun x => 0 - x) rd rs s

/-- NOT (R130): `~R[s]`. -/
def execNot (rd rs : Reg) (s : State) : Out := unary (fun x => ~~~x) rd rs s

/-- ADDi (R131): modulo 2^32. -/
def execAddi (rd rs : Reg) (s : State) : Out := binaryImm (fun x y => x + y) rd rs s

/-- SUBi (R132): register minus immediate. -/
def execSubi (rd rs : Reg) (s : State) : Out := binaryImm (fun x y => x - y) rd rs s

/-- MULi (R133): the low 32 bits of the product. -/
def execMuli (rd rs : Reg) (s : State) : Out := binaryImm (fun x y => x * y) rd rs s

/-- DIVi (R134): DivideError after the info word was consumed when the immediate is zero. -/
def execDivi (rd rs : Reg) (s : State) : Out :=
  withImmediate s (fun imm s' => divide quotS rd (s'.reg rs) imm s.insnAddr s')

/-- DIVUi (R135): DivideError after the info word was consumed when the immediate is zero. -/
def execDivui (rd rs : Reg) (s : State) : Out :=
  withImmediate s (fun imm s' => divide quotU rd (s'.reg rs) imm s.insnAddr s')

/-- ANDi (R136). -/
def execAndi (rd rs : Reg) (s : State) : Out := binaryImm (fun x y => x &&& y) rd rs s

/-- ORi (R137). -/
def execOri (rd rs : Reg) (s : State) : Out := binaryImm (fun x y => x ||| y) rd rs s

/-- XORi (R138). -/
def execXori (rd rs : Reg) (s : State) : Out := binaryImm (fun x y => x ^^^ y) rd rs s

end Sys2Proof.Machine
end

