-- ==== Sys2Proof/Machine/Flags.lean ====
section
/-!
DEFINITION. The core has no flags and no condition codes (spec/10_state.md R24): no rule computes one. What other
machines keep in flags lives here inside one instruction only: the ten conditions of the compare-and-branch
instructions (spec/44_compare_branch.md R191).
-/
namespace Sys2Proof.Machine

/-- The ten conditions (R191). -/
inductive Cond where
  | eq | ne | gt | ge | lt | le | gtu | geu | ltu | leu
deriving DecidableEq, Repr

/-- `cc(x, y)`: the register is the left operand, the immediate the right one (R191). -/
def condHolds (c : Cond) (x y : Word) : Bool :=
  match c with
  | .eq => decide (x = y)
  | .ne => decide (x ≠ y)
  | .gt => decide (x.toInt > y.toInt)
  | .ge => decide (x.toInt ≥ y.toInt)
  | .lt => decide (x.toInt < y.toInt)
  | .le => decide (x.toInt ≤ y.toInt)
  | .gtu => decide (x.toNat > y.toNat)
  | .geu => decide (x.toNat ≥ y.toNat)
  | .ltu => decide (x.toNat < y.toNat)
  | .leu => decide (x.toNat ≤ y.toNat)

end Sys2Proof.Machine
end

