-- ==== Sys2Proof/Machine/Branch.lean ====
section
/-!
DEFINITION. Compare-and-branch (spec/44_compare_branch.md R190 to R212). No register is written and there is no delay
slot.
-/
namespace Sys2Proof.Machine

/-- Branch to `pc + 4 * disp` when the condition holds; otherwise `pc` keeps its advanced value (R190, R191). -/
def branchIf (c : Cond) (x y : Word) (disp : Int) (s : State) : Out :=
  .next (if condHolds c x y then s.setPc (relTarget s.pc disp) else s)

/-- The BccI forms: the info word is consumed whether or not the branch is taken, and `pc` is `A + 8` when the
displacement is added (section 2, before R192). -/
def branchInfo (c : Cond) (rd : Reg) (disp : Int) (s : State) : Out :=
  withImmediate s (fun y s' => branchIf c (s'.reg rd) y disp s')

/-- The BccIB forms: the whole register is compared with the extended byte; `pc` is `A + 4` (R202). -/
def branchByte (c : Cond) (rd : Reg) (y : Word) (disp : Int) (s : State) : Out :=
  branchIf c (s.reg rd) y disp s

/-- BEQI (R192). -/
def execBeqi (rd : Reg) (disp : Int) (s : State) : Out := branchInfo .eq rd disp s

/-- BNEI (R193). -/
def execBnei (rd : Reg) (disp : Int) (s : State) : Out := branchInfo .ne rd disp s

/-- BGTI (R194). -/
def execBgti (rd : Reg) (disp : Int) (s : State) : Out := branchInfo .gt rd disp s

/-- BGEI (R195). -/
def execBgei (rd : Reg) (disp : Int) (s : State) : Out := branchInfo .ge rd disp s

/-- BLTI (R196). -/
def execBlti (rd : Reg) (disp : Int) (s : State) : Out := branchInfo .lt rd disp s

/-- BLEI (R197). -/
def execBlei (rd : Reg) (disp : Int) (s : State) : Out := branchInfo .le rd disp s

/-- BGTUI (R198). -/
def execBgtui (rd : Reg) (disp : Int) (s : State) : Out := branchInfo .gtu rd disp s

/-- BGEUI (R199). -/
def execBgeui (rd : Reg) (disp : Int) (s : State) : Out := branchInfo .geu rd disp s

/-- BLTUI (R200). -/
def execBltui (rd : Reg) (disp : Int) (s : State) : Out := branchInfo .ltu rd disp s

/-- BLEUI (R201). -/
def execBleui (rd : Reg) (disp : Int) (s : State) : Out := branchInfo .leu rd disp s

/-- BEQIB (R203): `sext_8(b)`. -/
def execBeqib (rd : Reg) (b : Int) (disp : Int) (s : State) : Out := branchByte .eq rd (BitVec.ofInt 32 b) disp s

/-- BNEIB (R204): `sext_8(b)`. -/
def execBneib (rd : Reg) (b : Int) (disp : Int) (s : State) : Out := branchByte .ne rd (BitVec.ofInt 32 b) disp s

/-- BGTIB (R205): `sext_8(b)`. -/
def execBgtib (rd : Reg) (b : Int) (disp : Int) (s : State) : Out := branchByte .gt rd (BitVec.ofInt 32 b) disp s

/-- BGEIB (R206): `sext_8(b)`. -/
def execBgeib (rd : Reg) (b : Int) (disp : Int) (s : State) : Out := branchByte .ge rd (BitVec.ofInt 32 b) disp s

/-- BLTIB (R207): `sext_8(b)`. -/
def execBltib (rd : Reg) (b : Int) (disp : Int) (s : State) : Out := branchByte .lt rd (BitVec.ofInt 32 b) disp s

/-- BLEIB (R208): `sext_8(b)`. -/
def execBleib (rd : Reg) (b : Int) (disp : Int) (s : State) : Out := branchByte .le rd (BitVec.ofInt 32 b) disp s

/-- BGTUIB (R209): `zext_8(b)`. -/
def execBgtuib (rd : Reg) (b : Nat) (disp : Int) (s : State) : Out := branchByte .gtu rd (BitVec.ofNat 32 b) disp s

/-- BGEUIB (R210): `zext_8(b)`. -/
def execBgeuib (rd : Reg) (b : Nat) (disp : Int) (s : State) : Out := branchByte .geu rd (BitVec.ofNat 32 b) disp s

/-- BLTUIB (R211): `zext_8(b)`. -/
def execBltuib (rd : Reg) (b : Nat) (disp : Int) (s : State) : Out := branchByte .ltu rd (BitVec.ofNat 32 b) disp s

/-- BLEUIB (R212): `zext_8(b)`. -/
def execBleuib (rd : Reg) (b : Nat) (disp : Int) (s : State) : Out := branchByte .leu rd (BitVec.ofNat 32 b) disp s

end Sys2Proof.Machine
end

