-- ==== Sys2Proof/Machine/Bridge.lean ====
section
/-!
DEFINITION. System bridge (spec/48_system_bridge.md R260 to R263). No register is written.
-/
namespace Sys2Proof.Machine

/-- One bulk transaction, whole: a refusal raises BusError with the destination address (R58, R260). -/
def bulk (dst : Word) (r : Except State State) (s : State) : Out :=
  match r with
  | .ok s' => .next s'
  | .error s' => .next (raiseBusError dst s.insnAddr s')

/-- SYSCPY (R261). -/
def execSyscpy (rd rs rt : Reg) (s : State) : Out :=
  bulk (s.reg rd) (blockCopy s (s.reg rd) (s.reg rs) (s.reg rt).toNat) s

/-- SYSSET (R262): the fill value is the low byte of `R[s]`. -/
def execSysset (rd rs rt : Reg) (s : State) : Out :=
  bulk (s.reg rd) (blockFill s (s.reg rd) ((s.reg rs).setWidth 8) (s.reg rt).toNat) s

end Sys2Proof.Machine
end

