-- ==== Sys2Proof/Machine/Control.lean ====
section
/-!
DEFINITION. Control transfer (spec/46_control_transfer.md R240 to R245). A misaligned target completes and is detected
at the top of the next iteration (R240). The only roles architected are those of r1 and r2 (R246).
-/
namespace Sys2Proof.Machine

/-- Call: the return address, which is `pc` after all advances of the instruction, goes to `ra`; then `pc` takes the
target (R240, R242, R244). -/
def callTo (tgt : Word) (s : State) : Out := .next ((s.setReg Config.ra s.pc).setPc tgt)

/-- JPr (R241): the target is not checked here (R240). -/
def execJpr (rd : Reg) (s : State) : Out := .next (s.setPc (s.reg rd))

/-- CALLr (R242): the target is read before the link is written. -/
def execCallr (rd : Reg) (s : State) : Out := callTo (s.reg rd) s

/-- JPl (R243): `pc + 4 * disp` after the info word. No jump is made on an error of the resolver; `pc` then stands where
`FetchImmediate()` left it at the raise (R100, R279, R308; entry 22). -/
def execJpl (s : State) : Out :=
  withImmediate s (fun disp s' => .next (s'.setPc (s'.pc + 4 * disp)))

/-- CALLl (R244): the return address is past the info word. On an error of the resolver r2 is unchanged and `pc`
as for JPl. -/
def execCalll (s : State) : Out :=
  withImmediate s (fun disp s' => callTo (s'.pc + 4 * disp) s')

/-- RET (R245). -/
def execRet (s : State) : Out := .next (s.setPc (s.reg Config.ra))

end Sys2Proof.Machine
end

