-- ==== Sys2Proof/Machine/Frame.lean ====
section
/-!
DEFINITION. Frame and task management (spec/47_frame_task.md R250 to R254).
-/
namespace Sys2Proof.Machine

/-- The transactions of STORE, in ascending address order, one word each. A refusal gives the refused address with the
state in which the words already written stay written (R250, R251). -/
def pushWords (s : State) (a : Word) : List Word → Except (Word × State) State
  | [] => .ok s
  | v :: vs =>
    match memWrite s a 4 v with
    | some s' => pushWords s' (a + 4) vs
    | none => .error (a, s)

/-- The transactions of RESTORE, in ascending address order, each loading one register. A refusal gives the refused
address with the state in which the registers already loaded keep their values (R250, R252). -/
def popWords (s : State) (a : Word) : List Reg → Except (Word × State) State
  | [] => .ok s
  | r :: rs =>
    match memRead s a 4 with
    | some v => popWords (s.setReg r v) (a + 4) rs
    | none => .error (a, s)

/-- The bytes a range takes on the stack: `4 * n`, modulo 2^32 (R251, R252). -/
def frameBytes (first last : Reg) : Word := BitVec.ofNat 32 (4 * rangeCount first last)

/-- STORE (R251): `sp` is updated last; an empty range does nothing (R250). -/
def execStore (first last : Reg) (s : State) : Out :=
  if rangeCount first last = 0 then .next s
  else
    let base := s.reg Config.sp - frameBytes first last
    match pushWords s base ((rangeRegs first last).map s.reg) with
    | .ok s' => .next (s'.setReg Config.sp base)
    | .error (a, s') => .next (raiseBusError a s.insnAddr s')

/-- RESTORE (R252): `sp` takes its old value plus `4 * n` last, also when it was loaded (R252). -/
def execRestore (first last : Reg) (s : State) : Out :=
  if rangeCount first last = 0 then .next s
  else
    let base := s.reg Config.sp
    match popWords s base (rangeRegs first last) with
    | .ok s' => .next (s'.setReg Config.sp (base + frameBytes first last))
    | .error (a, s') => .next (raiseBusError a s.insnAddr s')

/-- Signal the host scheduler: set the event latch and ask the loop to leave at its next top (R253, R254). -/
def signal (e : Event) (s : State) : Out := .next { s with event := e, shouldStop := true }

/-- KILLTASK (R253). -/
def execKilltask (s : State) : Out := signal .terminated s

/-- SLEEP (R254). -/
def execSleep (s : State) : Out := signal .yield s

end Sys2Proof.Machine
end

