-- ==== Sys2Proof/Machine/LoadStore.lean ====
section
/-!
DEFINITION. Loads and stores (spec/45_load_store.md R220 to R229).
-/
namespace Sys2Proof.Machine

/-- A load: `EA` from the base register and the info word, then the extended value into the destination. A refused
access leaves the register unchanged (R220, R229). -/
def load (n : Nat) (ext : Word → Word) (rd rs : Reg) (s : State) : Out :=
  withImmediate s (fun disp s' =>
    let ea := effAddr s' rs disp
    match memRead s' ea n with
    | some v => .next (s'.setReg rd (ext v))
    | none => .next (raiseBusError ea s.insnAddr s'))

/-- A store of the low `n` bytes of `R[d]`. A refused access writes no byte (R220, R229). -/
def store (n : Nat) (rd rs : Reg) (s : State) : Out :=
  withImmediate s (fun disp s' =>
    let ea := effAddr s' rs disp
    match memWrite s' ea n (s'.reg rd) with
    | some s'' => .next s''
    | none => .next (raiseBusError ea s.insnAddr s'))

/-- LDB (R221). -/
def execLdb (rd rs : Reg) (s : State) : Out := load 1 (sext 8) rd rs s

/-- LDBU (R222). -/
def execLdbu (rd rs : Reg) (s : State) : Out := load 1 (zext 8) rd rs s

/-- LDH (R223). -/
def execLdh (rd rs : Reg) (s : State) : Out := load 2 (sext 16) rd rs s

/-- LDHU (R224). -/
def execLdhu (rd rs : Reg) (s : State) : Out := load 2 (zext 16) rd rs s

/-- LDW (R225). -/
def execLdw (rd rs : Reg) (s : State) : Out := load 4 (fun v => v) rd rs s

/-- STB (R226). -/
def execStb (rd rs : Reg) (s : State) : Out := store 1 rd rs s

/-- STH (R227). -/
def execSth (rd rs : Reg) (s : State) : Out := store 2 rd rs s

/-- STW (R228). -/
def execStw (rd rs : Reg) (s : State) : Out := store 4 rd rs s

end Sys2Proof.Machine
end

