-- ==== Sys2Proof/Machine/Move.lean ====
section
/-!
DEFINITION. Sign extension, data movement and immediate load (spec/43_move_extend_ldi.md R180 to R186).
-/
namespace Sys2Proof.Machine

/-- EXSB (R181). -/
def execExsb (rd rs : Reg) (s : State) : Out := unary (fun x => sext 8 x) rd rs s

/-- EXSH (R182). -/
def execExsh (rd rs : Reg) (s : State) : Out := unary (fun x => sext 16 x) rd rs s

/-- MOV (R183). -/
def execMov (rd rs : Reg) (s : State) : Out := unary (fun x => x) rd rs s

/-- MOVB (R184). -/
def execMovb (rd rs : Reg) (s : State) : Out := unary (fun x => zext 8 x) rd rs s

/-- MOVH (R185). -/
def execMovh (rd rs : Reg) (s : State) : Out := unary (fun x => zext 16 x) rd rs s

/-- LDI (R186): the resolved immediate. -/
def execLdi (rd : Reg) (s : State) : Out :=
  withImmediate s (fun imm s' => .next (s'.setReg rd imm))

end Sys2Proof.Machine
end

