-- ==== Sys2Proof/Machine/Narrow.lean ====
section
/-!
DEFINITION. Byte and half arithmetic and logic (spec/41_arith_logic.md R139 to R148, R151).
-/
namespace Sys2Proof.Machine

/-- Narrowed three-register form: the full-width operation, `zext_N` of its result into the whole destination
(R151). -/
def narrowed (n : Nat) (f : Word → Word → Word) (rd rs rt : Reg) (s : State) : Out :=
  binary (fun x y => zext n (f x y)) rd rs rt s

/-- ADDB (R139). -/
def execAddb (rd rs rt : Reg) (s : State) : Out := narrowed 8 (fun x y => x + y) rd rs rt s

/-- SUBB (R140). -/
def execSubb (rd rs rt : Reg) (s : State) : Out := narrowed 8 (fun x y => x - y) rd rs rt s

/-- ANDB (R141). -/
def execAndb (rd rs rt : Reg) (s : State) : Out := narrowed 8 (fun x y => x &&& y) rd rs rt s

/-- ORB (R142). -/
def execOrb (rd rs rt : Reg) (s : State) : Out := narrowed 8 (fun x y => x ||| y) rd rs rt s

/-- XORB (R143). -/
def execXorb (rd rs rt : Reg) (s : State) : Out := narrowed 8 (fun x y => x ^^^ y) rd rs rt s

/-- ADDH (R144). -/
def execAddh (rd rs rt : Reg) (s : State) : Out := narrowed 16 (fun x y => x + y) rd rs rt s

/-- SUBH (R145). -/
def execSubh (rd rs rt : Reg) (s : State) : Out := narrowed 16 (fun x y => x - y) rd rs rt s

/-- ANDH (R146). -/
def execAndh (rd rs rt : Reg) (s : State) : Out := narrowed 16 (fun x y => x &&& y) rd rs rt s

/-- ORH (R147). -/
def execOrh (rd rs rt : Reg) (s : State) : Out := narrowed 16 (fun x y => x ||| y) rd rs rt s

/-- XORH (R148). -/
def execXorh (rd rs rt : Reg) (s : State) : Out := narrowed 16 (fun x y => x ^^^ y) rd rs rt s

end Sys2Proof.Machine
end

