-- ==== Sys2Proof/Machine/Shift.lean ====
section
/-!
DEFINITION. Shifts (spec/42_shift.md R160 to R172). A count at or above a scoped width is not reduced: it shifts every
bit out.
-/
namespace Sys2Proof.Machine

/-- A byte- or half-scoped shift: `f` of the low `n` bits, `zext_N` of the result into the whole destination (R160). -/
def scopedShift (n : Nat) (f : Word → Word) (rd rs : Reg) (s : State) : Out :=
  unary (fun x => zext n (f x)) rd rs s

/-- SLL (R161): count `R[t][4:0]`. -/
def execSll (rd rs rt : Reg) (s : State) : Out := binary (fun x y => x <<< countOf y) rd rs rt s

/-- SRL (R162): count `R[t][4:0]`. -/
def execSrl (rd rs rt : Reg) (s : State) : Out := binary (fun x y => x >>> countOf y) rd rs rt s

/-- SRA (R163): count `R[t][4:0]`. -/
def execSra (rd rs rt : Reg) (s : State) : Out := binary (fun x y => x.sshiftRight (countOf y)) rd rs rt s

/-- SLLi (R164). -/
def execSlli (rd rs : Reg) (sh : Nat) (s : State) : Out := unary (fun x => x <<< sh) rd rs s

/-- SRLi (R165). -/
def execSrli (rd rs : Reg) (sh : Nat) (s : State) : Out := unary (fun x => x >>> sh) rd rs s

/-- SRAi (R166). -/
def execSrai (rd rs : Reg) (sh : Nat) (s : State) : Out := unary (fun x => x.sshiftRight sh) rd rs s

/-- SLLB (R167): shifted in 32 bits, then cut. -/
def execSllb (rd rs : Reg) (sh : Nat) (s : State) : Out := scopedShift 8 (fun x => zext 8 x <<< sh) rd rs s

/-- SRLB (R168). -/
def execSrlb (rd rs : Reg) (sh : Nat) (s : State) : Out := scopedShift 8 (fun x => zext 8 x >>> sh) rd rs s

/-- SRAB (R169): the sign bit is bit 7. -/
def execSrab (rd rs : Reg) (sh : Nat) (s : State) : Out := scopedShift 8 (fun x => (sext 8 x).sshiftRight sh) rd rs s

/-- SLLH (R170): shifted in 32 bits, then cut. -/
def execSllh (rd rs : Reg) (sh : Nat) (s : State) : Out := scopedShift 16 (fun x => zext 16 x <<< sh) rd rs s

/-- SRLH (R171). -/
def execSrlh (rd rs : Reg) (sh : Nat) (s : State) : Out := scopedShift 16 (fun x => zext 16 x >>> sh) rd rs s

/-- SRAH (R172): the sign bit is bit 15. -/
def execSrah (rd rs : Reg) (sh : Nat) (s : State) : Out :=
  scopedShift 16 (fun x => (sext 16 x).sshiftRight sh) rd rs s

end Sys2Proof.Machine
end

