-- ==== Sys2Proof/Syntax.lean ====
section
/-!
DEFINITION. The instructions: one constructor per row of spec/opcode_table.json (spec/30_encoding.md R70), with the
operands its rule uses (R77). The info word that follows some instructions is no operand here: the meaning fetches it
(R73, R100, R105; entry 14). Register operands are indices (R14). A shift count, a byte immediate and a displacement are numbers;
WellFormed.lean says which of them have an encoding.
-/
namespace Sys2Proof

/-- The five encoding shapes (R63 to R67). -/
inductive Shape where
  | ts   -- two-source-register (R63)
  | dest -- destination-only, DO (R64)
  | wi   -- full-word-immediate (R65)
  | rr   -- register-range (R66)
  | ud   -- undefined/reserved: no operand (R67)
deriving DecidableEq, Repr

/-- The 85 instructions. -/
inductive Instr where
  -- Arithmetic and logic, registers (spec/41_arith_logic.md).
  /-- ADD: `R[d] <- R[s] + R[t]` (R121). -/
  | add (rd rs rt : Reg)
  /-- SUB: `R[d] <- R[s] - R[t]` (R122). -/
  | sub (rd rs rt : Reg)
  /-- MUL: low 32 bits of `R[s] * R[t]` (R123). -/
  | mul (rd rs rt : Reg)
  /-- DIV: signed quotient, truncated (R124). -/
  | div (rd rs rt : Reg)
  /-- DIVU: unsigned quotient (R125). -/
  | divu (rd rs rt : Reg)
  /-- AND: bitwise and (R126). -/
  | and (rd rs rt : Reg)
  /-- OR: bitwise or (R127). -/
  | or (rd rs rt : Reg)
  /-- XOR: bitwise exclusive or (R128). -/
  | xor (rd rs rt : Reg)
  /-- NEG: negate (R129). -/
  | neg (rd rs : Reg)
  /-- NOT: invert (R130). -/
  | not (rd rs : Reg)
  -- Arithmetic and logic, full-word immediate in the info word.
  /-- ADDi: `ADD` with the immediate as right operand (R131). -/
  | addi (rd rs : Reg)
  /-- SUBi: `SUB` with the immediate as right operand (R132). -/
  | subi (rd rs : Reg)
  /-- MULi: `MUL` with the immediate as right operand (R133). -/
  | muli (rd rs : Reg)
  /-- DIVi: `DIV` with the immediate as right operand (R134). -/
  | divi (rd rs : Reg)
  /-- DIVUi: `DIVU` with the immediate as right operand (R135). -/
  | divui (rd rs : Reg)
  /-- ANDi: `AND` with the immediate as right operand (R136). -/
  | andi (rd rs : Reg)
  /-- ORi: `OR` with the immediate as right operand (R137). -/
  | ori (rd rs : Reg)
  /-- XORi: `XOR` with the immediate as right operand (R138). -/
  | xori (rd rs : Reg)
  -- Byte forms.
  /-- ADDB: `ADD` narrowed to 8 bits (R139). -/
  | addb (rd rs rt : Reg)
  /-- SUBB: `SUB` narrowed to 8 bits (R140). -/
  | subb (rd rs rt : Reg)
  /-- ANDB: `AND` narrowed to 8 bits (R141). -/
  | andb (rd rs rt : Reg)
  /-- ORB: `OR` narrowed to 8 bits (R142). -/
  | orb (rd rs rt : Reg)
  /-- XORB: `XOR` narrowed to 8 bits (R143). -/
  | xorb (rd rs rt : Reg)
  -- Half forms.
  /-- ADDH: `ADD` narrowed to 16 bits (R144). -/
  | addh (rd rs rt : Reg)
  /-- SUBH: `SUB` narrowed to 16 bits (R145). -/
  | subh (rd rs rt : Reg)
  /-- ANDH: `AND` narrowed to 16 bits (R146). -/
  | andh (rd rs rt : Reg)
  /-- ORH: `OR` narrowed to 16 bits (R147). -/
  | orh (rd rs rt : Reg)
  /-- XORH: `XOR` narrowed to 16 bits (R148). -/
  | xorh (rd rs rt : Reg)
  -- Shifts (spec/42_shift.md).
  /-- SLL: shift left, count in a register (R161). -/
  | sll (rd rs rt : Reg)
  /-- SRL: logical shift right, count in a register (R162). -/
  | srl (rd rs rt : Reg)
  /-- SRA: arithmetic shift right, count in a register (R163). -/
  | sra (rd rs rt : Reg)
  /-- SLLi: `SLL` by `sh` (R164). -/
  | slli (rd rs : Reg) (sh : Nat)
  /-- SRLi: `SRL` by `sh` (R165). -/
  | srli (rd rs : Reg) (sh : Nat)
  /-- SRAi: `SRA` by `sh` (R166). -/
  | srai (rd rs : Reg) (sh : Nat)
  /-- SLLB: `SLL` by `sh` in the low byte (R167). -/
  | sllb (rd rs : Reg) (sh : Nat)
  /-- SRLB: `SRL` by `sh` in the low byte (R168). -/
  | srlb (rd rs : Reg) (sh : Nat)
  /-- SRAB: `SRA` by `sh` in the low byte (R169). -/
  | srab (rd rs : Reg) (sh : Nat)
  /-- SLLH: `SLL` by `sh` in the low half (R170). -/
  | sllh (rd rs : Reg) (sh : Nat)
  /-- SRLH: `SRL` by `sh` in the low half (R171). -/
  | srlh (rd rs : Reg) (sh : Nat)
  /-- SRAH: `SRA` by `sh` in the low half (R172). -/
  | srah (rd rs : Reg) (sh : Nat)
  -- Extend, move, load immediate (spec/43_move_extend_ldi.md).
  /-- EXSB: sign-extend a byte (R181). -/
  | exsb (rd rs : Reg)
  /-- EXSH: sign-extend a half (R182). -/
  | exsh (rd rs : Reg)
  /-- MOV: move (R183). -/
  | mov (rd rs : Reg)
  /-- MOVB: move the low byte (R184). -/
  | movb (rd rs : Reg)
  /-- MOVH: move the low half (R185). -/
  | movh (rd rs : Reg)
  /-- LDI: load the immediate (R186). -/
  | ldi (rd : Reg)
  -- Compare and branch, info-word form (spec/44_compare_branch.md); `disp` counts words.
  /-- BEQI: branch when `R[d]` EQ the immediate (R192). -/
  | beqi (rd : Reg) (disp : Int)
  /-- BNEI: branch when `R[d]` NE the immediate (R193). -/
  | bnei (rd : Reg) (disp : Int)
  /-- BGTI: branch when `R[d]` GT the immediate (R194). -/
  | bgti (rd : Reg) (disp : Int)
  /-- BGEI: branch when `R[d]` GE the immediate (R195). -/
  | bgei (rd : Reg) (disp : Int)
  /-- BLTI: branch when `R[d]` LT the immediate (R196). -/
  | blti (rd : Reg) (disp : Int)
  /-- BLEI: branch when `R[d]` LE the immediate (R197). -/
  | blei (rd : Reg) (disp : Int)
  /-- BGTUI: branch when `R[d]` GTU the immediate (R198). -/
  | bgtui (rd : Reg) (disp : Int)
  /-- BGEUI: branch when `R[d]` GEU the immediate (R199). -/
  | bgeui (rd : Reg) (disp : Int)
  /-- BLTUI: branch when `R[d]` LTU the immediate (R200). -/
  | bltui (rd : Reg) (disp : Int)
  /-- BLEUI: branch when `R[d]` LEU the immediate (R201). -/
  | bleui (rd : Reg) (disp : Int)
  -- Compare and branch, byte form; `b` is the byte as its condition reads it.
  /-- BEQIB: branch when `R[d]` EQ the byte (R203). -/
  | beqib (rd : Reg) (b : Int) (disp : Int)
  /-- BNEIB: branch when `R[d]` NE the byte (R204). -/
  | bneib (rd : Reg) (b : Int) (disp : Int)
  /-- BGTIB: branch when `R[d]` GT the byte (R205). -/
  | bgtib (rd : Reg) (b : Int) (disp : Int)
  /-- BGEIB: branch when `R[d]` GE the byte (R206). -/
  | bgeib (rd : Reg) (b : Int) (disp : Int)
  /-- BLTIB: branch when `R[d]` LT the byte (R207). -/
  | bltib (rd : Reg) (b : Int) (disp : Int)
  /-- BLEIB: branch when `R[d]` LE the byte (R208). -/
  | bleib (rd : Reg) (b : Int) (disp : Int)
  /-- BGTUIB: branch when `R[d]` GTU the byte (R209). -/
  | bgtuib (rd : Reg) (b : Nat) (disp : Int)
  /-- BGEUIB: branch when `R[d]` GEU the byte (R210). -/
  | bgeuib (rd : Reg) (b : Nat) (disp : Int)
  /-- BLTUIB: branch when `R[d]` LTU the byte (R211). -/
  | bltuib (rd : Reg) (b : Nat) (disp : Int)
  /-- BLEUIB: branch when `R[d]` LEU the byte (R212). -/
  | bleuib (rd : Reg) (b : Nat) (disp : Int)
  -- Loads and stores (spec/45_load_store.md); the displacement is in the info word.
  /-- LDB: load byte, sign-extended (R221). -/
  | ldb (rd rs : Reg)
  /-- LDBU: load byte, zero-extended (R222). -/
  | ldbu (rd rs : Reg)
  /-- LDH: load half, sign-extended (R223). -/
  | ldh (rd rs : Reg)
  /-- LDHU: load half, zero-extended (R224). -/
  | ldhu (rd rs : Reg)
  /-- LDW: load word (R225). -/
  | ldw (rd rs : Reg)
  /-- STB: store byte (R226). -/
  | stb (rd rs : Reg)
  /-- STH: store half (R227). -/
  | sth (rd rs : Reg)
  /-- STW: store word (R228). -/
  | stw (rd rs : Reg)
  -- Control transfer (spec/46_control_transfer.md).
  /-- JPr: jump to a register (R241). -/
  | jpr (rd : Reg)
  /-- CALLr: call through a register (R242). -/
  | callr (rd : Reg)
  /-- JPl: relative jump (R243). -/
  | jpl
  /-- CALLl: relative call (R244). -/
  | calll
  /-- RET: return (R245). -/
  | ret
  -- Frame and task (spec/47_frame_task.md).
  /-- STORE: push a register range (R251). -/
  | store (first last : Reg)
  /-- RESTORE: pop a register range (R252). -/
  | restore (first last : Reg)
  /-- KILLTASK: end the task (R253). -/
  | killtask
  /-- SLEEP: yield (R254). -/
  | sleep
  -- System bridge (spec/48_system_bridge.md).
  /-- SYSCPY: block copy (R261). -/
  | syscpy (rd rs rt : Reg)
  /-- SYSSET: block fill (R262). -/
  | sysset (rd rs rt : Reg)
deriving DecidableEq, Repr

/-- The mnemonic of R70, as spec/opcode_table.json spells it. -/
def Instr.mnemonic : Instr → String
  | .add _ _ _ => "ADD"
  | .sub _ _ _ => "SUB"
  | .mul _ _ _ => "MUL"
  | .div _ _ _ => "DIV"
  | .divu _ _ _ => "DIVU"
  | .and _ _ _ => "AND"
  | .or _ _ _ => "OR"
  | .xor _ _ _ => "XOR"
  | .neg _ _ => "NEG"
  | .not _ _ => "NOT"
  | .addi _ _ => "ADDi"
  | .subi _ _ => "SUBi"
  | .muli _ _ => "MULi"
  | .divi _ _ => "DIVi"
  | .divui _ _ => "DIVUi"
  | .andi _ _ => "ANDi"
  | .ori _ _ => "ORi"
  | .xori _ _ => "XORi"
  | .addb _ _ _ => "ADDB"
  | .subb _ _ _ => "SUBB"
  | .andb _ _ _ => "ANDB"
  | .orb _ _ _ => "ORB"
  | .xorb _ _ _ => "XORB"
  | .addh _ _ _ => "ADDH"
  | .subh _ _ _ => "SUBH"
  | .andh _ _ _ => "ANDH"
  | .orh _ _ _ => "ORH"
  | .xorh _ _ _ => "XORH"
  | .sll _ _ _ => "SLL"
  | .srl _ _ _ => "SRL"
  | .sra _ _ _ => "SRA"
  | .slli _ _ _ => "SLLi"
  | .srli _ _ _ => "SRLi"
  | .srai _ _ _ => "SRAi"
  | .sllb _ _ _ => "SLLB"
  | .srlb _ _ _ => "SRLB"
  | .srab _ _ _ => "SRAB"
  | .sllh _ _ _ => "SLLH"
  | .srlh _ _ _ => "SRLH"
  | .srah _ _ _ => "SRAH"
  | .exsb _ _ => "EXSB"
  | .exsh _ _ => "EXSH"
  | .mov _ _ => "MOV"
  | .movb _ _ => "MOVB"
  | .movh _ _ => "MOVH"
  | .ldi _ => "LDI"
  | .beqi _ _ => "BEQI"
  | .bnei _ _ => "BNEI"
  | .bgti _ _ => "BGTI"
  | .bgei _ _ => "BGEI"
  | .blti _ _ => "BLTI"
  | .blei _ _ => "BLEI"
  | .bgtui _ _ => "BGTUI"
  | .bgeui _ _ => "BGEUI"
  | .bltui _ _ => "BLTUI"
  | .bleui _ _ => "BLEUI"
  | .beqib _ _ _ => "BEQIB"
  | .bneib _ _ _ => "BNEIB"
  | .bgtib _ _ _ => "BGTIB"
  | .bgeib _ _ _ => "BGEIB"
  | .bltib _ _ _ => "BLTIB"
  | .bleib _ _ _ => "BLEIB"
  | .bgtuib _ _ _ => "BGTUIB"
  | .bgeuib _ _ _ => "BGEUIB"
  | .bltuib _ _ _ => "BLTUIB"
  | .bleuib _ _ _ => "BLEUIB"
  | .ldb _ _ => "LDB"
  | .ldbu _ _ => "LDBU"
  | .ldh _ _ => "LDH"
  | .ldhu _ _ => "LDHU"
  | .ldw _ _ => "LDW"
  | .stb _ _ => "STB"
  | .sth _ _ => "STH"
  | .stw _ _ => "STW"
  | .jpr _ => "JPr"
  | .callr _ => "CALLr"
  | .jpl => "JPl"
  | .calll => "CALLl"
  | .ret => "RET"
  | .store _ _ => "STORE"
  | .restore _ _ => "RESTORE"
  | .killtask => "KILLTASK"
  | .sleep => "SLEEP"
  | .syscpy _ _ _ => "SYSCPY"
  | .sysset _ _ _ => "SYSSET"

/-- The shape bound to the instruction's slot (R70, R71). -/
def Instr.shape : Instr → Shape
  | .add _ _ _ | .sub _ _ _ | .mul _ _ _ | .div _ _ _ | .divu _ _ _
  | .and _ _ _ | .or _ _ _ | .xor _ _ _ | .neg _ _ | .not _ _
  | .addb _ _ _ | .subb _ _ _ | .andb _ _ _ | .orb _ _ _ | .xorb _ _ _
  | .addh _ _ _ | .subh _ _ _ | .andh _ _ _ | .orh _ _ _ | .xorh _ _ _
  | .sll _ _ _ | .srl _ _ _ | .sra _ _ _ | .slli _ _ _ | .srli _ _ _
  | .srai _ _ _ | .sllb _ _ _ | .srlb _ _ _ | .srab _ _ _ | .sllh _ _ _
  | .srlh _ _ _ | .srah _ _ _ | .exsb _ _ | .exsh _ _ | .mov _ _
  | .movb _ _ | .movh _ _ | .beqib _ _ _ | .bneib _ _ _ | .bgtib _ _ _
  | .bgeib _ _ _ | .bltib _ _ _ | .bleib _ _ _ | .bgtuib _ _ _ | .bgeuib _ _ _
  | .bltuib _ _ _ | .bleuib _ _ _ | .syscpy _ _ _ | .sysset _ _ _ => .ts
  | .ldi _ | .beqi _ _ | .bnei _ _ | .bgti _ _ | .bgei _ _
  | .blti _ _ | .blei _ _ | .bgtui _ _ | .bgeui _ _ | .bltui _ _
  | .bleui _ _ | .jpr _ | .callr _ => .dest
  | .addi _ _ | .subi _ _ | .muli _ _ | .divi _ _ | .divui _ _
  | .andi _ _ | .ori _ _ | .xori _ _ | .ldb _ _ | .ldbu _ _
  | .ldh _ _ | .ldhu _ _ | .ldw _ _ | .stb _ _ | .sth _ _
  | .stw _ _ | .jpl | .calll => .wi
  | .store _ _ | .restore _ _ => .rr
  | .ret | .killtask | .sleep => .ud

/-- Whether one info word follows (R70 column `info`, R73). -/
def Instr.hasInfo : Instr → Bool
  | .addi _ _ | .subi _ _ | .muli _ _ | .divi _ _ | .divui _ _ | .andi _ _
  | .ori _ _ | .xori _ _ | .ldi _ | .beqi _ _ | .bnei _ _ | .bgti _ _
  | .bgei _ _ | .blti _ _ | .blei _ _ | .bgtui _ _ | .bgeui _ _ | .bltui _ _
  | .bleui _ _ | .ldb _ _ | .ldbu _ _ | .ldh _ _ | .ldhu _ _ | .ldw _ _
  | .stb _ _ | .sth _ _ | .stw _ _ | .jpl | .calll => true
  | .add _ _ _ | .sub _ _ _ | .mul _ _ _ | .div _ _ _ | .divu _ _ _ | .and _ _ _
  | .or _ _ _ | .xor _ _ _ | .neg _ _ | .not _ _ | .addb _ _ _ | .subb _ _ _
  | .andb _ _ _ | .orb _ _ _ | .xorb _ _ _ | .addh _ _ _ | .subh _ _ _ | .andh _ _ _
  | .orh _ _ _ | .xorh _ _ _ | .sll _ _ _ | .srl _ _ _ | .sra _ _ _ | .slli _ _ _
  | .srli _ _ _ | .srai _ _ _ | .sllb _ _ _ | .srlb _ _ _ | .srab _ _ _ | .sllh _ _ _
  | .srlh _ _ _ | .srah _ _ _ | .exsb _ _ | .exsh _ _ | .mov _ _ | .movb _ _
  | .movh _ _ | .beqib _ _ _ | .bneib _ _ _ | .bgtib _ _ _ | .bgeib _ _ _ | .bltib _ _ _
  | .bleib _ _ _ | .bgtuib _ _ _ | .bgeuib _ _ _ | .bltuib _ _ _ | .bleuib _ _ _ | .jpr _
  | .callr _ | .ret | .store _ _ | .restore _ _ | .killtask | .sleep
  | .syscpy _ _ _ | .sysset _ _ _ => false

/-- A register's name: `sp` and `ra` are its assembler aliases of r1 and r2 (R11, R13, R74). -/
def regName (r : Reg) : String :=
  if r = 1 then "sp" else if r = 2 then "ra" else "r" ++ toString r.val

/-- A word displacement as the spec's examples write it, with its sign: `+3`, `-1` (R74). -/
def dispText (d : Int) : String :=
  if d < 0 then toString d else "+" ++ toString d

/-- The operands in the assembler syntax of R74. `imm` is the text of the info word's operand (`#5`, `pool[3]`, a label). -/
def Instr.operandText (imm : String) : Instr → String
  | .add rd rs rt | .sub rd rs rt | .mul rd rs rt | .div rd rs rt
  | .divu rd rs rt | .and rd rs rt | .or rd rs rt | .xor rd rs rt
  | .addb rd rs rt | .subb rd rs rt | .andb rd rs rt | .orb rd rs rt
  | .xorb rd rs rt | .addh rd rs rt | .subh rd rs rt | .andh rd rs rt
  | .orh rd rs rt | .xorh rd rs rt | .sll rd rs rt | .srl rd rs rt
  | .sra rd rs rt | .syscpy rd rs rt | .sysset rd rs rt =>
    regName rd ++ ", " ++ regName rs ++ ", " ++ regName rt
  | .neg rd rs | .not rd rs | .exsb rd rs | .exsh rd rs
  | .mov rd rs | .movb rd rs | .movh rd rs =>
    regName rd ++ ", " ++ regName rs
  | .addi rd rs | .subi rd rs | .muli rd rs | .divi rd rs
  | .divui rd rs | .andi rd rs | .ori rd rs | .xori rd rs =>
    regName rd ++ ", " ++ regName rs ++ ", " ++ imm
  | .slli rd rs sh | .srli rd rs sh | .srai rd rs sh | .sllb rd rs sh
  | .srlb rd rs sh | .srab rd rs sh | .sllh rd rs sh | .srlh rd rs sh
  | .srah rd rs sh =>
    regName rd ++ ", " ++ regName rs ++ ", #" ++ toString sh
  | .ldi rd =>
    regName rd ++ ", " ++ imm
  | .beqi rd disp | .bnei rd disp | .bgti rd disp | .bgei rd disp
  | .blti rd disp | .blei rd disp | .bgtui rd disp | .bgeui rd disp
  | .bltui rd disp | .bleui rd disp =>
    regName rd ++ ", " ++ imm ++ ", " ++ dispText disp
  | .beqib rd b disp | .bneib rd b disp | .bgtib rd b disp | .bgeib rd b disp
  | .bltib rd b disp | .bleib rd b disp =>
    regName rd ++ ", #" ++ toString b ++ ", " ++ dispText disp
  | .bgtuib rd b disp | .bgeuib rd b disp | .bltuib rd b disp | .bleuib rd b disp =>
    regName rd ++ ", #" ++ toString b ++ ", " ++ dispText disp
  | .ldb rd rs | .ldbu rd rs | .ldh rd rs | .ldhu rd rs
  | .ldw rd rs | .stb rd rs | .sth rd rs | .stw rd rs =>
    regName rd ++ ", " ++ imm ++ "(" ++ regName rs ++ ")"
  | .jpr rd | .callr rd =>
    regName rd
  | .jpl | .calll =>
    imm
  | .ret | .killtask | .sleep =>
    ""
  | .store first last | .restore first last =>
    regName first ++ ", " ++ regName last

/-- An instruction in the assembler syntax of R74. There are no pseudo-instructions (R75). -/
def Instr.text (imm : String) (i : Instr) : String :=
  if i.operandText imm = "" then i.mnemonic else i.mnemonic ++ " " ++ i.operandText imm

end Sys2Proof
end

