-- ==== Sys2Proof/Machine/Dispatch.lean ====
section
/-!
DEFINITION. The handlers bound to the opcode table's slots (spec/40_loop_and_resolver.md R98): one arm per
instruction, run at handler entry, where `pc` is already past the instruction word (R16, R93).
-/
namespace Sys2Proof.Machine

def exec (i : Instr) (s : State) : Host.Outcome State Fault Refusal :=
  match i with
  | .add rd rs rt => Sys2Proof.Machine.execAdd rd rs rt s
  | .sub rd rs rt => Sys2Proof.Machine.execSub rd rs rt s
  | .mul rd rs rt => Sys2Proof.Machine.execMul rd rs rt s
  | .div rd rs rt => Sys2Proof.Machine.execDiv rd rs rt s
  | .divu rd rs rt => Sys2Proof.Machine.execDivu rd rs rt s
  | .and rd rs rt => Sys2Proof.Machine.execAnd rd rs rt s
  | .or rd rs rt => Sys2Proof.Machine.execOr rd rs rt s
  | .xor rd rs rt => Sys2Proof.Machine.execXor rd rs rt s
  | .neg rd rs => Sys2Proof.Machine.execNeg rd rs s
  | .not rd rs => Sys2Proof.Machine.execNot rd rs s
  | .addi rd rs => Sys2Proof.Machine.execAddi rd rs s
  | .subi rd rs => Sys2Proof.Machine.execSubi rd rs s
  | .muli rd rs => Sys2Proof.Machine.execMuli rd rs s
  | .divi rd rs => Sys2Proof.Machine.execDivi rd rs s
  | .divui rd rs => Sys2Proof.Machine.execDivui rd rs s
  | .andi rd rs => Sys2Proof.Machine.execAndi rd rs s
  | .ori rd rs => Sys2Proof.Machine.execOri rd rs s
  | .xori rd rs => Sys2Proof.Machine.execXori rd rs s
  | .addb rd rs rt => Sys2Proof.Machine.execAddb rd rs rt s
  | .subb rd rs rt => Sys2Proof.Machine.execSubb rd rs rt s
  | .andb rd rs rt => Sys2Proof.Machine.execAndb rd rs rt s
  | .orb rd rs rt => Sys2Proof.Machine.execOrb rd rs rt s
  | .xorb rd rs rt => Sys2Proof.Machine.execXorb rd rs rt s
  | .addh rd rs rt => Sys2Proof.Machine.execAddh rd rs rt s
  | .subh rd rs rt => Sys2Proof.Machine.execSubh rd rs rt s
  | .andh rd rs rt => Sys2Proof.Machine.execAndh rd rs rt s
  | .orh rd rs rt => Sys2Proof.Machine.execOrh rd rs rt s
  | .xorh rd rs rt => Sys2Proof.Machine.execXorh rd rs rt s
  | .sll rd rs rt => Sys2Proof.Machine.execSll rd rs rt s
  | .srl rd rs rt => Sys2Proof.Machine.execSrl rd rs rt s
  | .sra rd rs rt => Sys2Proof.Machine.execSra rd rs rt s
  | .slli rd rs sh => Sys2Proof.Machine.execSlli rd rs sh s
  | .srli rd rs sh => Sys2Proof.Machine.execSrli rd rs sh s
  | .srai rd rs sh => Sys2Proof.Machine.execSrai rd rs sh s
  | .sllb rd rs sh => Sys2Proof.Machine.execSllb rd rs sh s
  | .srlb rd rs sh => Sys2Proof.Machine.execSrlb rd rs sh s
  | .srab rd rs sh => Sys2Proof.Machine.execSrab rd rs sh s
  | .sllh rd rs sh => Sys2Proof.Machine.execSllh rd rs sh s
  | .srlh rd rs sh => Sys2Proof.Machine.execSrlh rd rs sh s
  | .srah rd rs sh => Sys2Proof.Machine.execSrah rd rs sh s
  | .exsb rd rs => Sys2Proof.Machine.execExsb rd rs s
  | .exsh rd rs => Sys2Proof.Machine.execExsh rd rs s
  | .mov rd rs => Sys2Proof.Machine.execMov rd rs s
  | .movb rd rs => Sys2Proof.Machine.execMovb rd rs s
  | .movh rd rs => Sys2Proof.Machine.execMovh rd rs s
  | .ldi rd => Sys2Proof.Machine.execLdi rd s
  | .beqi rd disp => Sys2Proof.Machine.execBeqi rd disp s
  | .bnei rd disp => Sys2Proof.Machine.execBnei rd disp s
  | .bgti rd disp => Sys2Proof.Machine.execBgti rd disp s
  | .bgei rd disp => Sys2Proof.Machine.execBgei rd disp s
  | .blti rd disp => Sys2Proof.Machine.execBlti rd disp s
  | .blei rd disp => Sys2Proof.Machine.execBlei rd disp s
  | .bgtui rd disp => Sys2Proof.Machine.execBgtui rd disp s
  | .bgeui rd disp => Sys2Proof.Machine.execBgeui rd disp s
  | .bltui rd disp => Sys2Proof.Machine.execBltui rd disp s
  | .bleui rd disp => Sys2Proof.Machine.execBleui rd disp s
  | .beqib rd b disp => Sys2Proof.Machine.execBeqib rd b disp s
  | .bneib rd b disp => Sys2Proof.Machine.execBneib rd b disp s
  | .bgtib rd b disp => Sys2Proof.Machine.execBgtib rd b disp s
  | .bgeib rd b disp => Sys2Proof.Machine.execBgeib rd b disp s
  | .bltib rd b disp => Sys2Proof.Machine.execBltib rd b disp s
  | .bleib rd b disp => Sys2Proof.Machine.execBleib rd b disp s
  | .bgtuib rd b disp => Sys2Proof.Machine.execBgtuib rd b disp s
  | .bgeuib rd b disp => Sys2Proof.Machine.execBgeuib rd b disp s
  | .bltuib rd b disp => Sys2Proof.Machine.execBltuib rd b disp s
  | .bleuib rd b disp => Sys2Proof.Machine.execBleuib rd b disp s
  | .ldb rd rs => Sys2Proof.Machine.execLdb rd rs s
  | .ldbu rd rs => Sys2Proof.Machine.execLdbu rd rs s
  | .ldh rd rs => Sys2Proof.Machine.execLdh rd rs s
  | .ldhu rd rs => Sys2Proof.Machine.execLdhu rd rs s
  | .ldw rd rs => Sys2Proof.Machine.execLdw rd rs s
  | .stb rd rs => Sys2Proof.Machine.execStb rd rs s
  | .sth rd rs => Sys2Proof.Machine.execSth rd rs s
  | .stw rd rs => Sys2Proof.Machine.execStw rd rs s
  | .jpr rd => Sys2Proof.Machine.execJpr rd s
  | .callr rd => Sys2Proof.Machine.execCallr rd s
  | .jpl => Sys2Proof.Machine.execJpl s
  | .calll => Sys2Proof.Machine.execCalll s
  | .ret => Sys2Proof.Machine.execRet s
  | .store first last => Sys2Proof.Machine.execStore first last s
  | .restore first last => Sys2Proof.Machine.execRestore first last s
  | .killtask => Sys2Proof.Machine.execKilltask s
  | .sleep => Sys2Proof.Machine.execSleep s
  | .syscpy rd rs rt => Sys2Proof.Machine.execSyscpy rd rs rt s
  | .sysset rd rs rt => Sys2Proof.Machine.execSysset rd rs rt s

end Sys2Proof.Machine
end

