-- ==== Sys2Proof/WellFormed.lean ====
section
/-!
DEFINITION. Which instructions have an encoding. A register index always fits its field (spec/10_state.md R14); a shift
count, a byte immediate and a displacement must lie in the range of the field that holds them (spec/30_encoding.md R62,
R77). The assembler refuses one that does not fit (R74).
-/
namespace Sys2Proof

/-- A shift count fits its 5 bits: 0 to 31 (R77 `sh`). -/
def shiftFits (sh : Nat) : Bool := decide (sh < 32)

/-- A byte displacement or a signed compare byte fits 8 bits, two's complement: -128 to 127 (R77 `disp8`, compare byte). -/
def signedByteFits (x : Int) : Bool := decide (-128 ≤ x ∧ x < 128)

/-- An unsigned compare byte fits 8 bits: 0 to 255 (R77 compare byte of the U forms). -/
def unsignedByteFits (x : Nat) : Bool := decide (x < 256)

/-- A 16-bit displacement fits: -32768 to 32767 (R77 `disp16`). -/
def disp16Fits (x : Int) : Bool := decide (-32768 ≤ x ∧ x < 32768)

/-- The instruction has an encoding. -/
def WellFormed : Instr → Bool
  | .slli _ _ sh | .srli _ _ sh | .srai _ _ sh | .sllb _ _ sh
  | .srlb _ _ sh | .srab _ _ sh | .sllh _ _ sh | .srlh _ _ sh
  | .srah _ _ sh => shiftFits sh
  | .beqi _ disp | .bnei _ disp | .bgti _ disp | .bgei _ disp
  | .blti _ disp | .blei _ disp | .bgtui _ disp | .bgeui _ disp
  | .bltui _ disp | .bleui _ disp => disp16Fits disp
  | .beqib _ b disp | .bneib _ b disp | .bgtib _ b disp | .bgeib _ b disp
  | .bltib _ b disp | .bleib _ b disp => signedByteFits b && signedByteFits disp
  | .bgtuib _ b disp | .bgeuib _ b disp | .bltuib _ b disp | .bleuib _ b disp => unsignedByteFits b && signedByteFits disp
  | .add _ _ _ | .sub _ _ _ | .mul _ _ _ | .div _ _ _ | .divu _ _ _ | .and _ _ _
  | .or _ _ _ | .xor _ _ _ | .neg _ _ | .not _ _ | .addi _ _ | .subi _ _
  | .muli _ _ | .divi _ _ | .divui _ _ | .andi _ _ | .ori _ _ | .xori _ _
  | .addb _ _ _ | .subb _ _ _ | .andb _ _ _ | .orb _ _ _ | .xorb _ _ _ | .addh _ _ _
  | .subh _ _ _ | .andh _ _ _ | .orh _ _ _ | .xorh _ _ _ | .sll _ _ _ | .srl _ _ _
  | .sra _ _ _ | .exsb _ _ | .exsh _ _ | .mov _ _ | .movb _ _ | .movh _ _
  | .ldi _ | .ldb _ _ | .ldbu _ _ | .ldh _ _ | .ldhu _ _ | .ldw _ _
  | .stb _ _ | .sth _ _ | .stw _ _ | .jpr _ | .callr _ | .jpl
  | .calll | .ret | .store _ _ | .restore _ _ | .killtask | .sleep
  | .syscpy _ _ _ | .sysset _ _ _ => true

end Sys2Proof
end

