-- ==== Sys2Proof/Decode.lean ====
section
/-!
DEFINITION. Decoding and encoding (spec/30_encoding.md). The opcode table of R70 as a list of rows; a decoder that is
total on any bytes and refuses by name (R72); an encoder that writes the canonical form, zero in every ignored bit
(R68). The low byte of a word stands at the lowest address (spec/20_memory.md R48).
-/
namespace Sys2Proof

/-! ## Fields of an instruction word (R61, R62) -/

/-- The opcode, bits 7..0 (R61). -/
def opByte (w : Word) : Byte := w.extractLsb' 0 8

/-- Byte `a`, bits 15..8 (R62). -/
def byteA (w : Word) : Byte := w.extractLsb' 8 8

/-- Byte `b`, bits 23..16 (R62). -/
def byteB (w : Word) : Byte := w.extractLsb' 16 8

/-- Byte `c`, bits 31..24 (R62). -/
def byteC (w : Word) : Byte := w.extractLsb' 24 8

/-- `imm16`, bits 31..16, of the destination-only shape (R62, R64). -/
def imm16 (w : Word) : BitVec 16 := w.extractLsb' 16 16

/-- The register index in an operand byte: its low 5 bits (R62). The other three are ignored (R68). -/
def regOfByte (x : Byte) : Reg := ⟨x.toNat % 32, Nat.mod_lt _ (by decide)⟩

/-- The shift count in an operand byte: its low 5 bits, unsigned (R62, R77). -/
def shiftOfByte (x : Byte) : Nat := x.toNat % 32

/-! ## Operands by shape (R63 to R67) -/

/-- TS register form: `d`, `s`, `t` (R63). -/
def regs3 (f : Reg → Reg → Reg → Instr) (w : Word) : Instr :=
  f (regOfByte (byteA w)) (regOfByte (byteB w)) (regOfByte (byteC w))

/-- TS with byte `c` unused, WI, and RR (`first = d`, `last = s`): `d`, `s` (R63, R65, R66). -/
def regs2 (f : Reg → Reg → Instr) (w : Word) : Instr :=
  f (regOfByte (byteA w)) (regOfByte (byteB w))

/-- DO with `imm16` unused: `d` (R64). -/
def reg1 (f : Reg → Instr) (w : Word) : Instr := f (regOfByte (byteA w))

/-- TS with a shift count: `d`, `s`, `sh` (R63). -/
def regsShift (f : Reg → Reg → Nat → Instr) (w : Word) : Instr :=
  f (regOfByte (byteA w)) (regOfByte (byteB w)) (shiftOfByte (byteC w))

/-- TS byte form of a signed or equality branch: `d`, `sext_8(b)`, `sext_8(c)` (R63, R77). -/
def byteBranch (f : Reg → Int → Int → Instr) (w : Word) : Instr :=
  f (regOfByte (byteA w)) (byteB w).toInt (byteC w).toInt

/-- TS byte form of an unsigned branch: `d`, `zext_8(b)`, `sext_8(c)` (R63, R77). -/
def byteBranchU (f : Reg → Nat → Int → Instr) (w : Word) : Instr :=
  f (regOfByte (byteA w)) (byteB w).toNat (byteC w).toInt

/-- DO with a displacement: `d`, `sext_16(imm16)` (R64, R77). -/
def infoBranch (f : Reg → Int → Instr) (w : Word) : Instr :=
  f (regOfByte (byteA w)) (imm16 w).toInt

/-- UD, and the WI jumps that use neither `d` nor `s` (R65, R67). -/
def noOperand (i : Instr) (_ : Word) : Instr := i

/-! ## The opcode table (R70) -/

/-- One assigned slot: its opcode, its one shape, whether an info word follows, and how its operands are read. -/
structure OpcodeRow where
  /-- opcode -/
  op : Byte
  /-- the one encoding shape of the slot (R71) -/
  shape : Shape
  /-- column `info` -/
  info : Bool
  /-- the instruction a word of this slot stands for -/
  build : Word → Instr

/-- R70, register arithmetic and logic. -/
def arithRows : List OpcodeRow :=
  [ ⟨0x01, .ts, false, regs3 .add⟩
  , ⟨0x02, .ts, false, regs3 .sub⟩
  , ⟨0x03, .ts, false, regs3 .mul⟩
  , ⟨0x04, .ts, false, regs3 .div⟩
  , ⟨0x05, .ts, false, regs3 .divu⟩
  , ⟨0x06, .ts, false, regs3 .and⟩
  , ⟨0x07, .ts, false, regs3 .or⟩
  , ⟨0x08, .ts, false, regs3 .xor⟩
  , ⟨0x09, .ts, false, regs2 .neg⟩
  , ⟨0x0A, .ts, false, regs2 .not⟩ ]

/-- R70, immediate arithmetic and logic. -/
def immediateRows : List OpcodeRow :=
  [ ⟨0x0B, .wi, true, regs2 .addi⟩
  , ⟨0x0C, .wi, true, regs2 .subi⟩
  , ⟨0x0D, .wi, true, regs2 .muli⟩
  , ⟨0x0E, .wi, true, regs2 .divi⟩
  , ⟨0x0F, .wi, true, regs2 .divui⟩
  , ⟨0x10, .wi, true, regs2 .andi⟩
  , ⟨0x11, .wi, true, regs2 .ori⟩
  , ⟨0x12, .wi, true, regs2 .xori⟩ ]

/-- R70, byte and half arithmetic and logic. -/
def narrowRows : List OpcodeRow :=
  [ ⟨0x13, .ts, false, regs3 .addb⟩
  , ⟨0x14, .ts, false, regs3 .subb⟩
  , ⟨0x15, .ts, false, regs3 .andb⟩
  , ⟨0x16, .ts, false, regs3 .orb⟩
  , ⟨0x17, .ts, false, regs3 .xorb⟩
  , ⟨0x18, .ts, false, regs3 .addh⟩
  , ⟨0x19, .ts, false, regs3 .subh⟩
  , ⟨0x1A, .ts, false, regs3 .andh⟩
  , ⟨0x1B, .ts, false, regs3 .orh⟩
  , ⟨0x1C, .ts, false, regs3 .xorh⟩ ]

/-- R70, shifts. -/
def shiftRows : List OpcodeRow :=
  [ ⟨0x1D, .ts, false, regs3 .sll⟩
  , ⟨0x1E, .ts, false, regs3 .srl⟩
  , ⟨0x1F, .ts, false, regs3 .sra⟩
  , ⟨0x20, .ts, false, regsShift .slli⟩
  , ⟨0x21, .ts, false, regsShift .srli⟩
  , ⟨0x22, .ts, false, regsShift .srai⟩
  , ⟨0x23, .ts, false, regsShift .sllb⟩
  , ⟨0x24, .ts, false, regsShift .srlb⟩
  , ⟨0x25, .ts, false, regsShift .srab⟩
  , ⟨0x26, .ts, false, regsShift .sllh⟩
  , ⟨0x27, .ts, false, regsShift .srlh⟩
  , ⟨0x28, .ts, false, regsShift .srah⟩ ]

/-- R70, extend, move, load immediate. -/
def moveRows : List OpcodeRow :=
  [ ⟨0x29, .ts, false, regs2 .exsb⟩
  , ⟨0x2A, .ts, false, regs2 .exsh⟩
  , ⟨0x2B, .ts, false, regs2 .mov⟩
  , ⟨0x2C, .ts, false, regs2 .movb⟩
  , ⟨0x2D, .ts, false, regs2 .movh⟩
  , ⟨0x2E, .dest, true, reg1 .ldi⟩ ]

/-- R70, compare and branch, info-word form. -/
def branchRows : List OpcodeRow :=
  [ ⟨0x2F, .dest, true, infoBranch .beqi⟩
  , ⟨0x30, .dest, true, infoBranch .bnei⟩
  , ⟨0x31, .dest, true, infoBranch .bgti⟩
  , ⟨0x32, .dest, true, infoBranch .bgei⟩
  , ⟨0x33, .dest, true, infoBranch .blti⟩
  , ⟨0x34, .dest, true, infoBranch .blei⟩
  , ⟨0x35, .dest, true, infoBranch .bgtui⟩
  , ⟨0x36, .dest, true, infoBranch .bgeui⟩
  , ⟨0x37, .dest, true, infoBranch .bltui⟩
  , ⟨0x38, .dest, true, infoBranch .bleui⟩ ]

/-- R70, compare and branch, byte form. -/
def byteBranchRows : List OpcodeRow :=
  [ ⟨0x39, .ts, false, byteBranch .beqib⟩
  , ⟨0x3A, .ts, false, byteBranch .bneib⟩
  , ⟨0x3B, .ts, false, byteBranch .bgtib⟩
  , ⟨0x3C, .ts, false, byteBranch .bgeib⟩
  , ⟨0x3D, .ts, false, byteBranch .bltib⟩
  , ⟨0x3E, .ts, false, byteBranch .bleib⟩
  , ⟨0x3F, .ts, false, byteBranchU .bgtuib⟩
  , ⟨0x40, .ts, false, byteBranchU .bgeuib⟩
  , ⟨0x41, .ts, false, byteBranchU .bltuib⟩
  , ⟨0x42, .ts, false, byteBranchU .bleuib⟩ ]

/-- R70, loads and stores. -/
def memoryRows : List OpcodeRow :=
  [ ⟨0x43, .wi, true, regs2 .ldb⟩
  , ⟨0x44, .wi, true, regs2 .ldbu⟩
  , ⟨0x45, .wi, true, regs2 .ldh⟩
  , ⟨0x46, .wi, true, regs2 .ldhu⟩
  , ⟨0x47, .wi, true, regs2 .ldw⟩
  , ⟨0x48, .wi, true, regs2 .stb⟩
  , ⟨0x49, .wi, true, regs2 .sth⟩
  , ⟨0x4A, .wi, true, regs2 .stw⟩ ]

/-- R70, control transfer, frame, task and bridge. -/
def controlRows : List OpcodeRow :=
  [ ⟨0x4B, .dest, false, reg1 .jpr⟩
  , ⟨0x4C, .dest, false, reg1 .callr⟩
  , ⟨0x4D, .wi, true, noOperand .jpl⟩
  , ⟨0x4E, .wi, true, noOperand .calll⟩
  , ⟨0x4F, .ud, false, noOperand .ret⟩
  , ⟨0x50, .rr, false, regs2 .store⟩
  , ⟨0x51, .rr, false, regs2 .restore⟩
  , ⟨0x52, .ud, false, noOperand .killtask⟩
  , ⟨0x53, .ud, false, noOperand .sleep⟩
  , ⟨0x54, .ts, false, regs3 .syscpy⟩
  , ⟨0x55, .ts, false, regs3 .sysset⟩ ]

/-- The assigned slots; every opcode not listed is unassigned (R22, R70, R72). It is constant (R98). -/
def opcodeTable : List OpcodeRow :=
  arithRows ++ immediateRows ++ narrowRows ++ shiftRows ++ moveRows ++
    branchRows ++ byteBranchRows ++ memoryRows ++ controlRows

/-- The slot of an opcode: `none` is the 'unimplemented' marker (R22, R72). -/
def slot (op : Byte) : Option OpcodeRow := opcodeTable.find? (fun r => r.op == op)

/-- The shape of an opcode, a function of the opcode alone (R71). -/
def shapeOf (op : Byte) : Option Shape := (slot op).map (·.shape)

/-! ## Decoding -/

/-- Why bytes are no instruction. -/
inductive DecodeReject where
  /-- fewer than four bytes: not a whole instruction word (R60). Raised by `decode` only; a fetch returns whole words. -/
  | truncated
  /-- the opcode names an unassigned slot (R72): the loop raises DecodeError with it (R271). -/
  | unassigned (op : Byte)
deriving DecidableEq, Repr

/-- Decode one instruction word. Only the opcode can be refused: operand bits never are (R68, R72). -/
def decodeWord (w : Word) : Except DecodeReject Instr :=
  match slot (opByte w) with
  | some r => .ok (r.build w)
  | none => .error (.unassigned (opByte w))

/-- Decode the instruction at the head of a list of bytes, lowest address first (R48), and return the rest. -/
def decode : List Byte → Except DecodeReject (Instr × List Byte)
  | b0 :: b1 :: b2 :: b3 :: rest =>
    match decodeWord (b3 ++ b2 ++ b1 ++ b0 : BitVec (8 + 8 + 8 + 8)) with
    | .ok i => .ok (i, rest)
    | .error e => .error e
  | _ => .error .truncated

/-! ## Encoding -/

/-- The word with the given opcode and operand bytes `a`, `b`, `c` (R62). -/
def instrWord (op a b c : Byte) : Word := (c ++ b ++ a ++ op : BitVec (8 + 8 + 8 + 8))

/-- The operand byte of a register: its index, zero above (R62, R68). -/
def regByte (r : Reg) : Byte := BitVec.ofNat 8 r.val

/-- The word of a BccI instruction: `imm16` is the displacement (R64, R77). -/
def infoBranchWord (op : Byte) (rd : Reg) (disp : Int) : Word :=
  (BitVec.ofInt 16 disp ++ regByte rd ++ op : BitVec (16 + 8 + 8))

/-- The canonical word of an instruction: zero in every ignored bit (R68, R70). -/
def encode : Instr → Word
  | .add rd rs rt => instrWord 0x01 (regByte rd) (regByte rs) (regByte rt)
  | .sub rd rs rt => instrWord 0x02 (regByte rd) (regByte rs) (regByte rt)
  | .mul rd rs rt => instrWord 0x03 (regByte rd) (regByte rs) (regByte rt)
  | .div rd rs rt => instrWord 0x04 (regByte rd) (regByte rs) (regByte rt)
  | .divu rd rs rt => instrWord 0x05 (regByte rd) (regByte rs) (regByte rt)
  | .and rd rs rt => instrWord 0x06 (regByte rd) (regByte rs) (regByte rt)
  | .or rd rs rt => instrWord 0x07 (regByte rd) (regByte rs) (regByte rt)
  | .xor rd rs rt => instrWord 0x08 (regByte rd) (regByte rs) (regByte rt)
  | .neg rd rs => instrWord 0x09 (regByte rd) (regByte rs) 0
  | .not rd rs => instrWord 0x0A (regByte rd) (regByte rs) 0
  | .addi rd rs => instrWord 0x0B (regByte rd) (regByte rs) 0
  | .subi rd rs => instrWord 0x0C (regByte rd) (regByte rs) 0
  | .muli rd rs => instrWord 0x0D (regByte rd) (regByte rs) 0
  | .divi rd rs => instrWord 0x0E (regByte rd) (regByte rs) 0
  | .divui rd rs => instrWord 0x0F (regByte rd) (regByte rs) 0
  | .andi rd rs => instrWord 0x10 (regByte rd) (regByte rs) 0
  | .ori rd rs => instrWord 0x11 (regByte rd) (regByte rs) 0
  | .xori rd rs => instrWord 0x12 (regByte rd) (regByte rs) 0
  | .addb rd rs rt => instrWord 0x13 (regByte rd) (regByte rs) (regByte rt)
  | .subb rd rs rt => instrWord 0x14 (regByte rd) (regByte rs) (regByte rt)
  | .andb rd rs rt => instrWord 0x15 (regByte rd) (regByte rs) (regByte rt)
  | .orb rd rs rt => instrWord 0x16 (regByte rd) (regByte rs) (regByte rt)
  | .xorb rd rs rt => instrWord 0x17 (regByte rd) (regByte rs) (regByte rt)
  | .addh rd rs rt => instrWord 0x18 (regByte rd) (regByte rs) (regByte rt)
  | .subh rd rs rt => instrWord 0x19 (regByte rd) (regByte rs) (regByte rt)
  | .andh rd rs rt => instrWord 0x1A (regByte rd) (regByte rs) (regByte rt)
  | .orh rd rs rt => instrWord 0x1B (regByte rd) (regByte rs) (regByte rt)
  | .xorh rd rs rt => instrWord 0x1C (regByte rd) (regByte rs) (regByte rt)
  | .sll rd rs rt => instrWord 0x1D (regByte rd) (regByte rs) (regByte rt)
  | .srl rd rs rt => instrWord 0x1E (regByte rd) (regByte rs) (regByte rt)
  | .sra rd rs rt => instrWord 0x1F (regByte rd) (regByte rs) (regByte rt)
  | .slli rd rs sh => instrWord 0x20 (regByte rd) (regByte rs) (BitVec.ofNat 8 sh)
  | .srli rd rs sh => instrWord 0x21 (regByte rd) (regByte rs) (BitVec.ofNat 8 sh)
  | .srai rd rs sh => instrWord 0x22 (regByte rd) (regByte rs) (BitVec.ofNat 8 sh)
  | .sllb rd rs sh => instrWord 0x23 (regByte rd) (regByte rs) (BitVec.ofNat 8 sh)
  | .srlb rd rs sh => instrWord 0x24 (regByte rd) (regByte rs) (BitVec.ofNat 8 sh)
  | .srab rd rs sh => instrWord 0x25 (regByte rd) (regByte rs) (BitVec.ofNat 8 sh)
  | .sllh rd rs sh => instrWord 0x26 (regByte rd) (regByte rs) (BitVec.ofNat 8 sh)
  | .srlh rd rs sh => instrWord 0x27 (regByte rd) (regByte rs) (BitVec.ofNat 8 sh)
  | .srah rd rs sh => instrWord 0x28 (regByte rd) (regByte rs) (BitVec.ofNat 8 sh)
  | .exsb rd rs => instrWord 0x29 (regByte rd) (regByte rs) 0
  | .exsh rd rs => instrWord 0x2A (regByte rd) (regByte rs) 0
  | .mov rd rs => instrWord 0x2B (regByte rd) (regByte rs) 0
  | .movb rd rs => instrWord 0x2C (regByte rd) (regByte rs) 0
  | .movh rd rs => instrWord 0x2D (regByte rd) (regByte rs) 0
  | .ldi rd => instrWord 0x2E (regByte rd) 0 0
  | .beqi rd disp => infoBranchWord 0x2F rd disp
  | .bnei rd disp => infoBranchWord 0x30 rd disp
  | .bgti rd disp => infoBranchWord 0x31 rd disp
  | .bgei rd disp => infoBranchWord 0x32 rd disp
  | .blti rd disp => infoBranchWord 0x33 rd disp
  | .blei rd disp => infoBranchWord 0x34 rd disp
  | .bgtui rd disp => infoBranchWord 0x35 rd disp
  | .bgeui rd disp => infoBranchWord 0x36 rd disp
  | .bltui rd disp => infoBranchWord 0x37 rd disp
  | .bleui rd disp => infoBranchWord 0x38 rd disp
  | .beqib rd b disp => instrWord 0x39 (regByte rd) (BitVec.ofInt 8 b) (BitVec.ofInt 8 disp)
  | .bneib rd b disp => instrWord 0x3A (regByte rd) (BitVec.ofInt 8 b) (BitVec.ofInt 8 disp)
  | .bgtib rd b disp => instrWord 0x3B (regByte rd) (BitVec.ofInt 8 b) (BitVec.ofInt 8 disp)
  | .bgeib rd b disp => instrWord 0x3C (regByte rd) (BitVec.ofInt 8 b) (BitVec.ofInt 8 disp)
  | .bltib rd b disp => instrWord 0x3D (regByte rd) (BitVec.ofInt 8 b) (BitVec.ofInt 8 disp)
  | .bleib rd b disp => instrWord 0x3E (regByte rd) (BitVec.ofInt 8 b) (BitVec.ofInt 8 disp)
  | .bgtuib rd b disp => instrWord 0x3F (regByte rd) (BitVec.ofNat 8 b) (BitVec.ofInt 8 disp)
  | .bgeuib rd b disp => instrWord 0x40 (regByte rd) (BitVec.ofNat 8 b) (BitVec.ofInt 8 disp)
  | .bltuib rd b disp => instrWord 0x41 (regByte rd) (BitVec.ofNat 8 b) (BitVec.ofInt 8 disp)
  | .bleuib rd b disp => instrWord 0x42 (regByte rd) (BitVec.ofNat 8 b) (BitVec.ofInt 8 disp)
  | .ldb rd rs => instrWord 0x43 (regByte rd) (regByte rs) 0
  | .ldbu rd rs => instrWord 0x44 (regByte rd) (regByte rs) 0
  | .ldh rd rs => instrWord 0x45 (regByte rd) (regByte rs) 0
  | .ldhu rd rs => instrWord 0x46 (regByte rd) (regByte rs) 0
  | .ldw rd rs => instrWord 0x47 (regByte rd) (regByte rs) 0
  | .stb rd rs => instrWord 0x48 (regByte rd) (regByte rs) 0
  | .sth rd rs => instrWord 0x49 (regByte rd) (regByte rs) 0
  | .stw rd rs => instrWord 0x4A (regByte rd) (regByte rs) 0
  | .jpr rd => instrWord 0x4B (regByte rd) 0 0
  | .callr rd => instrWord 0x4C (regByte rd) 0 0
  | .jpl => instrWord 0x4D 0 0 0
  | .calll => instrWord 0x4E 0 0 0
  | .ret => instrWord 0x4F 0 0 0
  | .store first last => instrWord 0x50 (regByte first) (regByte last) 0
  | .restore first last => instrWord 0x51 (regByte first) (regByte last) 0
  | .killtask => instrWord 0x52 0 0 0
  | .sleep => instrWord 0x53 0 0 0
  | .syscpy rd rs rt => instrWord 0x54 (regByte rd) (regByte rs) (regByte rt)
  | .sysset rd rs rt => instrWord 0x55 (regByte rd) (regByte rs) (regByte rt)

/-- The four bytes of a word, lowest address first (R48). -/
def wordBytes (w : Word) : List Byte := [opByte w, byteA w, byteB w, byteC w]

/-- The bytes of an instruction's canonical word. Its info word, where it has one, is written separately. -/
def encodeBytes (i : Instr) : List Byte := wordBytes (encode i)

/-- The info word of an inline literal, for the values that have one: `s(v)` in -2^30 .. 2^30 - 1 (R74). Any other
value needs a pool entry. -/
def inlineInfo (v : Word) : Option Word :=
  if -(2 ^ 30) ≤ v.toInt ∧ v.toInt < 2 ^ 30 then some (v ||| 0x80000000#32) else none

/-- The info word of pool entry `k` (R69, R74). -/
def poolInfo (k : BitVec 31) : Word := k.setWidth 32

/-! ## Read from the host's table numbering -/

/-- The low `nbits` bits of `w` as eight bytes in storage order, zero above: an instruction word and, after it, an
info word of zeros or what the bits above 31 give. -/
def tableBytes (nbits w : Nat) : List Byte :=
  (List.range 8).map (fun k => BitVec.ofNat 8 ((w % 2 ^ nbits) >>> (8 * k)))

/-- The instruction the decoder reads from bits numbered as spec/opcode_table.json numbers them. -/
def decodeTableWord (nbits w : Nat) : Option Instr :=
  match decode (tableBytes nbits w) with
  | .ok (i, _) => some i
  | .error _ => none

end Sys2Proof
end

