-- ==== Sys2Proof/Machine/Loop.lean ====
section
/-!
DEFINITION. The fetch-decode-execute loop around the handlers (spec/40_loop_and_resolver.md R93, R94): whose move it is,
the loop-top check, the fetch and dispatch of one instruction, and what follows a handler.
-/
namespace Sys2Proof.Machine

/-- What a step comes to before any handler runs. -/
inductive Turn where
  /-- no handler runs in this step; this is its outcome -/
  | done (o : Out)
  /-- the instruction's handler runs, entered in this state -/
  | handler (i : Instr) (s : State)

/-- Fetch and dispatch at `A = pc`, in the order of R93 and R277: MisalignedPC before any fetch (R275), BusError on the
fetch (R276), DecodeError with `pc` still `A` (R271), then `pc <- A + 4` before the handler (R16). -/
def fetchDecode (s : State) : Turn :=
  if !alignedTo 4 s.pc then .done (.next (raiseMisalignedPC s.pc s))
  else
    match fetchInsn s s.pc with
    | none => .done (.next (raiseBusError s.pc s.pc s))
    | some w =>
      match decodeWord w with
      | .error _ => .done (.next (raiseDecodeError (opByte w) s.pc s))
      | .ok i => .handler i (s.setPc (s.pc + 4))

/-- The core's move: nothing while Idle (R285); while Running, the loop-top check and then one iteration (R93, R94). -/
def coreTurn (s : State) : Turn :=
  if !s.isRunning then .done (.next s)
  else if leavesLoop s then .done (.next (loopExit s))
  else fetchDecode s

/-- Whose move it is: the host's next move if it has one, else the core's (R5, R95; entry 10). -/
def nextTurn (s : State) : Turn :=
  match s.hostMoves with
  | [] => coreTurn s
  | .pass :: ms => coreTurn { s with hostMoves := ms }
  | m :: ms => .done (hostMove m { s with hostMoves := ms })

/-- After a handler: a completed instruction is counted; one that raised a fatal error has left Running and is not
(R93, R97, R280; entry 15). -/
def retire (o : Out) : Out :=
  match o with
  | .next s => .next (if s.isRunning then { s with instructionRan := s.instructionRan + 1 } else s)
  | .fault f => .fault f
  | .refused r => .refused r

/-- Put an instruction's bytes where the next iteration fetches: at `pc` made a multiple of 4, at an address the ports
serve (entry 16). -/
def placeAtFetch (bytes : List Byte) (s : State) : State :=
  let a := s.pc - BitVec.ofNat 32 (s.pc.toNat % 4)
  { s with pc := a, mem := s.mem.writeBytes a bytes,
           unserved := if servedRange s.unserved a 4 then s.unserved else [] }

/-- Make the core's next move an iteration: no host move before it, and loop entry with the largest budget unless a run
is already under way and would not leave (R26, R91, R93; entry 16). -/
def readyToIterate (s : State) : State :=
  let s := { s with hostMoves := [] }
  if s.isRunning && !leavesLoop s then s else loopEntry 0x7FFFFFFF s

end Sys2Proof.Machine
end

