-- ==== Sys2Proof/Machine/Step.lean ====
section
/-!
DEFINITION. One step: a host move, or the core's move, which is at most one whole loop iteration (spec/00_scope.md R5,
spec/40_loop_and_resolver.md R93).
-/
namespace Sys2Proof.Machine

/-- One step of the machine. -/
def step (s : State) : Host.Outcome State Fault Refusal :=
  match nextTurn s with
  | .done o => o
  | .handler i s' => retire (exec i s')

/-- The state with the given instruction stored where `step` fetches its next one, and the core about to run it
(entry 16). -/
def State.withFetchWord (s : State) (nbits w : Nat) : State :=
  readyToIterate (placeAtFetch (tableBytes nbits w) s)

end Sys2Proof.Machine
end

