-- ==== Sys2Proof/Machine/FixedPoint.lean ====
section
/-!
DEFINITION. The fixed-point conversions of spec/41_arith_logic.md R152: pure helper functions of the surrounding
software, reachable from no opcode. A real number is an exact rational here (entry 17).
-/
namespace Sys2Proof.Machine

/-- A signed value over a scale, exactly. -/
def scaledToRat (scale : Nat) (x : Word) : Rat := (x.toInt : Rat) / (scale : Rat)

/-- `trunc(r * scale)`, rounding toward zero. -/
def truncScaled (scale : Nat) (r : Rat) : Int := (r * scale).num.tdiv (r * scale).den

/-- Whether a number is a signed 32-bit value. -/
def fitsSigned32 (z : Int) : Bool := decide (-2 ^ 31 ≤ z ∧ z < 2 ^ 31)

/-- `FixedToReal(x) = s(x) / 16384` (R152). -/
def fixedToReal (x : Word) : Rat := scaledToRat 16384 x

/-- `RealToFixed(r) = trunc(r * 16384)`; outside the 32-bit range a free value (R152, U9). -/
def realToFixed (r : Rat) : Word :=
  if fitsSigned32 (truncScaled 16384 r) then BitVec.ofInt 32 (truncScaled 16384 r) else Config.fixedOutOfRange r

/-- `Fixed9ToReal(x) = s(x) / 1024` (R152). -/
def fixed9ToReal (x : Word) : Rat := scaledToRat 1024 x

/-- `RealToFixed9(r) = trunc(r * 1024)`; outside the 32-bit range a free value (R152, U9). -/
def realToFixed9 (r : Rat) : Word :=
  if fitsSigned32 (truncScaled 1024 r) then BitVec.ofInt 32 (truncScaled 1024 r) else Config.fixed9OutOfRange r

end Sys2Proof.Machine
end

