-- ==== Sys2Proof/Safety.lean ====
section
/-!
DEFINITION. What counts as a good state and as a good end of a run: the invariant every step keeps, the four ways a run
ends (spec/47_frame_task.md R255), and the terms the statements use.
-/
namespace Sys2Proof.Machine

/-- A fault record is one the core can latch: its kind is not ReentrancyError (R273), and the fields without meaning for
its kind are zero (R270). A pool index has 31 bits (R272); a misaligned `pc` is no multiple of 4 (R275). -/
def FaultRecord.latchable (r : FaultRecord) : Prop :=
  match r.kind with
  | .decodeError => r.index = 0 ∧ r.addr = 0
  | .poolError => r.opcode = 0 ∧ r.addr = 0 ∧ r.index.toNat < 2 ^ 31
  | .reentrancyError => False
  | .divideError => r.opcode = 0 ∧ r.index = 0 ∧ r.addr = 0
  | .misalignedPC => r.opcode = 0 ∧ r.index = 0 ∧ r.addr = 0 ∧ r.pc.toNat % 4 ≠ 0
  | .busError => r.opcode = 0 ∧ r.index = 0

/-- The invariant of the machine. -/
structure Inv (s : State) : Prop where
  /-- the memory is in its canonical form -/
  memory : s.mem.wf
  /-- `0 <= instructionRan <= budget` (R26, R97) -/
  counter : s.instructionRan.toNat ≤ s.budget.toNat
  /-- an event is latched only together with the request to leave (R253, R254, R91) -/
  eventStops : s.event ≠ .none → s.shouldStop = true
  /-- the fault latch is clear while Running: loop entry clears it and the abort leaves Running (R91, R280) -/
  runningClear : s.isRunning = true → s.fault = none
  /-- a latched record is one the core can latch (R270) -/
  latch : ∀ r, s.fault = some r → r.latchable

/-- How a run ended (R255). -/
inductive RunEnd where
  | budgetExhausted | stopped | yielded | terminated | failed (kind : ErrorKind)
deriving DecidableEq, Repr

/-- The end of the last run as the host tells it from the answer and the latches (R255); `none` while a run is under way
and before the first one. -/
def runEnd (s : State) : Option RunEnd :=
  if s.isRunning then none
  else
    match s.answer, s.fault, s.event with
    | none, _, _ => none
    | some _, some r, _ => some (.failed r.kind)
    | some _, none, .yield => some .yielded
    | some _, none, .terminated => some .terminated
    | some _, none, .none => some (if s.shouldStop then .stopped else .budgetExhausted)

/-- The completed program: a run that ended with `event = Terminated` (R255). -/
def completedProgram (s : State) : Prop := runEnd s = some .terminated

/-- A failed run: one that ended with a fatal error (R281). -/
def failedRun (s : State) : Prop := ∃ k, runEnd s = some (.failed k)

/-- The host leaves the core alone: it has no move coming. -/
def hostQuiet (s : State) : Prop := s.hostMoves = []

/-- The core is about to run one iteration: no host move comes first, it is Running, and the loop-top check passes
(R93). -/
def atIteration (s : State) : Prop :=
  s.hostMoves = [] ∧ s.isRunning = true ∧ s.shouldStop = false ∧ s.instructionRan.toNat < s.budget.toNat

/-- `k` steps of the machine, stopping early at a refusal. -/
def runSteps (k : Nat) (s : State) : Out := Host.Core.run Sys2Proof.core k s

/-! ## The bits of an instruction word, as spec/30_encoding.md R62 numbers them -/

/-- `d`, bits 12..8 -/
def fieldD (w : Word) : Reg := (w.extractLsb' 8 5).toFin

/-- `s`, bits 20..16 -/
def fieldS (w : Word) : Reg := (w.extractLsb' 16 5).toFin

/-- `t`, bits 28..24 -/
def fieldT (w : Word) : Reg := (w.extractLsb' 24 5).toFin

/-- `sh`, bits 28..24 -/
def fieldSh (w : Word) : Nat := (w.extractLsb' 24 5).toNat

/-- byte `b`, bits 23..16 -/
def fieldB (w : Word) : Byte := w.extractLsb' 16 8

/-- byte `c`, bits 31..24 -/
def fieldC (w : Word) : Byte := w.extractLsb' 24 8

/-- `imm16`, bits 31..16 -/
def fieldImm16 (w : Word) : BitVec 16 := w.extractLsb' 16 16

/-- Opcode `op` has the given shape and info column, and every word with it in bits 7..0 is the instruction `f` makes of
the word's fields (R61, R70, R71). -/
def isEncoded (op : Byte) (shape : Shape) (info : Bool) (f : Word → Instr) : Prop :=
  (slot op).map (fun r => (r.shape, r.info)) = some (shape, info) ∧
    ∀ w : Word, w.extractLsb' 0 8 = op → decodeWord w = .ok (f w)

/-- The bits of a word that its slot reads: the others are ignored (R63 to R68). -/
def usedBits (op : Byte) : Word :=
  match op.toNat with
  | 0x09 | 0x0A | 0x29 | 0x2A | 0x2B | 0x2C | 0x2D => 0x001F1FFF  -- TS, byte `c` ignored
  | 0x2E | 0x4B | 0x4C => 0x00001FFF                               -- DO, `imm16` ignored
  | 0x4D | 0x4E | 0x4F | 0x52 | 0x53 => 0x000000FF                 -- neither `d` nor `s`
  | 0x50 | 0x51 => 0x001F1FFF                                      -- RR
  | n =>
    if 0x0B ≤ n ∧ n ≤ 0x12 ∨ 0x43 ≤ n ∧ n ≤ 0x4A then 0x001F1FFF  -- WI
    else if 0x2F ≤ n ∧ n ≤ 0x42 then 0xFFFF1FFF                    -- BccI and BccIB
    else 0x1F1F1FFF                                                -- TS register form or shift count

/-- What an instruction with an info word answers when the info word fails (R100, R229, R279): BusError at the info
word's address, `pc` past the instruction word only; PoolError with the index, `pc` past the info word. -/
def raisesForInfoWord (i : Instr) (s : State) : Prop :=
  (fetchData s s.pc = none → exec i s = .next (raise ⟨.busError, 0, s.pc - 4, 0, s.pc⟩ s)) ∧
  (∀ info, fetchData s s.pc = some info → resolve s.pool info = none →
    exec i s = .next (raise ⟨.poolError, 0, s.pc - 4, info, 0⟩ { s with pc := s.pc + 4 }))

/-! ## What an instruction may change -/

/-- The registers an instruction may write: its destination, the link of a call, `sp` of STORE and RESTORE, and the
range RESTORE loads. -/
def writtenRegs : Instr → List Reg
  | .store _ _ => [Config.sp]
  | .restore first last => Config.sp :: (List.finRange 32).filter (fun r => decide (first ≤ r ∧ r ≤ last))
  | .callr _ | .calll => [Config.ra]
  | .beqi _ _ | .bnei _ _ | .bgti _ _ | .bgei _ _ | .blti _ _
  | .blei _ _ | .bgtui _ _ | .bgeui _ _ | .bltui _ _ | .bleui _ _
  | .beqib _ _ _ | .bneib _ _ _ | .bgtib _ _ _ | .bgeib _ _ _ | .bltib _ _ _
  | .bleib _ _ _ | .bgtuib _ _ _ | .bgeuib _ _ _ | .bltuib _ _ _ | .bleuib _ _ _
  | .stb _ _ | .sth _ _ | .stw _ _ | .jpr _ | .jpl
  | .ret | .killtask | .sleep | .syscpy _ _ _ | .sysset _ _ _ => []
  | .add rd _ _ | .sub rd _ _ | .mul rd _ _ | .div rd _ _ | .divu rd _ _
  | .and rd _ _ | .or rd _ _ | .xor rd _ _ | .neg rd _ | .not rd _
  | .addi rd _ | .subi rd _ | .muli rd _ | .divi rd _ | .divui rd _
  | .andi rd _ | .ori rd _ | .xori rd _ | .addb rd _ _ | .subb rd _ _
  | .andb rd _ _ | .orb rd _ _ | .xorb rd _ _ | .addh rd _ _ | .subh rd _ _
  | .andh rd _ _ | .orh rd _ _ | .xorh rd _ _ | .sll rd _ _ | .srl rd _ _
  | .sra rd _ _ | .slli rd _ _ | .srli rd _ _ | .srai rd _ _ | .sllb rd _ _
  | .srlb rd _ _ | .srab rd _ _ | .sllh rd _ _ | .srlh rd _ _ | .srah rd _ _
  | .exsb rd _ | .exsh rd _ | .mov rd _ | .movb rd _ | .movh rd _
  | .ldi rd | .ldb rd _ | .ldbu rd _ | .ldh rd _ | .ldhu rd _
  | .ldw rd _ => [rd]

/-- The instructions that store to memory: STB STH STW STORE SYSCPY SYSSET (R41). -/
def storesToMemory : Instr → Bool
  | .stb _ _ | .sth _ _ | .stw _ _ | .store _ _ | .syscpy _ _ _ | .sysset _ _ _ => true
  | .add _ _ _ | .sub _ _ _ | .mul _ _ _ | .div _ _ _ | .divu _ _ _
  | .and _ _ _ | .or _ _ _ | .xor _ _ _ | .neg _ _ | .not _ _
  | .addi _ _ | .subi _ _ | .muli _ _ | .divi _ _ | .divui _ _
  | .andi _ _ | .ori _ _ | .xori _ _ | .addb _ _ _ | .subb _ _ _
  | .andb _ _ _ | .orb _ _ _ | .xorb _ _ _ | .addh _ _ _ | .subh _ _ _
  | .andh _ _ _ | .orh _ _ _ | .xorh _ _ _ | .sll _ _ _ | .srl _ _ _
  | .sra _ _ _ | .slli _ _ _ | .srli _ _ _ | .srai _ _ _ | .sllb _ _ _
  | .srlb _ _ _ | .srab _ _ _ | .sllh _ _ _ | .srlh _ _ _ | .srah _ _ _
  | .exsb _ _ | .exsh _ _ | .mov _ _ | .movb _ _ | .movh _ _
  | .ldi _ | .beqi _ _ | .bnei _ _ | .bgti _ _ | .bgei _ _
  | .blti _ _ | .blei _ _ | .bgtui _ _ | .bgeui _ _ | .bltui _ _
  | .bleui _ _ | .beqib _ _ _ | .bneib _ _ _ | .bgtib _ _ _ | .bgeib _ _ _
  | .bltib _ _ _ | .bleib _ _ _ | .bgtuib _ _ _ | .bgeuib _ _ _ | .bltuib _ _ _
  | .bleuib _ _ _ | .ldb _ _ | .ldbu _ _ | .ldh _ _ | .ldhu _ _
  | .ldw _ _ | .jpr _ | .callr _ | .jpl | .calll
  | .ret | .restore _ _ | .killtask | .sleep => false

/-- The instructions that may transfer control: branches, jumps, calls, return. -/
def transfersControl : Instr → Bool
  | .beqi _ _ | .bnei _ _ | .bgti _ _ | .bgei _ _ | .blti _ _
  | .blei _ _ | .bgtui _ _ | .bgeui _ _ | .bltui _ _ | .bleui _ _
  | .beqib _ _ _ | .bneib _ _ _ | .bgtib _ _ _ | .bgeib _ _ _ | .bltib _ _ _
  | .bleib _ _ _ | .bgtuib _ _ _ | .bgeuib _ _ _ | .bltuib _ _ _ | .bleuib _ _ _
  | .jpr _ | .callr _ | .jpl | .calll | .ret => true
  | .add _ _ _ | .sub _ _ _ | .mul _ _ _ | .div _ _ _ | .divu _ _ _
  | .and _ _ _ | .or _ _ _ | .xor _ _ _ | .neg _ _ | .not _ _
  | .addi _ _ | .subi _ _ | .muli _ _ | .divi _ _ | .divui _ _
  | .andi _ _ | .ori _ _ | .xori _ _ | .addb _ _ _ | .subb _ _ _
  | .andb _ _ _ | .orb _ _ _ | .xorb _ _ _ | .addh _ _ _ | .subh _ _ _
  | .andh _ _ _ | .orh _ _ _ | .xorh _ _ _ | .sll _ _ _ | .srl _ _ _
  | .sra _ _ _ | .slli _ _ _ | .srli _ _ _ | .srai _ _ _ | .sllb _ _ _
  | .srlb _ _ _ | .srab _ _ _ | .sllh _ _ _ | .srlh _ _ _ | .srah _ _ _
  | .exsb _ _ | .exsh _ _ | .mov _ _ | .movb _ _ | .movh _ _
  | .ldi _ | .ldb _ _ | .ldbu _ _ | .ldh _ _ | .ldhu _ _
  | .ldw _ _ | .stb _ _ | .sth _ _ | .stw _ _ | .store _ _
  | .restore _ _ | .killtask | .sleep | .syscpy _ _ _ | .sysset _ _ _ => false

end Sys2Proof.Machine
end

