-- ==== Sys2Proof/Certificates/Slice0/Obligations.lean ====
section
/-!
DEFINITION. The statements for the provers. A handler's entry state `s` has `pc = A + 4` (R16), so `s.pc - 4` is `A`, the
address of the instruction. A record is written kind, opcode, pc, index, addr.
-/

open Sys2Proof Sys2Proof.Machine

/-! ## Encoding -/

/-- R71, R72: the opcode alone decides whether a word is refused and which shape it has. Opcodes 0x00 and 0x56 to 0xFF
are unassigned, no other bit pattern is refused, and 49 opcodes are TS, 18 WI, 13 DO, 2 RR and 3 UD (V1.1). -/
def Obligations.OpcodeAloneDecidesRefusalAndShape : Prop :=
  (∀ w : Word,
    ((w.extractLsb' 0 8).toNat = 0 ∨ 0x56 ≤ (w.extractLsb' 0 8).toNat →
      decodeWord w = .error (.unassigned (w.extractLsb' 0 8)) ∧ shapeOf (w.extractLsb' 0 8) = none) ∧
    (1 ≤ (w.extractLsb' 0 8).toNat ∧ (w.extractLsb' 0 8).toNat ≤ 0x55 →
      ∃ i, decodeWord w = .ok i ∧ shapeOf (w.extractLsb' 0 8) = some i.shape)) ∧
  ([Shape.ts, .wi, .dest, .rr, .ud].map fun sh =>
    ((List.range 256).filter fun op => shapeOf (BitVec.ofNat 8 op) == some sh).length) = [49, 18, 13, 2, 3]

/-- R76: encoding an instruction into the canonical word and decoding it returns the same operands, as a word and as
bytes in memory order. Decoding is not injective on words. -/
def Obligations.DecodeOfEncodeIsTheInstruction : Prop :=
  (∀ i : Instr, WellFormed i = true →
    decodeWord (encode i) = .ok i ∧ ∀ rest : List Byte, decode (encodeBytes i ++ rest) = .ok (i, rest)) ∧
  ∃ (i : Instr) (v w : Word), v ≠ w ∧ decodeWord v = .ok i ∧ decodeWord w = .ok i

/-- What a word decodes to is well formed, and its canonical word decodes to the same: decoding loses only ignored
bits (R68, R76). -/
def Obligations.DecodedWordsAreWellFormedAndCanonical : Prop :=
  ∀ (w : Word) (i : Instr), decodeWord w = .ok i →
    WellFormed i = true ∧ opByte (encode i) = opByte w ∧ decodeWord (encode i) = .ok i

/-- R68: the bits a slot does not use have no effect on what is decoded. -/
def Obligations.IgnoredBitsHaveNoEffect : Prop :=
  ∀ w : Word, decodeWord (w &&& usedBits (w.extractLsb' 0 8)) = decodeWord w

/-- One word of each shape, written out from R62 to R67 and spec/95_test_vectors.md V1.2. -/
def Obligations.SampleWordsDecode : Prop :=
  decodeWord 0x05040301 = .ok (.add 3 4 5) ∧ decodeWord 0x1F040320 = .ok (.slli 3 4 31) ∧
  decodeWord 0xFD050339 = .ok (.beqib 3 5 (-3)) ∧ decodeWord 0x8000032F = .ok (.beqi 3 (-32768)) ∧
  decodeWord 0x00040347 = .ok (.ldw 3 4) ∧ decodeWord 0x00060450 = .ok (.store 4 6) ∧
  decodeWord 0x0000004F = .ok .ret ∧ decodeWord 0xE5442301 = .ok (.add 3 4 5)

/-! ## The loop -/

/-- R93: one iteration fetches the word at `pc`, decodes it, advances `pc` by 4 before the handler, runs the handler,
and counts it only when the handler completed. -/
def Obligations.StepRunsTheDecodedInstruction : Prop :=
  ∀ (s t : State) (w : Word) (i : Instr), atIteration s → s.pc.toNat % 4 = 0 → fetchInsn s s.pc = some w →
    decodeWord w = .ok i → exec i { s with pc := s.pc + 4 } = .next t →
    step s = .next (if t.isRunning then { t with instructionRan := t.instructionRan + 1 } else t)

/-- R275, R276, R271, R277: in this order, a misaligned `pc`, a refused fetch and an unassigned opcode end the run at
once, with `pc` where it was and nothing counted. -/
def Obligations.LoopRaisesInOrder : Prop :=
  ∀ s : State, atIteration s →
    (s.pc.toNat % 4 ≠ 0 → step s = .next (raise ⟨.misalignedPC, 0, s.pc, 0, 0⟩ s)) ∧
    (s.pc.toNat % 4 = 0 → fetchInsn s s.pc = none → step s = .next (raise ⟨.busError, 0, s.pc, 0, s.pc⟩ s)) ∧
    (s.pc.toNat % 4 = 0 → ∀ w, fetchInsn s s.pc = some w →
      (w.extractLsb' 0 8).toNat = 0 ∨ 0x56 ≤ (w.extractLsb' 0 8).toNat →
      step s = .next (raise ⟨.decodeError, w.extractLsb' 0 8, s.pc, 0, 0⟩ s))

/-- R94: the loop exits at the loop-top check when stopped or when the budget is exhausted, and changes nothing else; the
`Run` answers Ok, in the model's field `answer` (entry 11). An Idle core does nothing until the next `Run` (R285). -/
def Obligations.LoopExitsAtTheLoopTop : Prop :=
  ∀ s : State, hostQuiet s →
    (s.isRunning = true → (s.shouldStop = true ∨ s.budget.toNat ≤ s.instructionRan.toNat) →
      step s = .next { s with isRunning := false, answer := some .ok }) ∧
    (s.isRunning = false → step s = .next s)

/-- R91, R92, R95: an accepted `Run` is loop entry, a `Run` while Running is rejected and touches no processor state,
and `Stop()` sets the flag in either state. That these are `hostMoves` and that the answer is a field is the model's
(entries 10, 11). -/
def Obligations.HostRunAndStop : Prop :=
  ∀ (s : State) (ms : List HostMove) (b : BitVec 31),
    (s.hostMoves = .run b :: ms → s.isRunning = false →
      step s = .next { s with isRunning := true, shouldStop := false, instructionRan := 0, budget := b,
                              event := .none, fault := none, answer := none, hostMoves := ms }) ∧
    (s.hostMoves = .run b :: ms → s.isRunning = true →
      step s = .next { s with answer := some (.error .reentrancyError), hostMoves := ms }) ∧
    (s.hostMoves = .stop :: ms → step s = .next { s with shouldStop := true, hostMoves := ms })

/-- While Idle the host writes any register and `pc` (R23), memory (R54) and the pool (R301); while Running such a move is
refused, which is the model's reading of R23, R307, U10 and, for the pool and memory, U12 (entries 10, 12). -/
def Obligations.HostWritesOnlyWhileIdle : Prop :=
  ∀ (s : State) (ms : List HostMove) (r : Reg) (v : Word) (a : Word) (b : Byte) (p : Pool),
    (s.isRunning = false →
      (s.hostMoves = .writeReg r v :: ms → step s = .next { s with regs := s.regs.set r v, hostMoves := ms }) ∧
      (s.hostMoves = .writePc v :: ms → step s = .next { s with pc := v, hostMoves := ms }) ∧
      (s.hostMoves = .loadPool p :: ms → step s = .next { s with pool := p, hostMoves := ms }) ∧
      (s.hostMoves = .writeByte a b :: ms → ∃ m : Memory, step s = .next { s with mem := m, hostMoves := ms } ∧
        ∀ x : Word, m.read x.toNat = if x = a then b else s.mem.read x.toNat)) ∧
    (s.isRunning = true → ∀ m ∈ [HostMove.writeReg r v, .writePc v, .loadPool p, .writeByte a b],
      s.hostMoves = m :: ms → step s = .refused .hostAccessWhileRunning)

/-- R97, R280: the counter grows by one in an iteration whose instruction completed, and not in one that raised. -/
def Obligations.CounterCountsCompletedInstructions : Prop :=
  ∀ s t : State, atIteration s → step s = .next t →
    (t.isRunning = true → t.instructionRan = s.instructionRan + 1) ∧
    (t.isRunning = false → t.instructionRan = s.instructionRan ∧ ∃ r, t.fault = some r ∧ r.pc = s.pc)

/-- R90: `Run(b)` executes at most `b` instructions and then returns: with the host quiet the core is Idle again after at
most `b + 1` iterations, having counted at most `b`, and `runEnd` tells how it ended, from the model's field `answer` among
others (entry 11). -/
def Obligations.EveryRunReturnsWithinItsBudget : Prop :=
  ∀ (s : State) (b : BitVec 31), hostQuiet s →
    ∃ t, runSteps (b.toNat + 1) (loopEntry b s) = .next t ∧ t.isRunning = false ∧
      t.instructionRan.toNat ≤ b.toNat ∧ (runEnd t).isSome = true

/-- R106: `Run(b1)` that exhausts its budget, followed by `Run(b2)`, leaves registers, `pc`, memory and everything else
as `Run(b1 + b2)` does; only the counter and the budget differ. That the first run exhausted its budget is read by `runEnd`
from the latches, the stop flag and the model's field `answer` (entry 11). -/
def Obligations.SplitRunsLeaveTheSameTask : Prop :=
  ∀ (s t1 t2 t : State) (b1 b2 b : BitVec 31), hostQuiet s → b.toNat = b1.toNat + b2.toNat →
    runSteps (b1.toNat + 1) (loopEntry b1 s) = .next t1 → runEnd t1 = some .budgetExhausted →
    runSteps (b2.toNat + 1) (loopEntry b2 t1) = .next t2 →
    runSteps (b.toNat + 1) (loopEntry b s) = .next t →
    t2 = { t with instructionRan := t2.instructionRan, budget := t2.budget }

/-! ## Invariants and reset -/

/-- Every step keeps the invariant: canonical memory, counter within the budget, an event only with a stop request, a
clear latch while Running, only records the core can latch. -/
def Obligations.EveryStepKeepsTheInvariant : Prop :=
  ∀ s t : State, Inv s → step s = .next t → Inv t

/-- The invariant holds at reset. -/
def Obligations.ResetHasTheInvariant : Prop := Inv State.reset

/-- R29: after construction, whatever the launch parameters, the core is Idle with both flags 0, the counter 0 and both
latches None; registers, `pc`, pool, MEM_MAP and memory are the launch parameters. -/
def Obligations.ConstructionLeavesIdleAndClear : Prop :=
  ∀ (g : Vector Word 32) (a : Word) (p : Pool) (u : List AddrRange) (m : Memory),
    let s := State.construct g a p u m
    s.isRunning = false ∧ s.shouldStop = false ∧ s.instructionRan = 0 ∧ s.event = .none ∧ s.fault = none ∧
      s.regs = g ∧ s.pc = a ∧ s.pool = p ∧ s.unserved = u ∧ s.mem = m

/-! ## Every instruction -/

/-- No instruction stops the machine: every meaning answers a next state, and a step is refused only where the host
accesses the state while Running. -/
def Obligations.NoInstructionStops : Prop :=
  (∀ (i : Instr) (s : State), ∃ t, exec i s = .next t) ∧
  (∀ s : State, (∃ t, step s = .next t) ∨ (step s = .refused .hostAccessWhileRunning ∧ s.isRunning = true))

/-- What no program can touch (R282): the pool, MEM_MAP, the budget, the counter and the host's moves. While it completes,
an instruction leaves the fault latch, the answer and `isRunning` alone. Only SLEEP and KILLTASK write the event latch
and the stop request (R19, R25). -/
def Obligations.NoInstructionTouchesTheRunState : Prop :=
  ∀ (i : Instr) (s t : State), exec i s = .next t →
    t.pool = s.pool ∧ t.unserved = s.unserved ∧ t.budget = s.budget ∧ t.instructionRan = s.instructionRan ∧
      t.hostMoves = s.hostMoves ∧
      (t.isRunning = true → t.fault = s.fault ∧ t.answer = s.answer ∧ s.isRunning = true) ∧
      (i ≠ .sleep → i ≠ .killtask → t.event = s.event ∧ t.shouldStop = s.shouldStop)

/-- FRAME, registers: an instruction changes no register but its destination, the link of a call, `sp` of STORE and
RESTORE, and the range RESTORE loads. -/
def Obligations.OnlyDestinationRegistersChange : Prop :=
  ∀ (i : Instr) (s t : State) (r : Reg), exec i s = .next t → r ∉ writtenRegs i → t.reg r = s.reg r

/-- FRAME, memory: an instruction other than STB, STH, STW, STORE, SYSCPY and SYSSET changes no byte and draws no free
value. -/
def Obligations.OnlyStoringInstructionsChangeMemory : Prop :=
  ∀ (i : Instr) (s t : State), exec i s = .next t → storesToMemory i = false →
    (∀ a : Word, t.mem.read a.toNat = s.mem.read a.toNat) ∧ t.mem = s.mem ∧ t.freeIndex = s.freeIndex

/-- The net advance of `pc` of an instruction that completes and is no control transfer is 8 with an info word and 4
without (R105): 4 of them before the handler. -/
def Obligations.OtherInstructionsAdvancePc : Prop :=
  ∀ (i : Instr) (s t : State), exec i s = .next t → t.isRunning = true → transfersControl i = false →
    t.pc = if i.hasInfo then s.pc + 4 else s.pc

/-- R18: relative branches and jumps cannot break the alignment of `pc`; only JPr, CALLr and RET can, by a misaligned
register. Aborts keep it too. -/
def Obligations.OnlyRegisterJumpsCanMisalignPc : Prop :=
  ∀ (i : Instr) (s t : State), s.pc.toNat % 4 = 0 → exec i s = .next t →
    (∀ rd, i ≠ .jpr rd ∧ i ≠ .callr rd) → i ≠ .ret → t.pc.toNat % 4 = 0

/-- R279, R280: an instruction that raises leaves `pc` at `A + 4` or, with its info word consumed, at `A + 8`, latches a
record with `pc = A`, and leaves the counter, the budget, the event and the stop request as they were. -/
def Obligations.RaisingInstructionsArePrecise : Prop :=
  ∀ (i : Instr) (s t : State), s.isRunning = true → exec i s = .next t → t.isRunning = false →
    ∃ r, t.fault = some r ∧ r.pc = s.pc - 4 ∧ r.latchable ∧ t.answer = some (.error r.kind) ∧
      (r.kind = .poolError ∨ r.kind = .divideError ∨ r.kind = .busError) ∧
      (t.pc = s.pc ∨ (i.hasInfo = true ∧ t.pc = s.pc + 4)) ∧
      t.instructionRan = s.instructionRan ∧ t.budget = s.budget ∧ t.event = s.event ∧
      t.shouldStop = s.shouldStop

/-! ## The resolver -/

/-- R101: an info word with bit 31 set is the 31-bit two's-complement literal in its bits 30..0. -/
def Obligations.InlineLiteralIsThe31BitNumber : Prop :=
  ∀ (p : Pool) (info : Word), info.getLsbD 31 = true →
    ∃ v, resolve p info = some v ∧ v.toInt = (info.extractLsb' 0 31).toInt ∧
      v = (if info.getLsbD 30 then info ||| 0x80000000 else info &&& 0x7FFFFFFF)

/-- R102: with bit 31 clear the info word is a pool index; its integer entry is the value, and a non-integer entry or no
entry is none. -/
def Obligations.PoolIndexResolvesToItsInteger : Prop :=
  ∀ (p : Pool) (info : Word), info.getLsbD 31 = false →
    (∀ v, p.lookup (info.extractLsb' 0 31) = some (.int v) → resolve p info = some v) ∧
    (p.lookup (info.extractLsb' 0 31) = some .nonInt → resolve p info = none) ∧
    (p.lookup (info.extractLsb' 0 31) = none → resolve p info = none)

/-- R100: `FetchImmediate()` reads the info word at `pc` and advances `pc` by 4 whichever branch is taken; a refused fetch
raises BusError with `pc` not advanced, no integer raises PoolError with `pc` advanced. -/
def Obligations.FetchImmediateAdvancesPcOnEveryBranch : Prop :=
  ∀ s : State,
    (fetchData s s.pc = none →
      fetchImmediate s = .error (raise ⟨.busError, 0, s.pc - 4, 0, s.pc⟩ s)) ∧
    (∀ info, fetchData s s.pc = some info →
      (∀ v, resolve s.pool info = some v → fetchImmediate s = .ok (v, { s with pc := s.pc + 4 })) ∧
      (resolve s.pool info = none →
        fetchImmediate s = .error (raise ⟨.poolError, 0, s.pc - 4, info, 0⟩ { s with pc := s.pc + 4 })))

/-- R105, R277, R279: every instruction with an info word fetches it before anything else, so a failing fetch raises with
nothing else changed. Instructions without one do not depend on the pool. For JPl and CALLl this reads the closing words of
R243 as speaking of PoolError (entry 22). -/
def Obligations.InfoWordIsFetchedFirst : Prop :=
  ∀ (i : Instr) (s : State),
    (i.hasInfo = true → raisesForInfoWord i s) ∧
    (i.hasInfo = false → ∀ (p : Pool) (t : State), exec i s = .next t →
      exec i { s with pool := p } = .next { t with pool := p })

/-! ## Arithmetic and logic -/

/-- R121 to R123, R126 to R128: ADD SUB MUL AND OR XOR. -/
def Obligations.RegisterArithmeticResults : Prop :=
  ∀ r ∈ ([(0x01, .add, fun x y => x + y), (0x02, .sub, fun x y => x - y), (0x03, .mul, fun x y => x * y),
      (0x06, .and, fun x y => x &&& y), (0x07, .or, fun x y => x ||| y), (0x08, .xor, fun x y => x ^^^ y)] :
      List (Byte × (Reg → Reg → Reg → Instr) × (Word → Word → Word))),
    isEncoded r.1 .ts false (fun w => r.2.1 (fieldD w) (fieldS w) (fieldT w)) ∧
    ∀ (s : State) (rd rs rt : Reg),
      exec (r.2.1 rd rs rt) s = .next { s with regs := s.regs.set rd (r.2.2 (s.reg rs) (s.reg rt)) }

/-- R129, R130, R181 to R185: NEG NOT EXSB EXSH MOV MOVB MOVH. -/
def Obligations.TwoRegisterResults : Prop :=
  ∀ r ∈ ([(0x09, .neg, fun x => 0 - x), (0x0A, .not, fun x => ~~~x),
      (0x29, .exsb, fun x => (x.extractLsb' 0 8).signExtend 32),
      (0x2A, .exsh, fun x => (x.extractLsb' 0 16).signExtend 32), (0x2B, .mov, fun x => x),
      (0x2C, .movb, fun x => x &&& 0x000000FF), (0x2D, .movh, fun x => x &&& 0x0000FFFF)] :
      List (Byte × (Reg → Reg → Instr) × (Word → Word))),
    isEncoded r.1 .ts false (fun w => r.2.1 (fieldD w) (fieldS w)) ∧
    ∀ (s : State) (rd rs : Reg),
      exec (r.2.1 rd rs) s = .next { s with regs := s.regs.set rd (r.2.2 (s.reg rs)) }

/-- R124, R125, R274: DIV and DIVU complete for every divisor but 0, which raises DivideError and writes no register. -/
def Obligations.DivisionResults : Prop :=
  ∀ r ∈ ([(0x04, .div, fun x y => BitVec.ofInt 32 (x.toInt.tdiv y.toInt)),
      (0x05, .divu, fun x y => BitVec.ofNat 32 (x.toNat / y.toNat))] :
      List (Byte × (Reg → Reg → Reg → Instr) × (Word → Word → Word))),
    isEncoded r.1 .ts false (fun w => r.2.1 (fieldD w) (fieldS w) (fieldT w)) ∧
    ∀ (s : State) (rd rs rt : Reg),
      (s.reg rt ≠ 0 →
        exec (r.2.1 rd rs rt) s = .next { s with regs := s.regs.set rd (r.2.2 (s.reg rs) (s.reg rt)) }) ∧
      (s.reg rt = 0 → exec (r.2.1 rd rs rt) s = .next (raise ⟨.divideError, 0, s.pc - 4, 0, 0⟩ s))

/-- R150: the signed quotient is the one whose remainder is smaller than the divisor and takes the dividend's sign;
-2^31 / -1 wraps to 0x80000000; the unsigned quotient is the floor. -/
def Obligations.DivisionLaws : Prop :=
  ∀ (s : State) (rd rs rt : Reg), s.reg rt ≠ 0 →
    (∃ t, exec (.div rd rs rt) s = .next t ∧
      (s.reg rs = 0x80000000 ∧ s.reg rt = 0xFFFFFFFF → t.reg rd = 0x80000000) ∧
      (¬(s.reg rs = 0x80000000 ∧ s.reg rt = 0xFFFFFFFF) →
        ∃ rem : Int, (s.reg rs).toInt = (t.reg rd).toInt * (s.reg rt).toInt + rem ∧
          rem.natAbs < (s.reg rt).toInt.natAbs ∧ (0 ≤ (s.reg rs).toInt → 0 ≤ rem) ∧
          ((s.reg rs).toInt ≤ 0 → rem ≤ 0))) ∧
    (∃ t, exec (.divu rd rs rt) s = .next t ∧
      ∃ rem : Nat, (s.reg rs).toNat = (t.reg rd).toNat * (s.reg rt).toNat + rem ∧ rem < (s.reg rt).toNat)

/-- R131 to R133, R136 to R138: ADDi SUBi MULi ANDi ORi XORi with the resolved immediate as right operand. -/
def Obligations.ImmediateArithmeticResults : Prop :=
  ∀ r ∈ ([(0x0B, .addi, fun x y => x + y), (0x0C, .subi, fun x y => x - y), (0x0D, .muli, fun x y => x * y),
      (0x10, .andi, fun x y => x &&& y), (0x11, .ori, fun x y => x ||| y), (0x12, .xori, fun x y => x ^^^ y)] :
      List (Byte × (Reg → Reg → Instr) × (Word → Word → Word))),
    isEncoded r.1 .wi true (fun w => r.2.1 (fieldD w) (fieldS w)) ∧
    (∀ (s : State) (rd rs : Reg), raisesForInfoWord (r.2.1 rd rs) s) ∧
    ∀ (s : State) (info imm : Word) (rd rs : Reg), fetchData s s.pc = some info → resolve s.pool info = some imm →
      exec (r.2.1 rd rs) s =
        .next { s with pc := s.pc + 4, regs := s.regs.set rd (r.2.2 (s.reg rs) imm) }

/-- R134, R135: DIVi and DIVUi; a zero immediate raises DivideError after the info word was consumed. -/
def Obligations.ImmediateDivisionResults : Prop :=
  ∀ r ∈ ([(0x0E, .divi, fun x y => BitVec.ofInt 32 (x.toInt.tdiv y.toInt)),
      (0x0F, .divui, fun x y => BitVec.ofNat 32 (x.toNat / y.toNat))] :
      List (Byte × (Reg → Reg → Instr) × (Word → Word → Word))),
    isEncoded r.1 .wi true (fun w => r.2.1 (fieldD w) (fieldS w)) ∧
    (∀ (s : State) (rd rs : Reg), raisesForInfoWord (r.2.1 rd rs) s) ∧
    ∀ (s : State) (info imm : Word) (rd rs : Reg), fetchData s s.pc = some info → resolve s.pool info = some imm →
      (imm ≠ 0 → exec (r.2.1 rd rs) s =
        .next { s with pc := s.pc + 4, regs := s.regs.set rd (r.2.2 (s.reg rs) imm) }) ∧
      (imm = 0 → exec (r.2.1 rd rs) s =
        .next (raise ⟨.divideError, 0, s.pc - 4, 0, 0⟩ { s with pc := s.pc + 4 }))

/-- R139 to R148: ADDB .. XORB and ADDH .. XORH write the low 8 or 16 bits of the full-width result, zeros above. -/
def Obligations.NarrowArithmeticResults : Prop :=
  ∀ r ∈ ([(0x13, .addb, fun x y => (x + y) &&& 0xFF), (0x14, .subb, fun x y => (x - y) &&& 0xFF),
      (0x15, .andb, fun x y => (x &&& y) &&& 0xFF), (0x16, .orb, fun x y => (x ||| y) &&& 0xFF),
      (0x17, .xorb, fun x y => (x ^^^ y) &&& 0xFF),
      (0x18, .addh, fun x y => (x + y) &&& 0xFFFF), (0x19, .subh, fun x y => (x - y) &&& 0xFFFF),
      (0x1A, .andh, fun x y => (x &&& y) &&& 0xFFFF), (0x1B, .orh, fun x y => (x ||| y) &&& 0xFFFF),
      (0x1C, .xorh, fun x y => (x ^^^ y) &&& 0xFFFF)] :
      List (Byte × (Reg → Reg → Reg → Instr) × (Word → Word → Word))),
    isEncoded r.1 .ts false (fun w => r.2.1 (fieldD w) (fieldS w) (fieldT w)) ∧
    ∀ (s : State) (rd rs rt : Reg),
      exec (r.2.1 rd rs rt) s = .next { s with regs := s.regs.set rd (r.2.2 (s.reg rs) (s.reg rt)) }

/-- R151: a byte or half form is the same as operating on the low bits alone, and what it writes fits them. -/
def Obligations.NarrowFormsSeeOnlyTheLowBits : Prop :=
  ∀ r ∈ ([(8, .addb), (8, .subb), (8, .andb), (8, .orb), (8, .xorb), (16, .addh), (16, .subh), (16, .andh),
      (16, .orh), (16, .xorh)] : List (Nat × (Reg → Reg → Reg → Instr))),
    ∀ (s1 s2 t1 t2 : State) (rd rs rt : Reg),
      (s1.reg rs).toNat % 2 ^ r.1 = (s2.reg rs).toNat % 2 ^ r.1 →
      (s1.reg rt).toNat % 2 ^ r.1 = (s2.reg rt).toNat % 2 ^ r.1 →
      exec (r.2 rd rs rt) s1 = .next t1 → exec (r.2 rd rs rt) s2 = .next t2 →
      t1.reg rd = t2.reg rd ∧ (t1.reg rd).toNat < 2 ^ r.1

/-! ## Shifts -/

/-- R161 to R166: full-width shifts; a register count is the low 5 bits of the count register. -/
def Obligations.FullWidthShiftResults : Prop :=
  (∀ r ∈ ([(0x1D, .sll, fun x n => x <<< n), (0x1E, .srl, fun x n => x >>> n),
      (0x1F, .sra, fun x n => x.sshiftRight n)] :
      List (Byte × (Reg → Reg → Reg → Instr) × (Word → Nat → Word))),
    isEncoded r.1 .ts false (fun w => r.2.1 (fieldD w) (fieldS w) (fieldT w)) ∧
    ∀ (s : State) (rd rs rt : Reg),
      exec (r.2.1 rd rs rt) s =
        .next { s with regs := s.regs.set rd (r.2.2 (s.reg rs) ((s.reg rt).extractLsb' 0 5).toNat) }) ∧
  (∀ r ∈ ([(0x20, .slli, fun x n => x <<< n), (0x21, .srli, fun x n => x >>> n),
      (0x22, .srai, fun x n => x.sshiftRight n)] :
      List (Byte × (Reg → Reg → Nat → Instr) × (Word → Nat → Word))),
    isEncoded r.1 .ts false (fun w => r.2.1 (fieldD w) (fieldS w) (fieldSh w)) ∧
    ∀ (s : State) (rd rs : Reg) (sh : Nat),
      exec (r.2.1 rd rs sh) s = .next { s with regs := s.regs.set rd (r.2.2 (s.reg rs) sh) })

/-- Shifts as arithmetic: left is a product modulo 2^32, logical right a quotient, arithmetic right the floor of the
signed quotient (R161 to R163 corner cases), for the count in the low 5 bits. -/
def Obligations.ShiftsAreScalings : Prop :=
  ∀ (s : State) (rd rs rt : Reg),
    (∃ t, exec (.sll rd rs rt) s = .next t ∧
      (t.reg rd).toNat = (s.reg rs).toNat * 2 ^ ((s.reg rt).toNat % 32) % 2 ^ 32) ∧
    (∃ t, exec (.srl rd rs rt) s = .next t ∧
      (t.reg rd).toNat = (s.reg rs).toNat / 2 ^ ((s.reg rt).toNat % 32)) ∧
    (∃ t, exec (.sra rd rs rt) s = .next t ∧
      (t.reg rd).toInt = (s.reg rs).toInt.fdiv (2 ^ ((s.reg rt).toNat % 32)))

/-- R167 to R172: byte- and half-scoped shifts of the low `n` bits, written zero-extended, for every count; a count of
the scoped width or more shifts every bit out. -/
def Obligations.ScopedShiftResults : Prop :=
  ∀ r ∈ ([(0x23, .sllb, fun x n => x.toNat % 2 ^ 8 * 2 ^ n % 2 ^ 8), (0x24, .srlb, fun x n => x.toNat % 2 ^ 8 / 2 ^ n),
      (0x25, .srab, fun x n => ((x.extractLsb' 0 8).toInt.fdiv (2 ^ n) % 2 ^ 8).toNat),
      (0x26, .sllh, fun x n => x.toNat % 2 ^ 16 * 2 ^ n % 2 ^ 16), (0x27, .srlh, fun x n => x.toNat % 2 ^ 16 / 2 ^ n),
      (0x28, .srah, fun x n => ((x.extractLsb' 0 16).toInt.fdiv (2 ^ n) % 2 ^ 16).toNat)] :
      List (Byte × (Reg → Reg → Nat → Instr) × (Word → Nat → Nat))),
    isEncoded r.1 .ts false (fun w => r.2.1 (fieldD w) (fieldS w) (fieldSh w)) ∧
    ∀ (s : State) (rd rs : Reg) (sh : Nat),
      exec (r.2.1 rd rs sh) s =
        .next { s with regs := s.regs.set rd (BitVec.ofNat 32 (r.2.2 (s.reg rs) sh)) }

/-! ## Load immediate, branches -/

/-- R186: LDI writes the resolved immediate; the errors of the info word leave the destination unchanged. -/
def Obligations.LoadImmediateResult : Prop :=
  isEncoded 0x2E .dest true (fun w => .ldi (fieldD w)) ∧
  ∀ (s : State) (rd : Reg),
    (∀ info imm, fetchData s s.pc = some info → resolve s.pool info = some imm →
      exec (.ldi rd) s = .next { s with pc := s.pc + 4, regs := s.regs.set rd imm }) ∧
    raisesForInfoWord (.ldi rd) s

/-- R192 to R201: the ten BccI branches. The condition compares the register (left) with the resolved immediate (right);
the target counts words from the address after the info word. -/
def Obligations.InfoBranchResults : Prop :=
  ∀ r ∈ ([(0x2F, .beqi, fun x y => x = y), (0x30, .bnei, fun x y => x ≠ y),
      (0x31, .bgti, fun x y => x.toInt > y.toInt), (0x32, .bgei, fun x y => x.toInt ≥ y.toInt),
      (0x33, .blti, fun x y => x.toInt < y.toInt), (0x34, .blei, fun x y => x.toInt ≤ y.toInt),
      (0x35, .bgtui, fun x y => x.toNat > y.toNat), (0x36, .bgeui, fun x y => x.toNat ≥ y.toNat),
      (0x37, .bltui, fun x y => x.toNat < y.toNat), (0x38, .bleui, fun x y => x.toNat ≤ y.toNat)] :
      List (Byte × (Reg → Int → Instr) × (Word → Word → Prop))),
    isEncoded r.1 .dest true (fun w => r.2.1 (fieldD w) (fieldImm16 w).toInt) ∧
    (∀ (s : State) (rd : Reg) (d16 : BitVec 16), raisesForInfoWord (r.2.1 rd d16.toInt) s) ∧
    ∀ (s : State) (info y : Word) (rd : Reg) (d16 : BitVec 16), fetchData s s.pc = some info →
      resolve s.pool info = some y →
      (r.2.2 (s.reg rd) y →
        exec (r.2.1 rd d16.toInt) s = .next { s with pc := s.pc + 4 + 4 * d16.signExtend 32 }) ∧
      (¬ r.2.2 (s.reg rd) y → exec (r.2.1 rd d16.toInt) s = .next { s with pc := s.pc + 4 })

/-- R203 to R208: the BccIB branches on equality and signed order compare the whole register with `sext_8(b)`. -/
def Obligations.SignedByteBranchResults : Prop :=
  ∀ r ∈ ([(0x39, .beqib, fun x y => x = y), (0x3A, .bneib, fun x y => x ≠ y),
      (0x3B, .bgtib, fun x y => x.toInt > y.toInt), (0x3C, .bgeib, fun x y => x.toInt ≥ y.toInt),
      (0x3D, .bltib, fun x y => x.toInt < y.toInt), (0x3E, .bleib, fun x y => x.toInt ≤ y.toInt)] :
      List (Byte × (Reg → Int → Int → Instr) × (Word → Word → Prop))),
    isEncoded r.1 .ts false (fun w => r.2.1 (fieldD w) (fieldB w).toInt (fieldC w).toInt) ∧
    ∀ (s : State) (rd : Reg) (b c : Byte),
      (r.2.2 (s.reg rd) (b.signExtend 32) →
        exec (r.2.1 rd b.toInt c.toInt) s = .next { s with pc := s.pc + 4 * c.signExtend 32 }) ∧
      (¬ r.2.2 (s.reg rd) (b.signExtend 32) → exec (r.2.1 rd b.toInt c.toInt) s = .next s)

/-- R209 to R212: the BccIB branches on unsigned order compare the whole register with `zext_8(b)`. -/
def Obligations.UnsignedByteBranchResults : Prop :=
  ∀ r ∈ ([(0x3F, .bgtuib, fun x y => x > y), (0x40, .bgeuib, fun x y => x ≥ y),
      (0x41, .bltuib, fun x y => x < y), (0x42, .bleuib, fun x y => x ≤ y)] :
      List (Byte × (Reg → Nat → Int → Instr) × (Nat → Nat → Prop))),
    isEncoded r.1 .ts false (fun w => r.2.1 (fieldD w) (fieldB w).toNat (fieldC w).toInt) ∧
    ∀ (s : State) (rd : Reg) (b c : Byte),
      (r.2.2 (s.reg rd).toNat b.toNat →
        exec (r.2.1 rd b.toNat c.toInt) s = .next { s with pc := s.pc + 4 * c.signExtend 32 }) ∧
      (¬ r.2.2 (s.reg rd).toNat b.toNat → exec (r.2.1 rd b.toNat c.toInt) s = .next s)

/-! ## Loads and stores -/

/-- R221, R222: LDB and LDBU read the byte at `EA = R[s] + disp` and write it extended; every address is aligned. -/
def Obligations.ByteLoadResults : Prop :=
  ∀ r ∈ ([(0x43, .ldb, fun b => b.signExtend 32), (0x44, .ldbu, fun b => b.setWidth 32)] :
      List (Byte × (Reg → Reg → Instr) × (Byte → Word))),
    isEncoded r.1 .wi true (fun w => r.2.1 (fieldD w) (fieldS w)) ∧
    (∀ (s : State) (rd rs : Reg), raisesForInfoWord (r.2.1 rd rs) s) ∧
    ∀ (s : State) (info disp : Word) (rd rs : Reg), fetchData s s.pc = some info → resolve s.pool info = some disp →
      let ea := s.reg rs + disp
      (served s.unserved ea = true → exec (r.2.1 rd rs) s =
        .next { s with pc := s.pc + 4, regs := s.regs.set rd (r.2.2 (s.mem.read ea.toNat)) }) ∧
      (served s.unserved ea = false → exec (r.2.1 rd rs) s =
        .next (raise ⟨.busError, 0, s.pc - 4, 0, ea⟩ { s with pc := s.pc + 4 }))

/-- R223 to R225: LDH, LDHU and LDW read little-endian bytes at an aligned, served `EA`; any other `EA` raises BusError
with the destination unchanged. MEM_MAP is asked about each byte (entry 7). -/
def Obligations.WideLoadResults : Prop :=
  ∀ r ∈ ([(0x45, 2, .ldh, fun b => (b 1 ++ b 0 : BitVec (8 + 8)).signExtend 32),
      (0x46, 2, .ldhu, fun b => (b 1 ++ b 0 : BitVec (8 + 8)).setWidth 32),
      (0x47, 4, .ldw, fun b => (b 3 ++ b 2 ++ b 1 ++ b 0 : BitVec (8 + 8 + 8 + 8)))] :
      List (Byte × Nat × (Reg → Reg → Instr) × ((Nat → Byte) → Word))),
    isEncoded r.1 .wi true (fun w => r.2.2.1 (fieldD w) (fieldS w)) ∧
    (∀ (s : State) (rd rs : Reg), raisesForInfoWord (r.2.2.1 rd rs) s) ∧
    ∀ (s : State) (info disp : Word) (rd rs : Reg), fetchData s s.pc = some info → resolve s.pool info = some disp →
      let ea := s.reg rs + disp
      (ea.toNat % r.2.1 = 0 ∧ servedRange s.unserved ea r.2.1 = true →
        exec (r.2.2.1 rd rs) s = .next { s with
          pc := s.pc + 4, regs := s.regs.set rd (r.2.2.2 fun k => s.mem.read (ea.toNat + k)) }) ∧
      (¬(ea.toNat % r.2.1 = 0 ∧ servedRange s.unserved ea r.2.1 = true) → exec (r.2.2.1 rd rs) s =
        .next (raise ⟨.busError, 0, s.pc - 4, 0, ea⟩ { s with pc := s.pc + 4 }))

/-- R226 to R228: STB, STH and STW store the low 1, 2 or 4 bytes of `R[d]`, lowest first, at an aligned, served `EA`, and
change no other byte and nothing else but `pc`; any other `EA` raises BusError and no byte changes.
MEM_MAP is asked about each byte (entry 7). -/
def Obligations.StoreResults : Prop :=
  ∀ r ∈ ([(1, 0x48, .stb), (2, 0x49, .sth), (4, 0x4A, .stw)] : List (Nat × Byte × (Reg → Reg → Instr))),
    isEncoded r.2.1 .wi true (fun w => r.2.2 (fieldD w) (fieldS w)) ∧
    (∀ (s : State) (rd rs : Reg), raisesForInfoWord (r.2.2 rd rs) s) ∧
    ∀ (s : State) (info disp : Word) (rd rs : Reg), fetchData s s.pc = some info → resolve s.pool info = some disp →
      let ea := s.reg rs + disp
      (ea.toNat % r.1 = 0 ∧ servedRange s.unserved ea r.1 = true →
        ∃ m : Memory, exec (r.2.2 rd rs) s = .next { s with pc := s.pc + 4, mem := m } ∧
          (∀ k, k < r.1 → m.read (ea.toNat + k) = (s.reg rd).extractLsb' (8 * k) 8) ∧
          (∀ a : Nat, (a < ea.toNat ∨ ea.toNat + r.1 ≤ a) → m.read a = s.mem.read a)) ∧
      (¬(ea.toNat % r.1 = 0 ∧ servedRange s.unserved ea r.1 = true) → exec (r.2.2 rd rs) s =
        .next (raise ⟨.busError, 0, s.pc - 4, 0, ea⟩ { s with pc := s.pc + 4 }))

/-- R48: the byte order. After a word is written, each aligned narrow read of it sees the corresponding bytes, lowest
first, and a word read gives it back. -/
def Obligations.NarrowReadsSeeLittleEndianBytes : Prop :=
  ∀ (s t : State) (a v : Word), memWrite s a 4 v = some t →
    memRead t a 4 = some v ∧
    (∀ k, k < 4 → memRead t (a + BitVec.ofNat 32 k) 1 = some ((v >>> (8 * k)) &&& 0xFF)) ∧
    (∀ k, k < 2 → memRead t (a + BitVec.ofNat 32 (2 * k)) 2 = some ((v >>> (16 * k)) &&& 0xFFFF))

/-- R56, R305: a store to an instruction's address is seen by the next fetch of it; the word stored by STW is the word
the fetch returns. -/
def Obligations.FetchSeesTheLatestStore : Prop :=
  ∀ (s t : State) (info disp : Word) (rd rs : Reg), fetchData s s.pc = some info → resolve s.pool info = some disp →
    (s.reg rs + disp).toNat % 4 = 0 → servedRange s.unserved (s.reg rs + disp) 4 = true →
    exec (.stw rd rs) s = .next t → fetchInsn t (s.reg rs + disp) = some (s.reg rd)

/-! ## Control transfer -/

/-- R241, R242, R245: JPr, CALLr and RET take the target from a register, unchecked; CALLr reads it before it writes the
return address to r2. -/
def Obligations.RegisterJumpResults : Prop :=
  isEncoded 0x4B .dest false (fun w => .jpr (fieldD w)) ∧ isEncoded 0x4C .dest false (fun w => .callr (fieldD w)) ∧
  isEncoded 0x4F .ud false (fun _ => .ret) ∧
  ∀ (s : State) (rd : Reg),
    exec (.jpr rd) s = .next { s with pc := s.reg rd } ∧
    exec (.callr rd) s = .next { s with regs := s.regs.set 2 s.pc, pc := s.reg rd } ∧
    exec .ret s = .next { s with pc := s.reg 2 }

/-- R243, R244: JPl and CALLl add four times the resolved displacement to the address after the info word; CALLl first
writes that address to r2. A failing info word makes no jump and no link: PoolError leaves `pc` at `A + 8`, a refused fetch
at `A + 4` (R100, R279), which reads the closing words of R243 as speaking of PoolError (entry 22). -/
def Obligations.RelativeJumpResults : Prop :=
  isEncoded 0x4D .wi true (fun _ => .jpl) ∧ isEncoded 0x4E .wi true (fun _ => .calll) ∧
  ∀ (s : State),
    (∀ info disp, fetchData s s.pc = some info → resolve s.pool info = some disp →
      exec .jpl s = .next { s with pc := s.pc + 4 + 4 * disp } ∧
      exec .calll s = .next { s with regs := s.regs.set 2 (s.pc + 4), pc := s.pc + 4 + 4 * disp }) ∧
    raisesForInfoWord .jpl s ∧ raisesForInfoWord .calll s

/-! ## Frame and task -/

/-- R251: STORE pushes `R[first] .. R[last]`, the lowest index at the lowest address below the old `sp`, and lowers `sp`;
no other byte and no other register changes; an empty range does nothing. MEM_MAP is asked about each byte (entry 7). -/
def Obligations.StoreRangePushesTheRegisters : Prop :=
  isEncoded 0x50 .rr false (fun w => .store (fieldD w) (fieldS w)) ∧
  ∀ (s : State) (first last : Reg),
    (last < first → exec (.store first last) s = .next s) ∧
    (first ≤ last →
      let n := last.val - first.val + 1
      let base := s.reg 1 - BitVec.ofNat 32 (4 * n)
      (s.reg 1).toNat % 4 = 0 → servedRange s.unserved base (4 * n) = true →
      ∃ t, exec (.store first last) s = .next t ∧
        t = { s with mem := t.mem, regs := s.regs.set 1 base } ∧
        (∀ r : Reg, first ≤ r → r ≤ last →
          memRead t (base + BitVec.ofNat 32 (4 * (r.val - first.val))) 4 = some (s.reg r)) ∧
        (∀ a : Word, 4 * n ≤ (a - base).toNat → t.mem.read a.toNat = s.mem.read a.toNat))

/-- R251, R279: at the first refused word STORE raises BusError with its address: the words before it stay written, no
other byte changes, and no register, `sp` among them. With a misaligned `sp` that is the very first word. -/
def Obligations.StoreRangeStopsAtTheFirstRefusal : Prop :=
  ∀ (s : State) (first last : Reg) (k : Nat), first ≤ last → k < last.val - first.val + 1 →
    let n := last.val - first.val + 1
    let base := s.reg 1 - BitVec.ofNat 32 (4 * n)
    let addr := base + BitVec.ofNat 32 (4 * k)
    (∀ j, j < k → (memRead s (base + BitVec.ofNat 32 (4 * j)) 4).isSome = true) → memRead s addr 4 = none →
    ∃ t, exec (.store first last) s = .next t ∧
      t = raise ⟨.busError, 0, s.pc - 4, 0, addr⟩ { s with mem := t.mem } ∧
      (∀ j, j < k → memRead t (base + BitVec.ofNat 32 (4 * j)) 4 = some (s.reg (Fin.ofNat 32 (first.val + j)))) ∧
      (∀ a : Word, 4 * k ≤ (a - base).toNat → t.mem.read a.toNat = s.mem.read a.toNat)

/-- R252: RESTORE loads `R[first] .. R[last]` from ascending words at `sp` and raises `sp` past them, also when `sp` was
loaded; nothing else changes; an empty range does nothing. MEM_MAP is asked about each byte (entry 7). -/
def Obligations.RestoreRangePopsTheRegisters : Prop :=
  isEncoded 0x51 .rr false (fun w => .restore (fieldD w) (fieldS w)) ∧
  ∀ (s : State) (first last : Reg),
    (last < first → exec (.restore first last) s = .next s) ∧
    (first ≤ last →
      let n := last.val - first.val + 1
      (s.reg 1).toNat % 4 = 0 → servedRange s.unserved (s.reg 1) (4 * n) = true →
      ∃ t, exec (.restore first last) s = .next t ∧ t = { s with regs := t.regs } ∧
        t.reg 1 = s.reg 1 + BitVec.ofNat 32 (4 * n) ∧
        (∀ r : Reg, first ≤ r → r ≤ last → r ≠ 1 →
          memRead s (s.reg 1 + BitVec.ofNat 32 (4 * (r.val - first.val))) 4 = some (t.reg r)) ∧
        (∀ r : Reg, (r < first ∨ last < r) → r ≠ 1 → t.reg r = s.reg r))

/-- R252, R279: at the first refused word RESTORE raises BusError with its address: the registers before it keep the
loaded words, the others and, unless loaded, `sp` are unchanged. -/
def Obligations.RestoreRangeStopsAtTheFirstRefusal : Prop :=
  ∀ (s : State) (first last : Reg) (k : Nat), first ≤ last → k < last.val - first.val + 1 →
    let addr := s.reg 1 + BitVec.ofNat 32 (4 * k)
    (∀ j, j < k → (memRead s (s.reg 1 + BitVec.ofNat 32 (4 * j)) 4).isSome = true) → memRead s addr 4 = none →
    ∃ t, exec (.restore first last) s = .next t ∧
      t = raise ⟨.busError, 0, s.pc - 4, 0, addr⟩ { s with regs := t.regs } ∧
      (∀ r : Reg, first ≤ r → r.val < first.val + k →
        memRead s (s.reg 1 + BitVec.ofNat 32 (4 * (r.val - first.val))) 4 = some (t.reg r)) ∧
      (∀ r : Reg, (r < first ∨ first.val + k ≤ r.val) → t.reg r = s.reg r)

/-- RESTORE with the same range undoes a STORE exactly (R252): whatever happened to the registers between, with `sp` and
memory as the STORE left them, the range and `sp` come back, and no other register changes. -/
def Obligations.RestoreUndoesStore : Prop :=
  ∀ (s t u : State) (first last : Reg), first ≤ last → (s.reg 1).toNat % 4 = 0 →
    servedRange s.unserved (s.reg 1 - BitVec.ofNat 32 (4 * (last.val - first.val + 1)))
      (4 * (last.val - first.val + 1)) = true →
    exec (.store first last) s = .next t → u.reg 1 = t.reg 1 → u.mem = t.mem → u.unserved = t.unserved →
    ∃ v, exec (.restore first last) u = .next v ∧ v = { u with regs := v.regs } ∧ v.reg 1 = s.reg 1 ∧
      (∀ r : Reg, first ≤ r → r ≤ last → v.reg r = s.reg r) ∧
      (∀ r : Reg, (r < first ∨ last < r) → r ≠ 1 → v.reg r = u.reg r)

/-- R253, R254: KILLTASK and SLEEP set the event latch and the stop request and change nothing else. -/
def Obligations.TaskSignalResults : Prop :=
  isEncoded 0x52 .ud false (fun _ => .killtask) ∧ isEncoded 0x53 .ud false (fun _ => .sleep) ∧
  ∀ s : State,
    exec .killtask s = .next { s with event := .terminated, shouldStop := true } ∧
    exec .sleep s = .next { s with event := .yield, shouldStop := true }

/-- R253 to R255: an iteration that runs SLEEP or KILLTASK counts it, and the next step ends the run with the event,
whatever the budget; registers and memory keep their values and `pc` is past the instruction. The event is read by `runEnd`
from the latches and the model's field `answer` (entry 11). -/
def Obligations.TaskSignalEndsTheRun : Prop :=
  ∀ r ∈ ([(0x52, .terminated), (0x53, .yielded)] : List (Byte × RunEnd)),
    ∀ (s : State) (w : Word), atIteration s → s.fault = none → s.pc.toNat % 4 = 0 → fetchInsn s s.pc = some w →
      w.extractLsb' 0 8 = r.1 →
      ∃ t, runSteps 2 s = .next t ∧ runEnd t = some r.2 ∧ t.instructionRan = s.instructionRan + 1 ∧
        t.pc = s.pc + 4 ∧ t.regs = s.regs ∧ t.mem = s.mem

/-! ## System bridge -/

/-- R261: SYSCPY copies `n` bytes as if the source were read completely first, also when the ranges overlap, and changes
no other byte and nothing else. MEM_MAP is asked about each byte (entry 7). -/
def Obligations.BlockCopyResult : Prop :=
  isEncoded 0x54 .ts false (fun w => .syscpy (fieldD w) (fieldS w) (fieldT w)) ∧
  ∀ (s : State) (rd rs rt : Reg),
    servedRange s.unserved (s.reg rd) (s.reg rt).toNat = true →
    servedRange s.unserved (s.reg rs) (s.reg rt).toNat = true →
    ∃ m : Memory, exec (.syscpy rd rs rt) s = .next { s with mem := m } ∧
      (∀ k, k < (s.reg rt).toNat →
        m.read (s.reg rd + BitVec.ofNat 32 k).toNat = s.mem.read (s.reg rs + BitVec.ofNat 32 k).toNat) ∧
      (∀ a : Word, (s.reg rt).toNat ≤ (a - s.reg rd).toNat → m.read a.toNat = s.mem.read a.toNat)

/-- R262: SYSSET fills `n` bytes with the low byte of `R[s]`, and changes no other byte and nothing else.
MEM_MAP is asked about each byte (entry 7). -/
def Obligations.BlockFillResult : Prop :=
  isEncoded 0x55 .ts false (fun w => .sysset (fieldD w) (fieldS w) (fieldT w)) ∧
  ∀ (s : State) (rd rs rt : Reg),
    servedRange s.unserved (s.reg rd) (s.reg rt).toNat = true →
    ∃ m : Memory, exec (.sysset rd rs rt) s = .next { s with mem := m } ∧
      (∀ k, k < (s.reg rt).toNat →
        m.read (s.reg rd + BitVec.ofNat 32 k).toNat = (s.reg rs).extractLsb' 0 8) ∧
      (∀ a : Word, (s.reg rt).toNat ≤ (a - s.reg rd).toNat → m.read a.toNat = s.mem.read a.toNat)

/-- A refused bulk transaction raises BusError with the destination address and changes no byte outside the destination
range (R261, R262, R279); the bytes inside are free values, about which nothing is said (U6, entry 9). -/
def Obligations.RefusedBulkKeepsTheBytesOutside : Prop :=
  ∀ (i : Instr) (s : State) (rd rs rt : Reg),
    (i = .syscpy rd rs rt ∧ ¬(servedRange s.unserved (s.reg rd) (s.reg rt).toNat = true ∧
        servedRange s.unserved (s.reg rs) (s.reg rt).toNat = true)) ∨
      (i = .sysset rd rs rt ∧ servedRange s.unserved (s.reg rd) (s.reg rt).toNat = false) →
    ∃ t, exec i s = .next t ∧
      t = raise ⟨.busError, 0, s.pc - 4, 0, s.reg rd⟩
        { s with mem := t.mem, freeIndex := s.freeIndex + 1 } ∧
      (∀ a : Word, (s.reg rt).toNat ≤ (a - s.reg rd).toNat → t.mem.read a.toNat = s.mem.read a.toNat)

/-! ## Fixed-point helpers -/

/-- R152: a fixed-point value converted to a real and back is itself, in both formats. -/
def Obligations.FixedPointRoundTrip : Prop :=
  ∀ x : Word, realToFixed (fixedToReal x) = x ∧ realToFixed9 (fixed9ToReal x) = x
end

