-- ==== Sys2Proof/Laws/Decode.lean ====
section
/-!
SUPPORT. The fields of an encoded word are the bytes it was made of, and each operand byte is read back as the operand
it encodes.
-/
namespace Sys2Proof

@[simp] theorem opByte_instrWord (op a b c : Byte) : opByte (instrWord op a b c) = op := by
  apply BitVec.eq_of_getLsbD_eq; intro i hi
  simp only [opByte, instrWord, BitVec.getLsbD_extractLsb', BitVec.getLsbD_append]
  simp [hi]

@[simp] theorem byteA_instrWord (op a b c : Byte) : byteA (instrWord op a b c) = a := by
  apply BitVec.eq_of_getLsbD_eq; intro i hi
  simp only [byteA, instrWord, BitVec.getLsbD_extractLsb', BitVec.getLsbD_append]
  simp [hi]

@[simp] theorem byteB_instrWord (op a b c : Byte) : byteB (instrWord op a b c) = b := by
  apply BitVec.eq_of_getLsbD_eq; intro i hi
  simp only [byteB, instrWord, BitVec.getLsbD_extractLsb', BitVec.getLsbD_append]
  simp [hi, show ¬(16 + i < 8) by omega, show ¬(16 + i - 8 < 8) by omega, show 16 + i - 8 - 8 = i by omega]

@[simp] theorem byteC_instrWord (op a b c : Byte) : byteC (instrWord op a b c) = c := by
  apply BitVec.eq_of_getLsbD_eq; intro i hi
  simp only [byteC, instrWord, BitVec.getLsbD_extractLsb', BitVec.getLsbD_append]
  simp [hi, show ¬(24 + i < 8) by omega, show ¬(24 + i - 8 < 8) by omega, show ¬(24 + i - 8 - 8 < 8) by omega,
    show 24 + i - 8 - 8 - 8 = i by omega]

@[simp] theorem opByte_infoBranchWord (op : Byte) (rd : Reg) (disp : Int) :
    opByte (infoBranchWord op rd disp) = op := by
  apply BitVec.eq_of_getLsbD_eq; intro i hi
  simp only [opByte, infoBranchWord, BitVec.getLsbD_extractLsb', BitVec.getLsbD_append]
  simp [hi]

@[simp] theorem byteA_infoBranchWord (op : Byte) (rd : Reg) (disp : Int) :
    byteA (infoBranchWord op rd disp) = regByte rd := by
  apply BitVec.eq_of_getLsbD_eq; intro i hi
  simp only [byteA, infoBranchWord, BitVec.getLsbD_extractLsb', BitVec.getLsbD_append]
  simp [hi]

@[simp] theorem imm16_infoBranchWord (op : Byte) (rd : Reg) (disp : Int) :
    imm16 (infoBranchWord op rd disp) = BitVec.ofInt 16 disp := by
  apply BitVec.eq_of_getLsbD_eq; intro i hi
  simp only [imm16, infoBranchWord, BitVec.getLsbD_extractLsb', BitVec.getLsbD_append]
  simp [hi, show ¬(16 + i < 8) by omega, show ¬(16 + i - 8 < 8) by omega, show 16 + i - 8 - 8 = i by omega]

@[simp] theorem regOfByte_regByte (r : Reg) : regOfByte (regByte r) = r := by
  revert r; decide

theorem shiftOfByte_ofNat {sh : Nat} (h : shiftFits sh = true) : shiftOfByte (BitVec.ofNat 8 sh) = sh := by
  simp only [shiftFits, decide_eq_true_eq] at h
  simp only [shiftOfByte, BitVec.toNat_ofNat]; omega

theorem toInt_ofInt_byte {x : Int} (h : signedByteFits x = true) : (BitVec.ofInt 8 x).toInt = x := by
  simp only [signedByteFits, decide_eq_true_eq] at h
  rw [BitVec.toInt_ofInt, Int.bmod_eq_of_le] <;> omega

theorem toNat_ofNat_byte {x : Nat} (h : unsignedByteFits x = true) : (BitVec.ofNat 8 x).toNat = x := by
  simp only [unsignedByteFits, decide_eq_true_eq] at h
  simp only [BitVec.toNat_ofNat]; omega

theorem toInt_ofInt_half {x : Int} (h : disp16Fits x = true) : (BitVec.ofInt 16 x).toInt = x := by
  simp only [disp16Fits, decide_eq_true_eq] at h
  rw [BitVec.toInt_ofInt, Int.bmod_eq_of_le] <;> omega

/-- Four bytes in storage order make the word they came from. -/
theorem word_of_wordBytes (w : Word) :
    (byteC w ++ byteB w ++ byteA w ++ opByte w : BitVec (8 + 8 + 8 + 8)) = w := by
  apply BitVec.eq_of_getLsbD_eq; intro i hi
  simp only [opByte, byteA, byteB, byteC, BitVec.getLsbD_extractLsb', BitVec.getLsbD_append]
  by_cases h1 : i < 8
  · simp [h1]
  · by_cases h2 : i - 8 < 8
    · simp [h1, h2, show 8 + (i - 8) = i by omega]
    · by_cases h3 : i - 8 - 8 < 8
      · simp [h1, h2, h3, show 16 + (i - 8 - 8) = i by omega]
      · simp [h1, h2, h3, show i - 8 - 8 - 8 < 8 by omega, show 24 + (i - 8 - 8 - 8) = i by omega]

end Sys2Proof
end

