-- ==== Sys2Proof/Laws/Loop.lean ====
section
/-!
SUPPORT. What each part of the loop can answer, said once (spec/40_loop_and_resolver.md R93, R94), for proofs about
`step` to cite instead of unfolding it.
-/
namespace Sys2Proof.Machine

/-- Fetch and dispatch end in one of four ways, in the order of R277. -/
theorem fetchDecode_cases (s : State) :
    (s.pc.toNat % 4 ≠ 0 ∧ fetchDecode s = .done (.next (raiseMisalignedPC s.pc s))) ∨
    (s.pc.toNat % 4 = 0 ∧ fetchInsn s s.pc = none ∧ fetchDecode s = .done (.next (raiseBusError s.pc s.pc s))) ∨
    (∃ w e, s.pc.toNat % 4 = 0 ∧ fetchInsn s s.pc = some w ∧ decodeWord w = .error e ∧
      fetchDecode s = .done (.next (raiseDecodeError (opByte w) s.pc s))) ∨
    (∃ w i, s.pc.toNat % 4 = 0 ∧ fetchInsn s s.pc = some w ∧ decodeWord w = .ok i ∧
      fetchDecode s = .handler i (s.setPc (s.pc + 4))) := by
  simp only [fetchDecode, alignedTo]
  by_cases h : s.pc.toNat % 4 = 0
  · refine .inr ?_
    cases hf : fetchInsn s s.pc with
    | none => exact .inl ⟨h, rfl, by simp [h]⟩
    | some w =>
      cases hd : decodeWord w with
      | error e => exact .inr (.inl ⟨w, e, h, rfl, hd, by simp [h, hd]⟩)
      | ok i => exact .inr (.inr ⟨w, i, h, rfl, hd, by simp [h, hd]⟩)
  · exact .inl ⟨h, by simp [h]⟩

/-- The core's move: none while Idle, the loop exit, or an iteration. -/
theorem coreTurn_cases (s : State) :
    (s.isRunning = false ∧ coreTurn s = .done (.next s)) ∨
    (s.isRunning = true ∧ leavesLoop s = true ∧ coreTurn s = .done (.next (loopExit s))) ∨
    (s.isRunning = true ∧ leavesLoop s = false ∧ coreTurn s = fetchDecode s) := by
  simp only [coreTurn]
  cases s.isRunning <;> cases leavesLoop s <;> simp

/-- Whose move a step is. -/
theorem nextTurn_cases (s : State) :
    (s.hostMoves = [] ∧ nextTurn s = coreTurn s) ∨
    (∃ ms, s.hostMoves = .pass :: ms ∧ nextTurn s = coreTurn { s with hostMoves := ms }) ∨
    (∃ m ms, s.hostMoves = m :: ms ∧ nextTurn s = .done (hostMove m { s with hostMoves := ms })) := by
  simp only [nextTurn]
  split
  · exact .inl ⟨‹_›, rfl⟩
  · exact .inr (.inl ⟨_, ‹_›, rfl⟩)
  · exact .inr (.inr ⟨_, _, ‹_›, rfl⟩)

/-- A step in which no handler runs has the turn's own outcome. -/
theorem step_of_done {s : State} {o : Out} (h : nextTurn s = .done o) : step s = o := by
  simp only [step, h]

/-- A step in which a handler runs is that handler and the count. -/
theorem step_of_handler {s s' : State} {i : Instr} (h : nextTurn s = .handler i s') : step s = retire (exec i s') := by
  simp only [step, h]

/-- The count after a handler: one more when it completed, none when it raised (R97, R280). -/
theorem retire_next (t : State) :
    retire (.next t) = .next (if t.isRunning then { t with instructionRan := t.instructionRan + 1 } else t) := rfl

/-- The host's move changes nothing, is done, or is refused because the core is Running (R23, R95). -/
theorem hostMove_cases (m : HostMove) (s : State) :
    (∃ t, hostMove m s = .next t) ∨ (s.isRunning = true ∧ hostMove m s = .refused .hostAccessWhileRunning) := by
  cases m <;> simp only [hostMove, whileIdle] <;>
    first
    | exact .inl ⟨_, rfl⟩
    | cases h : s.isRunning <;> simp

end Sys2Proof.Machine
end

