-- ==== Sys2Proof/Laws/State.lean ====
section
/-!
SUPPORT. One lemma per field per update of the state, true by unfolding, so that no later proof unfolds a record update;
and what reading a register after a write gives.
-/
namespace Sys2Proof.Machine

@[simp] theorem setReg_regs (s : State) (r : Reg) (v : Word) : (s.setReg r v).regs = s.regs.set r v := rfl
@[simp] theorem setReg_pc (s : State) (r : Reg) (v : Word) : (s.setReg r v).pc = s.pc := rfl
@[simp] theorem setReg_isRunning (s : State) (r : Reg) (v : Word) : (s.setReg r v).isRunning = s.isRunning := rfl
@[simp] theorem setReg_shouldStop (s : State) (r : Reg) (v : Word) : (s.setReg r v).shouldStop = s.shouldStop := rfl
@[simp] theorem setReg_instructionRan (s : State) (r : Reg) (v : Word) : (s.setReg r v).instructionRan = s.instructionRan := rfl
@[simp] theorem setReg_budget (s : State) (r : Reg) (v : Word) : (s.setReg r v).budget = s.budget := rfl
@[simp] theorem setReg_event (s : State) (r : Reg) (v : Word) : (s.setReg r v).event = s.event := rfl
@[simp] theorem setReg_fault (s : State) (r : Reg) (v : Word) : (s.setReg r v).fault = s.fault := rfl
@[simp] theorem setReg_pool (s : State) (r : Reg) (v : Word) : (s.setReg r v).pool = s.pool := rfl
@[simp] theorem setReg_mem (s : State) (r : Reg) (v : Word) : (s.setReg r v).mem = s.mem := rfl
@[simp] theorem setReg_unserved (s : State) (r : Reg) (v : Word) : (s.setReg r v).unserved = s.unserved := rfl
@[simp] theorem setReg_answer (s : State) (r : Reg) (v : Word) : (s.setReg r v).answer = s.answer := rfl
@[simp] theorem setReg_hostMoves (s : State) (r : Reg) (v : Word) : (s.setReg r v).hostMoves = s.hostMoves := rfl
@[simp] theorem setReg_freeIndex (s : State) (r : Reg) (v : Word) : (s.setReg r v).freeIndex = s.freeIndex := rfl

@[simp] theorem setPc_regs (s : State) (v : Word) : (s.setPc v).regs = s.regs := rfl
@[simp] theorem setPc_pc (s : State) (v : Word) : (s.setPc v).pc = v := rfl
@[simp] theorem setPc_isRunning (s : State) (v : Word) : (s.setPc v).isRunning = s.isRunning := rfl
@[simp] theorem setPc_shouldStop (s : State) (v : Word) : (s.setPc v).shouldStop = s.shouldStop := rfl
@[simp] theorem setPc_instructionRan (s : State) (v : Word) : (s.setPc v).instructionRan = s.instructionRan := rfl
@[simp] theorem setPc_budget (s : State) (v : Word) : (s.setPc v).budget = s.budget := rfl
@[simp] theorem setPc_event (s : State) (v : Word) : (s.setPc v).event = s.event := rfl
@[simp] theorem setPc_fault (s : State) (v : Word) : (s.setPc v).fault = s.fault := rfl
@[simp] theorem setPc_pool (s : State) (v : Word) : (s.setPc v).pool = s.pool := rfl
@[simp] theorem setPc_mem (s : State) (v : Word) : (s.setPc v).mem = s.mem := rfl
@[simp] theorem setPc_unserved (s : State) (v : Word) : (s.setPc v).unserved = s.unserved := rfl
@[simp] theorem setPc_answer (s : State) (v : Word) : (s.setPc v).answer = s.answer := rfl
@[simp] theorem setPc_hostMoves (s : State) (v : Word) : (s.setPc v).hostMoves = s.hostMoves := rfl
@[simp] theorem setPc_freeIndex (s : State) (v : Word) : (s.setPc v).freeIndex = s.freeIndex := rfl

@[simp] theorem setMem_regs (s : State) (m : Memory) : (s.setMem m).regs = s.regs := rfl
@[simp] theorem setMem_pc (s : State) (m : Memory) : (s.setMem m).pc = s.pc := rfl
@[simp] theorem setMem_isRunning (s : State) (m : Memory) : (s.setMem m).isRunning = s.isRunning := rfl
@[simp] theorem setMem_shouldStop (s : State) (m : Memory) : (s.setMem m).shouldStop = s.shouldStop := rfl
@[simp] theorem setMem_instructionRan (s : State) (m : Memory) : (s.setMem m).instructionRan = s.instructionRan := rfl
@[simp] theorem setMem_budget (s : State) (m : Memory) : (s.setMem m).budget = s.budget := rfl
@[simp] theorem setMem_event (s : State) (m : Memory) : (s.setMem m).event = s.event := rfl
@[simp] theorem setMem_fault (s : State) (m : Memory) : (s.setMem m).fault = s.fault := rfl
@[simp] theorem setMem_pool (s : State) (m : Memory) : (s.setMem m).pool = s.pool := rfl
@[simp] theorem setMem_mem (s : State) (m : Memory) : (s.setMem m).mem = m := rfl
@[simp] theorem setMem_unserved (s : State) (m : Memory) : (s.setMem m).unserved = s.unserved := rfl
@[simp] theorem setMem_answer (s : State) (m : Memory) : (s.setMem m).answer = s.answer := rfl
@[simp] theorem setMem_hostMoves (s : State) (m : Memory) : (s.setMem m).hostMoves = s.hostMoves := rfl
@[simp] theorem setMem_freeIndex (s : State) (m : Memory) : (s.setMem m).freeIndex = s.freeIndex := rfl

@[simp] theorem raise_regs (r : FaultRecord) (s : State) : (raise r s).regs = s.regs := rfl
@[simp] theorem raise_pc (r : FaultRecord) (s : State) : (raise r s).pc = s.pc := rfl
@[simp] theorem raise_isRunning (r : FaultRecord) (s : State) : (raise r s).isRunning = false := rfl
@[simp] theorem raise_shouldStop (r : FaultRecord) (s : State) : (raise r s).shouldStop = s.shouldStop := rfl
@[simp] theorem raise_instructionRan (r : FaultRecord) (s : State) : (raise r s).instructionRan = s.instructionRan := rfl
@[simp] theorem raise_budget (r : FaultRecord) (s : State) : (raise r s).budget = s.budget := rfl
@[simp] theorem raise_event (r : FaultRecord) (s : State) : (raise r s).event = s.event := rfl
@[simp] theorem raise_fault (r : FaultRecord) (s : State) : (raise r s).fault = some r := rfl
@[simp] theorem raise_pool (r : FaultRecord) (s : State) : (raise r s).pool = s.pool := rfl
@[simp] theorem raise_mem (r : FaultRecord) (s : State) : (raise r s).mem = s.mem := rfl
@[simp] theorem raise_unserved (r : FaultRecord) (s : State) : (raise r s).unserved = s.unserved := rfl
@[simp] theorem raise_answer (r : FaultRecord) (s : State) : (raise r s).answer = some (.error r.kind) := rfl
@[simp] theorem raise_hostMoves (r : FaultRecord) (s : State) : (raise r s).hostMoves = s.hostMoves := rfl
@[simp] theorem raise_freeIndex (r : FaultRecord) (s : State) : (raise r s).freeIndex = s.freeIndex := rfl

@[simp] theorem loopEntry_regs (b : BitVec 31) (s : State) : (loopEntry b s).regs = s.regs := rfl
@[simp] theorem loopEntry_pc (b : BitVec 31) (s : State) : (loopEntry b s).pc = s.pc := rfl
@[simp] theorem loopEntry_isRunning (b : BitVec 31) (s : State) : (loopEntry b s).isRunning = true := rfl
@[simp] theorem loopEntry_shouldStop (b : BitVec 31) (s : State) : (loopEntry b s).shouldStop = false := rfl
@[simp] theorem loopEntry_instructionRan (b : BitVec 31) (s : State) : (loopEntry b s).instructionRan = 0 := rfl
@[simp] theorem loopEntry_budget (b : BitVec 31) (s : State) : (loopEntry b s).budget = b := rfl
@[simp] theorem loopEntry_event (b : BitVec 31) (s : State) : (loopEntry b s).event = .none := rfl
@[simp] theorem loopEntry_fault (b : BitVec 31) (s : State) : (loopEntry b s).fault = none := rfl
@[simp] theorem loopEntry_pool (b : BitVec 31) (s : State) : (loopEntry b s).pool = s.pool := rfl
@[simp] theorem loopEntry_mem (b : BitVec 31) (s : State) : (loopEntry b s).mem = s.mem := rfl
@[simp] theorem loopEntry_unserved (b : BitVec 31) (s : State) : (loopEntry b s).unserved = s.unserved := rfl
@[simp] theorem loopEntry_answer (b : BitVec 31) (s : State) : (loopEntry b s).answer = none := rfl
@[simp] theorem loopEntry_hostMoves (b : BitVec 31) (s : State) : (loopEntry b s).hostMoves = s.hostMoves := rfl
@[simp] theorem loopEntry_freeIndex (b : BitVec 31) (s : State) : (loopEntry b s).freeIndex = s.freeIndex := rfl

@[simp] theorem loopExit_regs (s : State) : (loopExit s).regs = s.regs := rfl
@[simp] theorem loopExit_pc (s : State) : (loopExit s).pc = s.pc := rfl
@[simp] theorem loopExit_isRunning (s : State) : (loopExit s).isRunning = false := rfl
@[simp] theorem loopExit_shouldStop (s : State) : (loopExit s).shouldStop = s.shouldStop := rfl
@[simp] theorem loopExit_instructionRan (s : State) : (loopExit s).instructionRan = s.instructionRan := rfl
@[simp] theorem loopExit_budget (s : State) : (loopExit s).budget = s.budget := rfl
@[simp] theorem loopExit_event (s : State) : (loopExit s).event = s.event := rfl
@[simp] theorem loopExit_fault (s : State) : (loopExit s).fault = s.fault := rfl
@[simp] theorem loopExit_pool (s : State) : (loopExit s).pool = s.pool := rfl
@[simp] theorem loopExit_mem (s : State) : (loopExit s).mem = s.mem := rfl
@[simp] theorem loopExit_unserved (s : State) : (loopExit s).unserved = s.unserved := rfl
@[simp] theorem loopExit_answer (s : State) : (loopExit s).answer = some .ok := rfl
@[simp] theorem loopExit_hostMoves (s : State) : (loopExit s).hostMoves = s.hostMoves := rfl
@[simp] theorem loopExit_freeIndex (s : State) : (loopExit s).freeIndex = s.freeIndex := rfl

@[simp] theorem hostStop_regs (s : State) : (hostStop s).regs = s.regs := rfl
@[simp] theorem hostStop_pc (s : State) : (hostStop s).pc = s.pc := rfl
@[simp] theorem hostStop_isRunning (s : State) : (hostStop s).isRunning = s.isRunning := rfl
@[simp] theorem hostStop_shouldStop (s : State) : (hostStop s).shouldStop = true := rfl
@[simp] theorem hostStop_instructionRan (s : State) : (hostStop s).instructionRan = s.instructionRan := rfl
@[simp] theorem hostStop_budget (s : State) : (hostStop s).budget = s.budget := rfl
@[simp] theorem hostStop_event (s : State) : (hostStop s).event = s.event := rfl
@[simp] theorem hostStop_fault (s : State) : (hostStop s).fault = s.fault := rfl
@[simp] theorem hostStop_pool (s : State) : (hostStop s).pool = s.pool := rfl
@[simp] theorem hostStop_mem (s : State) : (hostStop s).mem = s.mem := rfl
@[simp] theorem hostStop_unserved (s : State) : (hostStop s).unserved = s.unserved := rfl
@[simp] theorem hostStop_answer (s : State) : (hostStop s).answer = s.answer := rfl
@[simp] theorem hostStop_hostMoves (s : State) : (hostStop s).hostMoves = s.hostMoves := rfl
@[simp] theorem hostStop_freeIndex (s : State) : (hostStop s).freeIndex = s.freeIndex := rfl

@[simp] theorem bulkRefused_regs (s : State) (a : Word) (n : Nat) : (bulkRefused s a n).regs = s.regs := rfl
@[simp] theorem bulkRefused_pc (s : State) (a : Word) (n : Nat) : (bulkRefused s a n).pc = s.pc := rfl
@[simp] theorem bulkRefused_isRunning (s : State) (a : Word) (n : Nat) : (bulkRefused s a n).isRunning = s.isRunning := rfl
@[simp] theorem bulkRefused_shouldStop (s : State) (a : Word) (n : Nat) : (bulkRefused s a n).shouldStop = s.shouldStop := rfl
@[simp] theorem bulkRefused_instructionRan (s : State) (a : Word) (n : Nat) : (bulkRefused s a n).instructionRan = s.instructionRan := rfl
@[simp] theorem bulkRefused_budget (s : State) (a : Word) (n : Nat) : (bulkRefused s a n).budget = s.budget := rfl
@[simp] theorem bulkRefused_event (s : State) (a : Word) (n : Nat) : (bulkRefused s a n).event = s.event := rfl
@[simp] theorem bulkRefused_fault (s : State) (a : Word) (n : Nat) : (bulkRefused s a n).fault = s.fault := rfl
@[simp] theorem bulkRefused_pool (s : State) (a : Word) (n : Nat) : (bulkRefused s a n).pool = s.pool := rfl
@[simp] theorem bulkRefused_mem (s : State) (a : Word) (n : Nat) : (bulkRefused s a n).mem = s.mem.writeBytes a (residueBytes s.freeIndex n) := rfl
@[simp] theorem bulkRefused_unserved (s : State) (a : Word) (n : Nat) : (bulkRefused s a n).unserved = s.unserved := rfl
@[simp] theorem bulkRefused_answer (s : State) (a : Word) (n : Nat) : (bulkRefused s a n).answer = s.answer := rfl
@[simp] theorem bulkRefused_hostMoves (s : State) (a : Word) (n : Nat) : (bulkRefused s a n).hostMoves = s.hostMoves := rfl
@[simp] theorem bulkRefused_freeIndex (s : State) (a : Word) (n : Nat) : (bulkRefused s a n).freeIndex = s.freeIndex + 1 := rfl

@[simp] theorem setPc_reg (s : State) (v : Word) (r : Reg) : (s.setPc v).reg r = s.reg r := rfl
@[simp] theorem setMem_reg (s : State) (m : Memory) (r : Reg) : (s.setMem m).reg r = s.reg r := rfl
@[simp] theorem setMem_insnAddr (s : State) (m : Memory) : (s.setMem m).insnAddr = s.insnAddr := rfl
@[simp] theorem setPc_insnAddr (s : State) (v : Word) : (s.setPc v).insnAddr = v - 4 := rfl
@[simp] theorem setReg_insnAddr (s : State) (r : Reg) (v : Word) : (s.setReg r v).insnAddr = s.insnAddr := rfl
@[simp] theorem raise_reg (k : FaultRecord) (s : State) (r : Reg) : (raise k s).reg r = s.reg r := rfl
@[simp] theorem loopEntry_reg (b : BitVec 31) (s : State) (r : Reg) : (loopEntry b s).reg r = s.reg r := rfl
@[simp] theorem loopExit_reg (s : State) (r : Reg) : (loopExit s).reg r = s.reg r := rfl
@[simp] theorem hostStop_reg (s : State) (r : Reg) : (hostStop s).reg r = s.reg r := rfl
@[simp] theorem bulkRefused_reg (s : State) (a : Word) (n : Nat) (r : Reg) :
    (bulkRefused s a n).reg r = s.reg r := rfl

/-- Reading any register after a write (R12). -/
theorem reg_setReg (s : State) (q r : Reg) (v : Word) :
    (s.setReg q v).reg r = if r = q then v else s.reg r := by
  simp [State.reg, State.setReg, Vector.getElem_set, Fin.ext_iff, eq_comm]

@[simp] theorem reg_setReg_self (s : State) (r : Reg) (v : Word) : (s.setReg r v).reg r = v := by
  simp [reg_setReg]

theorem reg_setReg_ne (s : State) {q r : Reg} (v : Word) (h : r ≠ q) : (s.setReg q v).reg r = s.reg r := by
  simp [reg_setReg, h]

/-- Two states with the same registers by index have the same register file. -/
theorem regs_ext {s t : State} (h : ∀ r, s.reg r = t.reg r) : s.regs = t.regs := by
  ext i hi
  have := h ⟨i, hi⟩
  simp only [State.reg, Fin.getElem_fin] at this
  rw [this]

end Sys2Proof.Machine
end

