-- ==== Sys2Proof/Laws/Memory.lean ====
section
/-!
SUPPORT. The reference memory: a read after a write, the canonical form, bytes in order, and MEM_MAP.
-/
namespace Sys2Proof.Machine

/-! ## One byte -/

theorem read_insert (m : Memory) (x : Nat) (v : Byte) (y : Nat) :
    (m.insert x v).read y = if y = x then v else m.read y := by
  induction m with
  | nil => simp [Memory.insert, Memory.read, eq_comm]
  | cons c m ih =>
    obtain ⟨a, b⟩ := c
    simp only [Memory.insert]
    by_cases hx : y = x
    · subst hx
      split
      · simp [Memory.read]
      · split
        · simp [Memory.read]
        · next h => simp [Memory.read, ih, Ne.symm h]
    · have hx' : x ≠ y := Ne.symm hx
      split
      · simp [Memory.read, hx']
      · split
        · next h => subst h; simp [Memory.read, hx']
        · simp [Memory.read, ih, hx]

theorem read_remove (m : Memory) (x y : Nat) :
    Memory.read (m.filter (fun c => c.1 != x)) y = if y = x then Config.unwritten else m.read y := by
  induction m with
  | nil => simp [Memory.read]
  | cons c m ih =>
    obtain ⟨a, b⟩ := c
    by_cases h : a = x
    · subst h
      simp only [List.filter_cons, bne_self_eq_false, Bool.false_eq_true, if_false, ih, Memory.read]
      by_cases hy : y = a <;> simp [hy, eq_comm]
    · have h' : (a != x) = true := by simpa using h
      simp only [List.filter_cons, h', if_true, Memory.read, ih]
      by_cases hy : a = y
      · subst a; simp [h]
      · simp [hy]

/-- A byte written is read back, and every other byte is left alone. -/
theorem read_write (m : Memory) (x : Nat) (v : Byte) (y : Nat) :
    (m.write x v).read y = if y = x then v else m.read y := by
  unfold Memory.write
  split
  · next h => rw [read_remove, h]
  · exact read_insert m x v y

/-! ## The canonical form -/

theorem mem_insert {m : Memory} {x : Nat} {v : Byte} {c : Host.Cell} (h : c ∈ m.insert x v) :
    c = (x, v) ∨ c ∈ m := by
  induction m with
  | nil => simpa [Memory.insert] using h
  | cons d m ih =>
    obtain ⟨a, b⟩ := d
    simp only [Memory.insert] at h
    split at h
    · simpa using h
    · split at h
      · simp only [List.mem_cons] at h ⊢; tauto
      · simp only [List.mem_cons] at h ⊢
        rcases h with h | h
        · exact .inr (.inl h)
        · exact (ih h).imp id .inr

theorem insert_sorted {m : Memory} (x : Nat) (v : Byte) (h : m.Pairwise (fun p q => p.1 < q.1)) :
    (m.insert x v).Pairwise (fun p q => p.1 < q.1) := by
  induction m with
  | nil => simp [Memory.insert]
  | cons d m ih =>
    obtain ⟨a, b⟩ := d
    rw [List.pairwise_cons] at h
    simp only [Memory.insert]
    split
    · next hx =>
      refine List.pairwise_cons.2 ⟨fun c hc => ?_, List.pairwise_cons.2 h⟩
      rcases List.mem_cons.1 hc with rfl | hc
      · exact hx
      · exact hx.trans (h.1 c hc)
    · split
      · next hx => subst hx; exact List.pairwise_cons.2 h
      · refine List.pairwise_cons.2 ⟨fun c hc => ?_, ih h.2⟩
        rcases mem_insert hc with rfl | hc
        · simp only; omega
        · exact h.1 c hc

/-- Every byte write keeps the canonical form. -/
theorem write_wf {m : Memory} {x : Nat} (v : Byte) (h : m.wf) (hx : x < 2 ^ 32) : (m.write x v).wf := by
  unfold Memory.write
  split
  · exact ⟨h.1.filter _, fun c hc => h.2 c (List.mem_filter.1 hc).1⟩
  · next hv =>
    refine ⟨insert_sorted x v h.1, fun c hc => ?_⟩
    rcases mem_insert hc with rfl | hc
    · exact ⟨hv, hx⟩
    · exact h.2 c hc

/-- Every write of bytes keeps the canonical form. -/
theorem writeBytes_wf {m : Memory} (a : Word) (bs : List Byte) (h : m.wf) : (m.writeBytes a bs).wf := by
  induction bs generalizing m a with
  | nil => exact h
  | cons b bs ih => exact ih _ (write_wf b h a.isLt)

theorem nil_wf : Memory.wf [] := ⟨List.Pairwise.nil, fun _ h => absurd h (by simp)⟩

/-! ## Several bytes -/

@[simp] theorem readBytes_length (m : Memory) (a : Word) (n : Nat) : (m.readBytes a n).length = n := by
  simp [Memory.readBytes]

theorem readBytes_getElem (m : Memory) (a : Word) (n k : Nat) (h : k < (m.readBytes a n).length) :
    (m.readBytes a n)[k] = m.read (a + BitVec.ofNat 32 k).toNat := by
  simp [Memory.readBytes]

@[simp] theorem bytesOf_length (n : Nat) (v : Word) : (bytesOf n v).length = n := by simp [bytesOf]

@[simp] theorem residueBytes_length (d n : Nat) : (residueBytes d n).length = n := by simp [residueBytes]

/-- What a byte reads as after a write of bytes: the `k`-th of them at `a + k`, and as before elsewhere. -/
theorem read_writeBytes (m : Memory) (a x : Word) (bs : List Byte) (hl : bs.length ≤ 2 ^ 32) :
    (m.writeBytes a bs).read x.toNat = bs.getD (x - a).toNat (m.read x.toNat) := by
  induction bs generalizing m a with
  | nil => simp [Memory.writeBytes]
  | cons b bs ih =>
    simp only [List.length_cons] at hl
    rw [Memory.writeBytes, ih _ _ (by omega), read_write]
    by_cases h : x = a
    · subst h
      have h1 : (x - (x + 1)).toNat = 2 ^ 32 - 1 := by
        have : x - (x + 1) = BitVec.ofNat 32 (2 ^ 32 - 1) := by bv_omega
        rw [this]; decide
      rw [List.getD_eq_default _ _ (by omega)]
      simp
    · have hne : x.toNat ≠ a.toNat := fun e => h (BitVec.eq_of_toNat_eq e)
      have h1 : (x - a).toNat = (x - (a + 1)).toNat + 1 := by bv_omega
      rw [h1, if_neg hne]; simp

/-- Bytes outside the written range read as before. -/
theorem read_writeBytes_outside (m : Memory) (a x : Word) (bs : List Byte) (h : bs.length ≤ (x - a).toNat) :
    (m.writeBytes a bs).read x.toNat = m.read x.toNat := by
  rw [read_writeBytes _ _ _ _ (by omega), List.getD_eq_default _ _ h]

/-- Bytes inside the written range read as what was written. -/
theorem read_writeBytes_inside (m : Memory) (a : Word) (bs : List Byte) (hl : bs.length ≤ 2 ^ 32) (k : Nat)
    (hk : k < bs.length) : (m.writeBytes a bs).read (a + BitVec.ofNat 32 k).toNat = bs[k] := by
  have hk' : (a + BitVec.ofNat 32 k - a).toNat = k := by bv_omega
  rw [read_writeBytes _ _ _ _ hl, hk']
  simp [hk]

/-- Reading bytes where bytes were just written gives them back. -/
theorem readBytes_writeBytes (m : Memory) (a : Word) (bs : List Byte) (hl : bs.length ≤ 2 ^ 32) :
    (m.writeBytes a bs).readBytes a bs.length = bs := by
  apply List.ext_getElem (by simp)
  intro k h1 h2
  rw [readBytes_getElem, read_writeBytes_inside _ _ _ hl _ h2]

/-- Little-endian bytes of a word give back its low bytes (R48). -/
theorem littleEndian_append (b : Byte) (bs : List Byte) :
    littleEndian (b :: bs) = b.toNat + 256 * littleEndian bs := rfl

theorem littleEndian_bytesOf_one (v : Word) : littleEndian (bytesOf 1 v) = v.toNat % 2 ^ 8 := by
  simp [bytesOf, littleEndian, List.range_succ]

theorem littleEndian_bytesOf_two (v : Word) : littleEndian (bytesOf 2 v) = v.toNat % 2 ^ 16 := by
  simp [bytesOf, littleEndian, List.range_succ, Nat.shiftRight_eq_div_pow]; omega

theorem littleEndian_bytesOf_four (v : Word) : littleEndian (bytesOf 4 v) = v.toNat := by
  simp [bytesOf, littleEndian, List.range_succ, Nat.shiftRight_eq_div_pow]; omega

/-! ## MEM_MAP -/

/-- A range meets `n` addresses exactly when it holds one of them. -/
theorem meets_iff (r : AddrRange) (a : Word) (n : Nat) (hn : n ≤ 2 ^ 32) :
    r.meets a n = true ↔ ∃ k, k < n ∧ r.holds (a + BitVec.ofNat 32 k) = true := by
  simp only [AddrRange.meets, AddrRange.holds, decide_eq_true_eq]
  constructor
  · rintro ⟨h0, h1, h | h⟩
    · refine ⟨(r.base - a).toNat, h, ?_⟩
      have : a + BitVec.ofNat 32 (r.base - a).toNat - r.base = 0 := by bv_omega
      rw [this]; simpa using h1
    · exact ⟨0, h0, by simpa using h⟩
  · rintro ⟨k, hk, h⟩
    refine ⟨by omega, by omega, ?_⟩
    by_contra hc
    rw [not_or] at hc
    obtain ⟨h1, h2⟩ := hc
    have : (a + BitVec.ofNat 32 k - r.base).toNat = ((a - r.base).toNat + k) % 2 ^ 32 := by bv_omega
    have h3 : (r.base - a).toNat = (2 ^ 32 - (a - r.base).toNat) % 2 ^ 32 := by bv_omega
    have := (a - r.base).isLt
    omega

/-- The ports serve a range exactly when they serve each of its addresses (R52, R58). -/
theorem servedRange_iff (u : List AddrRange) (a : Word) (n : Nat) (hn : n ≤ 2 ^ 32) :
    servedRange u a n = true ↔ ∀ k, k < n → served u (a + BitVec.ofNat 32 k) = true := by
  simp only [servedRange, served, List.all_eq_true, Bool.not_eq_true']
  constructor
  · intro h k hk r hr
    by_contra hc
    have := (meets_iff r a n hn).2 ⟨k, hk, by simpa using hc⟩
    simp [h r hr] at this
  · intro h r hr
    by_contra hc
    obtain ⟨k, hk, hh⟩ := (meets_iff r a n hn).1 (by simpa using hc)
    simp [h k hk r hr] at hh

@[simp] theorem servedRange_nil (a : Word) (n : Nat) : servedRange [] a n = true := rfl

end Sys2Proof.Machine
end

