-- ==== Sys2Proof/Laws/Ops.lean ====
section
/-!
SUPPORT. One lemma per shared operation that says everything it can do, for proofs to cite instead of unfolding it.
-/
namespace Sys2Proof.Machine

/-! ## Ports -/

/-- A read answers a value exactly when it is aligned and served, and then the little-endian value (R44, R48, R49). -/
theorem memRead_eq_some_iff (s : State) (a : Word) (n : Nat) (v : Word) :
    memRead s a n = some v ↔ alignedTo n a = true ∧ servedRange s.unserved a n = true ∧
      v = BitVec.ofNat 32 (littleEndian (s.mem.readBytes a n)) := by
  simp only [memRead]
  split
  · next h => simp only [Bool.and_eq_true] at h; simp [h, eq_comm]
  · next h => simp only [Bool.and_eq_true] at h; constructor
              · simp
              · rintro ⟨h1, h2, -⟩; exact absurd ⟨h1, h2⟩ h

/-- A read is refused exactly when it is misaligned or not served (R49, R58). -/
theorem memRead_eq_none_iff (s : State) (a : Word) (n : Nat) :
    memRead s a n = none ↔ ¬(alignedTo n a = true ∧ servedRange s.unserved a n = true) := by
  simp only [memRead]
  split <;> simp_all

/-- A write answers a state exactly when it is aligned and served, and changes those bytes of memory only. -/
theorem memWrite_eq_some_iff (s t : State) (a : Word) (n : Nat) (v : Word) :
    memWrite s a n v = some t ↔ alignedTo n a = true ∧ servedRange s.unserved a n = true ∧
      t = s.setMem (s.mem.writeBytes a (bytesOf n v)) := by
  simp only [memWrite]
  split
  · next h => simp only [Bool.and_eq_true] at h; simp [h, eq_comm]
  · next h => simp only [Bool.and_eq_true] at h; constructor
              · simp
              · rintro ⟨h1, h2, -⟩; exact absurd ⟨h1, h2⟩ h

theorem memWrite_eq_none_iff (s : State) (a : Word) (n : Nat) (v : Word) :
    memWrite s a n v = none ↔ ¬(alignedTo n a = true ∧ servedRange s.unserved a n = true) := by
  simp only [memWrite]
  split <;> simp_all

/-- A word written is read back. -/
theorem memRead_memWrite_word {s t : State} {a v : Word} (h : memWrite s a 4 v = some t) :
    memRead t a 4 = some v := by
  obtain ⟨h1, h2, rfl⟩ := (memWrite_eq_some_iff ..).1 h
  refine (memRead_eq_some_iff ..).2 ⟨h1, h2, ?_⟩
  have := readBytes_writeBytes s.mem a (bytesOf 4 v) (by simp)
  simp only [bytesOf_length] at this
  simp [this, littleEndian_bytesOf_four]

/-- A refused bulk copy, or a done one (R46, U6). -/
theorem blockCopy_cases (s : State) (dst src : Word) (n : Nat) :
    (servedRange s.unserved dst n = true ∧ servedRange s.unserved src n = true ∧
      blockCopy s dst src n = .ok (s.setMem (s.mem.writeBytes dst (s.mem.readBytes src n)))) ∨
    (¬(servedRange s.unserved dst n = true ∧ servedRange s.unserved src n = true) ∧
      blockCopy s dst src n = .error (bulkRefused s dst n)) := by
  simp only [blockCopy]
  split <;> simp_all

/-- A refused bulk fill, or a done one (R47, U6). -/
theorem blockFill_cases (s : State) (dst : Word) (b : Byte) (n : Nat) :
    (servedRange s.unserved dst n = true ∧
      blockFill s dst b n = .ok (s.setMem (s.mem.writeBytes dst (List.replicate n b)))) ∨
    (servedRange s.unserved dst n = false ∧ blockFill s dst b n = .error (bulkRefused s dst n)) := by
  simp only [blockFill]
  split <;> simp_all

/-! ## The resolver -/

/-- `FetchImmediate()` does one of three things (R100): BusError, a value, PoolError. -/
theorem fetchImmediate_cases (s : State) :
    (fetchData s s.pc = none ∧ fetchImmediate s = .error (raiseBusError s.pc s.insnAddr s)) ∨
    (∃ info v, fetchData s s.pc = some info ∧ resolve s.pool info = some v ∧
      fetchImmediate s = .ok (v, s.setPc (s.pc + 4))) ∨
    (∃ info, fetchData s s.pc = some info ∧ resolve s.pool info = none ∧
      fetchImmediate s = .error (raisePoolError info s.insnAddr (s.setPc (s.pc + 4)))) := by
  simp only [fetchImmediate]
  cases h : fetchData s s.pc with
  | none => exact .inl ⟨rfl, rfl⟩
  | some info =>
    cases hv : resolve s.pool info with
    | some v => exact .inr (.inl ⟨info, v, rfl, hv, by simp [hv]⟩)
    | none => exact .inr (.inr ⟨info, rfl, hv, by simp [hv]⟩)

/-- An immediate that could be fetched only moved `pc` past the info word. -/
theorem fetchImmediate_ok {s s' : State} {v : Word} (h : fetchImmediate s = .ok (v, s')) :
    s' = s.setPc (s.pc + 4) := by
  rcases fetchImmediate_cases s with ⟨-, e⟩ | ⟨_, _, -, -, e⟩ | ⟨_, -, -, e⟩ <;> rw [e] at h <;> simp_all

/-- An immediate that could not be fetched left Running with a record in the latch. -/
theorem fetchImmediate_error {s s' : State} (h : fetchImmediate s = .error s') :
    ∃ r, s' = raise r s ∨ s' = raise r (s.setPc (s.pc + 4)) := by
  rcases fetchImmediate_cases s with ⟨-, e⟩ | ⟨_, _, -, -, e⟩ | ⟨_, -, -, e⟩ <;> rw [e] at h
  · cases h; exact ⟨_, .inl rfl⟩
  · cases h
  · cases h; exact ⟨_, .inr rfl⟩

/-- With the immediate at hand, the rest of the handler runs past the info word. -/
theorem withImmediate_ok {s : State} {info v : Word} (k : Word → State → Out)
    (h1 : fetchData s s.pc = some info) (h2 : resolve s.pool info = some v) :
    withImmediate s k = k v (s.setPc (s.pc + 4)) := by
  simp [withImmediate, fetchImmediate, h1, h2]

theorem withImmediate_busError {s : State} (k : Word → State → Out) (h : fetchData s s.pc = none) :
    withImmediate s k = .next (raiseBusError s.pc s.insnAddr s) := by
  simp [withImmediate, fetchImmediate, h]

theorem withImmediate_poolError {s : State} {info : Word} (k : Word → State → Out)
    (h1 : fetchData s s.pc = some info) (h2 : resolve s.pool info = none) :
    withImmediate s k = .next (raisePoolError info s.insnAddr (s.setPc (s.pc + 4))) := by
  simp [withImmediate, fetchImmediate, h1, h2]

/-- What an instruction with an info word answers: an abort of the resolver, or what its handler answers. -/
theorem withImmediate_cases (s : State) (k : Word → State → Out) :
    (∃ s', fetchImmediate s = .error s' ∧ withImmediate s k = .next s') ∨
    (∃ v, fetchImmediate s = .ok (v, s.setPc (s.pc + 4)) ∧ withImmediate s k = k v (s.setPc (s.pc + 4))) := by
  simp only [withImmediate]
  cases h : fetchImmediate s with
  | error s' => exact .inl ⟨s', rfl, rfl⟩
  | ok p =>
    obtain ⟨v, s'⟩ := p
    have := fetchImmediate_ok h
    subst this
    exact .inr ⟨v, rfl, rfl⟩

theorem resolve_inline (p : Pool) {info : Word} (h : info.msb = true) : resolve p info = some (sext 31 info) := by
  simp [resolve, h]

theorem resolve_pool (p : Pool) {info : Word} (h : info.msb = false) :
    resolve p info = poolLookup p (info.setWidth 31) := by
  simp [resolve, h]

/-! ## Shared forms of meanings -/

/-- A load answers: an abort of the resolver, BusError at `EA`, or the extended value in the destination (R229). -/
theorem load_next (n : Nat) (ext : Word → Word) (rd rs : Reg) (s : State) :
    (∃ s', fetchImmediate s = .error s' ∧ load n ext rd rs s = .next s') ∨
    (∃ disp, fetchImmediate s = .ok (disp, s.setPc (s.pc + 4)) ∧
      ((∃ v, memRead s (s.reg rs + disp) n = some v ∧
          load n ext rd rs s = .next ((s.setPc (s.pc + 4)).setReg rd (ext v))) ∨
       (memRead s (s.reg rs + disp) n = none ∧
          load n ext rd rs s =
            .next (raiseBusError (s.reg rs + disp) s.insnAddr (s.setPc (s.pc + 4)))))) := by
  rcases withImmediate_cases s _ with ⟨s', h1, h2⟩ | ⟨disp, h1, h2⟩
  · exact .inl ⟨s', h1, h2⟩
  · refine .inr ⟨disp, h1, ?_⟩
    rw [load, h2]
    have e : memRead (s.setPc (s.pc + 4)) (effAddr (s.setPc (s.pc + 4)) rs disp) n =
        memRead s (s.reg rs + disp) n := rfl
    simp only [e]
    cases h : memRead s (s.reg rs + disp) n with
    | some v => exact .inl ⟨v, rfl, rfl⟩
    | none => exact .inr ⟨rfl, rfl⟩

/-- A store answers: an abort of the resolver, BusError at `EA`, or the written bytes (R229). -/
theorem store_next (n : Nat) (rd rs : Reg) (s : State) :
    (∃ s', fetchImmediate s = .error s' ∧ store n rd rs s = .next s') ∨
    (∃ disp, fetchImmediate s = .ok (disp, s.setPc (s.pc + 4)) ∧
      ((∃ t, memWrite (s.setPc (s.pc + 4)) (s.reg rs + disp) n (s.reg rd) = some t ∧
          store n rd rs s = .next t) ∨
       (memWrite (s.setPc (s.pc + 4)) (s.reg rs + disp) n (s.reg rd) = none ∧
          store n rd rs s =
            .next (raiseBusError (s.reg rs + disp) s.insnAddr (s.setPc (s.pc + 4)))))) := by
  rcases withImmediate_cases s _ with ⟨s', h1, h2⟩ | ⟨disp, h1, h2⟩
  · exact .inl ⟨s', h1, h2⟩
  · refine .inr ⟨disp, h1, ?_⟩
    rw [store, h2]
    have e : effAddr (s.setPc (s.pc + 4)) rs disp = s.reg rs + disp := rfl
    simp only [e, setPc_reg]
    cases h : memWrite (s.setPc (s.pc + 4)) (s.reg rs + disp) n (s.reg rd) with
    | some t => exact .inl ⟨t, rfl, rfl⟩
    | none => exact .inr ⟨rfl, rfl⟩

/-- The transactions of STORE change memory only, whether or not one is refused (R251, R279). -/
theorem pushWords_changes_mem (vs : List Word) (s : State) (a : Word) :
    (∃ m, pushWords s a vs = .ok (s.setMem m)) ∨
    (∃ m x, pushWords s a vs = .error (x, s.setMem m)) := by
  induction vs generalizing s a with
  | nil => exact .inl ⟨s.mem, rfl⟩
  | cons v vs ih =>
    simp only [pushWords]
    cases h : memWrite s a 4 v with
    | none => exact .inr ⟨s.mem, a, rfl⟩
    | some t =>
      obtain ⟨-, -, rfl⟩ := (memWrite_eq_some_iff ..).1 h
      rcases ih (s.setMem (s.mem.writeBytes a (bytesOf 4 v))) (a + 4) with ⟨m, e⟩ | ⟨m, x, e⟩
      · exact .inl ⟨m, e⟩
      · exact .inr ⟨m, x, e⟩

/-- The transactions of RESTORE change registers only, whether or not one is refused (R252, R279). -/
theorem popWords_changes_regs (rs : List Reg) (s : State) (a : Word) :
    (∃ g, popWords s a rs = .ok { s with regs := g }) ∨
    (∃ g x, popWords s a rs = .error (x, { s with regs := g })) := by
  induction rs generalizing s a with
  | nil => exact .inl ⟨s.regs, rfl⟩
  | cons r rs ih =>
    simp only [popWords]
    cases h : memRead s a 4 with
    | none => exact .inr ⟨s.regs, a, rfl⟩
    | some v =>
      rcases ih (s.setReg r v) (a + 4) with ⟨g, e⟩ | ⟨g, x, e⟩
      · exact .inl ⟨g, e⟩
      · exact .inr ⟨g, x, e⟩

/-- STORE's transactions keep the memory's canonical form. -/
theorem pushWords_wf {vs : List Word} {s : State} (a : Word) (h : s.mem.wf) :
    (∀ t, pushWords s a vs = .ok t → t.mem.wf) ∧ (∀ x t, pushWords s a vs = .error (x, t) → t.mem.wf) := by
  induction vs generalizing s a with
  | nil => exact ⟨fun t e => by cases e; exact h, fun x t e => by cases e⟩
  | cons v vs ih =>
    simp only [pushWords]
    cases hw : memWrite s a 4 v with
    | none => exact ⟨fun t e => by simp at e, fun x t e => by simp at e; rw [← e.2]; exact h⟩
    | some t =>
      obtain ⟨-, -, rfl⟩ := (memWrite_eq_some_iff ..).1 hw
      exact ih (a + 4) (writeBytes_wf a _ h)

end Sys2Proof.Machine
end

