-- ==== Sys2Proof/Laws/PerInstr.lean ====
section
/-!
SUPPORT. A statement for all instructions, made per instruction: the opcode an instruction is encoded with names a slot
of the table whose shape and info column are the instruction's own (spec/30_encoding.md R70, R71, R73).
-/
namespace Sys2Proof.Laws

/-- The slot of the encoded opcode has the instruction's shape and says rightly whether an info word follows. -/
def EncodedOpcodeNamesItsRow.Statement (i : Instr) : Prop :=
  (slot (opByte (encode i))).map (fun r => (r.shape, r.info)) = some (i.shape, i.hasInfo)

theorem EncodedOpcodeNamesItsRow.of_opcode {i : Instr} {op : Byte} (h : opByte (encode i) = op)
    (hs : (slot op).map (fun r => (r.shape, r.info)) = some (i.shape, i.hasInfo)) : Statement i := by
  rw [Statement, h, hs]

theorem EncodedOpcodeNamesItsRow.add (rd rs rt : Reg) :
    Statement (.add rd rs rt) := of_opcode (opByte_instrWord _ _ _ _) rfl
theorem EncodedOpcodeNamesItsRow.sub (rd rs rt : Reg) :
    Statement (.sub rd rs rt) := of_opcode (opByte_instrWord _ _ _ _) rfl
theorem EncodedOpcodeNamesItsRow.mul (rd rs rt : Reg) :
    Statement (.mul rd rs rt) := of_opcode (opByte_instrWord _ _ _ _) rfl
theorem EncodedOpcodeNamesItsRow.div (rd rs rt : Reg) :
    Statement (.div rd rs rt) := of_opcode (opByte_instrWord _ _ _ _) rfl
theorem EncodedOpcodeNamesItsRow.divu (rd rs rt : Reg) :
    Statement (.divu rd rs rt) := of_opcode (opByte_instrWord _ _ _ _) rfl
theorem EncodedOpcodeNamesItsRow.and (rd rs rt : Reg) :
    Statement (.and rd rs rt) := of_opcode (opByte_instrWord _ _ _ _) rfl
theorem EncodedOpcodeNamesItsRow.or (rd rs rt : Reg) :
    Statement (.or rd rs rt) := of_opcode (opByte_instrWord _ _ _ _) rfl
theorem EncodedOpcodeNamesItsRow.xor (rd rs rt : Reg) :
    Statement (.xor rd rs rt) := of_opcode (opByte_instrWord _ _ _ _) rfl
theorem EncodedOpcodeNamesItsRow.neg (rd rs : Reg) :
    Statement (.neg rd rs) := of_opcode (opByte_instrWord _ _ _ _) rfl
theorem EncodedOpcodeNamesItsRow.not (rd rs : Reg) :
    Statement (.not rd rs) := of_opcode (opByte_instrWord _ _ _ _) rfl
theorem EncodedOpcodeNamesItsRow.addi (rd rs : Reg) :
    Statement (.addi rd rs) := of_opcode (opByte_instrWord _ _ _ _) rfl
theorem EncodedOpcodeNamesItsRow.subi (rd rs : Reg) :
    Statement (.subi rd rs) := of_opcode (opByte_instrWord _ _ _ _) rfl
theorem EncodedOpcodeNamesItsRow.muli (rd rs : Reg) :
    Statement (.muli rd rs) := of_opcode (opByte_instrWord _ _ _ _) rfl
theorem EncodedOpcodeNamesItsRow.divi (rd rs : Reg) :
    Statement (.divi rd rs) := of_opcode (opByte_instrWord _ _ _ _) rfl
theorem EncodedOpcodeNamesItsRow.divui (rd rs : Reg) :
    Statement (.divui rd rs) := of_opcode (opByte_instrWord _ _ _ _) rfl
theorem EncodedOpcodeNamesItsRow.andi (rd rs : Reg) :
    Statement (.andi rd rs) := of_opcode (opByte_instrWord _ _ _ _) rfl
theorem EncodedOpcodeNamesItsRow.ori (rd rs : Reg) :
    Statement (.ori rd rs) := of_opcode (opByte_instrWord _ _ _ _) rfl
theorem EncodedOpcodeNamesItsRow.xori (rd rs : Reg) :
    Statement (.xori rd rs) := of_opcode (opByte_instrWord _ _ _ _) rfl
theorem EncodedOpcodeNamesItsRow.addb (rd rs rt : Reg) :
    Statement (.addb rd rs rt) := of_opcode (opByte_instrWord _ _ _ _) rfl
theorem EncodedOpcodeNamesItsRow.subb (rd rs rt : Reg) :
    Statement (.subb rd rs rt) := of_opcode (opByte_instrWord _ _ _ _) rfl
theorem EncodedOpcodeNamesItsRow.andb (rd rs rt : Reg) :
    Statement (.andb rd rs rt) := of_opcode (opByte_instrWord _ _ _ _) rfl
theorem EncodedOpcodeNamesItsRow.orb (rd rs rt : Reg) :
    Statement (.orb rd rs rt) := of_opcode (opByte_instrWord _ _ _ _) rfl
theorem EncodedOpcodeNamesItsRow.xorb (rd rs rt : Reg) :
    Statement (.xorb rd rs rt) := of_opcode (opByte_instrWord _ _ _ _) rfl
theorem EncodedOpcodeNamesItsRow.addh (rd rs rt : Reg) :
    Statement (.addh rd rs rt) := of_opcode (opByte_instrWord _ _ _ _) rfl
theorem EncodedOpcodeNamesItsRow.subh (rd rs rt : Reg) :
    Statement (.subh rd rs rt) := of_opcode (opByte_instrWord _ _ _ _) rfl
theorem EncodedOpcodeNamesItsRow.andh (rd rs rt : Reg) :
    Statement (.andh rd rs rt) := of_opcode (opByte_instrWord _ _ _ _) rfl
theorem EncodedOpcodeNamesItsRow.orh (rd rs rt : Reg) :
    Statement (.orh rd rs rt) := of_opcode (opByte_instrWord _ _ _ _) rfl
theorem EncodedOpcodeNamesItsRow.xorh (rd rs rt : Reg) :
    Statement (.xorh rd rs rt) := of_opcode (opByte_instrWord _ _ _ _) rfl
theorem EncodedOpcodeNamesItsRow.sll (rd rs rt : Reg) :
    Statement (.sll rd rs rt) := of_opcode (opByte_instrWord _ _ _ _) rfl
theorem EncodedOpcodeNamesItsRow.srl (rd rs rt : Reg) :
    Statement (.srl rd rs rt) := of_opcode (opByte_instrWord _ _ _ _) rfl
theorem EncodedOpcodeNamesItsRow.sra (rd rs rt : Reg) :
    Statement (.sra rd rs rt) := of_opcode (opByte_instrWord _ _ _ _) rfl
theorem EncodedOpcodeNamesItsRow.slli (rd rs : Reg) (sh : Nat) :
    Statement (.slli rd rs sh) := of_opcode (opByte_instrWord _ _ _ _) rfl
theorem EncodedOpcodeNamesItsRow.srli (rd rs : Reg) (sh : Nat) :
    Statement (.srli rd rs sh) := of_opcode (opByte_instrWord _ _ _ _) rfl
theorem EncodedOpcodeNamesItsRow.srai (rd rs : Reg) (sh : Nat) :
    Statement (.srai rd rs sh) := of_opcode (opByte_instrWord _ _ _ _) rfl
theorem EncodedOpcodeNamesItsRow.sllb (rd rs : Reg) (sh : Nat) :
    Statement (.sllb rd rs sh) := of_opcode (opByte_instrWord _ _ _ _) rfl
theorem EncodedOpcodeNamesItsRow.srlb (rd rs : Reg) (sh : Nat) :
    Statement (.srlb rd rs sh) := of_opcode (opByte_instrWord _ _ _ _) rfl
theorem EncodedOpcodeNamesItsRow.srab (rd rs : Reg) (sh : Nat) :
    Statement (.srab rd rs sh) := of_opcode (opByte_instrWord _ _ _ _) rfl
theorem EncodedOpcodeNamesItsRow.sllh (rd rs : Reg) (sh : Nat) :
    Statement (.sllh rd rs sh) := of_opcode (opByte_instrWord _ _ _ _) rfl
theorem EncodedOpcodeNamesItsRow.srlh (rd rs : Reg) (sh : Nat) :
    Statement (.srlh rd rs sh) := of_opcode (opByte_instrWord _ _ _ _) rfl
theorem EncodedOpcodeNamesItsRow.srah (rd rs : Reg) (sh : Nat) :
    Statement (.srah rd rs sh) := of_opcode (opByte_instrWord _ _ _ _) rfl
theorem EncodedOpcodeNamesItsRow.exsb (rd rs : Reg) :
    Statement (.exsb rd rs) := of_opcode (opByte_instrWord _ _ _ _) rfl
theorem EncodedOpcodeNamesItsRow.exsh (rd rs : Reg) :
    Statement (.exsh rd rs) := of_opcode (opByte_instrWord _ _ _ _) rfl
theorem EncodedOpcodeNamesItsRow.mov (rd rs : Reg) :
    Statement (.mov rd rs) := of_opcode (opByte_instrWord _ _ _ _) rfl
theorem EncodedOpcodeNamesItsRow.movb (rd rs : Reg) :
    Statement (.movb rd rs) := of_opcode (opByte_instrWord _ _ _ _) rfl
theorem EncodedOpcodeNamesItsRow.movh (rd rs : Reg) :
    Statement (.movh rd rs) := of_opcode (opByte_instrWord _ _ _ _) rfl
theorem EncodedOpcodeNamesItsRow.ldi (rd : Reg) :
    Statement (.ldi rd) := of_opcode (opByte_instrWord _ _ _ _) rfl
theorem EncodedOpcodeNamesItsRow.beqi (rd : Reg) (disp : Int) :
    Statement (.beqi rd disp) := of_opcode (opByte_infoBranchWord _ _ _) rfl
theorem EncodedOpcodeNamesItsRow.bnei (rd : Reg) (disp : Int) :
    Statement (.bnei rd disp) := of_opcode (opByte_infoBranchWord _ _ _) rfl
theorem EncodedOpcodeNamesItsRow.bgti (rd : Reg) (disp : Int) :
    Statement (.bgti rd disp) := of_opcode (opByte_infoBranchWord _ _ _) rfl
theorem EncodedOpcodeNamesItsRow.bgei (rd : Reg) (disp : Int) :
    Statement (.bgei rd disp) := of_opcode (opByte_infoBranchWord _ _ _) rfl
theorem EncodedOpcodeNamesItsRow.blti (rd : Reg) (disp : Int) :
    Statement (.blti rd disp) := of_opcode (opByte_infoBranchWord _ _ _) rfl
theorem EncodedOpcodeNamesItsRow.blei (rd : Reg) (disp : Int) :
    Statement (.blei rd disp) := of_opcode (opByte_infoBranchWord _ _ _) rfl
theorem EncodedOpcodeNamesItsRow.bgtui (rd : Reg) (disp : Int) :
    Statement (.bgtui rd disp) := of_opcode (opByte_infoBranchWord _ _ _) rfl
theorem EncodedOpcodeNamesItsRow.bgeui (rd : Reg) (disp : Int) :
    Statement (.bgeui rd disp) := of_opcode (opByte_infoBranchWord _ _ _) rfl
theorem EncodedOpcodeNamesItsRow.bltui (rd : Reg) (disp : Int) :
    Statement (.bltui rd disp) := of_opcode (opByte_infoBranchWord _ _ _) rfl
theorem EncodedOpcodeNamesItsRow.bleui (rd : Reg) (disp : Int) :
    Statement (.bleui rd disp) := of_opcode (opByte_infoBranchWord _ _ _) rfl
theorem EncodedOpcodeNamesItsRow.beqib (rd : Reg) (b : Int) (disp : Int) :
    Statement (.beqib rd b disp) := of_opcode (opByte_instrWord _ _ _ _) rfl
theorem EncodedOpcodeNamesItsRow.bneib (rd : Reg) (b : Int) (disp : Int) :
    Statement (.bneib rd b disp) := of_opcode (opByte_instrWord _ _ _ _) rfl
theorem EncodedOpcodeNamesItsRow.bgtib (rd : Reg) (b : Int) (disp : Int) :
    Statement (.bgtib rd b disp) := of_opcode (opByte_instrWord _ _ _ _) rfl
theorem EncodedOpcodeNamesItsRow.bgeib (rd : Reg) (b : Int) (disp : Int) :
    Statement (.bgeib rd b disp) := of_opcode (opByte_instrWord _ _ _ _) rfl
theorem EncodedOpcodeNamesItsRow.bltib (rd : Reg) (b : Int) (disp : Int) :
    Statement (.bltib rd b disp) := of_opcode (opByte_instrWord _ _ _ _) rfl
theorem EncodedOpcodeNamesItsRow.bleib (rd : Reg) (b : Int) (disp : Int) :
    Statement (.bleib rd b disp) := of_opcode (opByte_instrWord _ _ _ _) rfl
theorem EncodedOpcodeNamesItsRow.bgtuib (rd : Reg) (b : Nat) (disp : Int) :
    Statement (.bgtuib rd b disp) := of_opcode (opByte_instrWord _ _ _ _) rfl
theorem EncodedOpcodeNamesItsRow.bgeuib (rd : Reg) (b : Nat) (disp : Int) :
    Statement (.bgeuib rd b disp) := of_opcode (opByte_instrWord _ _ _ _) rfl
theorem EncodedOpcodeNamesItsRow.bltuib (rd : Reg) (b : Nat) (disp : Int) :
    Statement (.bltuib rd b disp) := of_opcode (opByte_instrWord _ _ _ _) rfl
theorem EncodedOpcodeNamesItsRow.bleuib (rd : Reg) (b : Nat) (disp : Int) :
    Statement (.bleuib rd b disp) := of_opcode (opByte_instrWord _ _ _ _) rfl
theorem EncodedOpcodeNamesItsRow.ldb (rd rs : Reg) :
    Statement (.ldb rd rs) := of_opcode (opByte_instrWord _ _ _ _) rfl
theorem EncodedOpcodeNamesItsRow.ldbu (rd rs : Reg) :
    Statement (.ldbu rd rs) := of_opcode (opByte_instrWord _ _ _ _) rfl
theorem EncodedOpcodeNamesItsRow.ldh (rd rs : Reg) :
    Statement (.ldh rd rs) := of_opcode (opByte_instrWord _ _ _ _) rfl
theorem EncodedOpcodeNamesItsRow.ldhu (rd rs : Reg) :
    Statement (.ldhu rd rs) := of_opcode (opByte_instrWord _ _ _ _) rfl
theorem EncodedOpcodeNamesItsRow.ldw (rd rs : Reg) :
    Statement (.ldw rd rs) := of_opcode (opByte_instrWord _ _ _ _) rfl
theorem EncodedOpcodeNamesItsRow.stb (rd rs : Reg) :
    Statement (.stb rd rs) := of_opcode (opByte_instrWord _ _ _ _) rfl
theorem EncodedOpcodeNamesItsRow.sth (rd rs : Reg) :
    Statement (.sth rd rs) := of_opcode (opByte_instrWord _ _ _ _) rfl
theorem EncodedOpcodeNamesItsRow.stw (rd rs : Reg) :
    Statement (.stw rd rs) := of_opcode (opByte_instrWord _ _ _ _) rfl
theorem EncodedOpcodeNamesItsRow.jpr (rd : Reg) :
    Statement (.jpr rd) := of_opcode (opByte_instrWord _ _ _ _) rfl
theorem EncodedOpcodeNamesItsRow.callr (rd : Reg) :
    Statement (.callr rd) := of_opcode (opByte_instrWord _ _ _ _) rfl
theorem EncodedOpcodeNamesItsRow.jpl :
    Statement (.jpl) := of_opcode (opByte_instrWord _ _ _ _) rfl
theorem EncodedOpcodeNamesItsRow.calll :
    Statement (.calll) := of_opcode (opByte_instrWord _ _ _ _) rfl
theorem EncodedOpcodeNamesItsRow.ret :
    Statement (.ret) := of_opcode (opByte_instrWord _ _ _ _) rfl
theorem EncodedOpcodeNamesItsRow.store (first last : Reg) :
    Statement (.store first last) := of_opcode (opByte_instrWord _ _ _ _) rfl
theorem EncodedOpcodeNamesItsRow.restore (first last : Reg) :
    Statement (.restore first last) := of_opcode (opByte_instrWord _ _ _ _) rfl
theorem EncodedOpcodeNamesItsRow.killtask :
    Statement (.killtask) := of_opcode (opByte_instrWord _ _ _ _) rfl
theorem EncodedOpcodeNamesItsRow.sleep :
    Statement (.sleep) := of_opcode (opByte_instrWord _ _ _ _) rfl
theorem EncodedOpcodeNamesItsRow.syscpy (rd rs rt : Reg) :
    Statement (.syscpy rd rs rt) := of_opcode (opByte_instrWord _ _ _ _) rfl
theorem EncodedOpcodeNamesItsRow.sysset (rd rs rt : Reg) :
    Statement (.sysset rd rs rt) := of_opcode (opByte_instrWord _ _ _ _) rfl

end Sys2Proof.Laws
end

