-- ==== Sys2Proof/Tests/Slice0.lean ====
section
/-!
SUPPORT. Tests of the model against spec/95_test_vectors.md (V numbers), one step each, and for every statement with
hypotheses a witness that meets them. Expected results are the spec's, or worked out from its rules where no vector is
named.
-/
open Sys2Proof Sys2Proof.Machine

namespace Sys2Proof.Tests

/-- Words from an address on, in storage order. -/
def putWords (m : Memory) (a : Word) : List Word → Memory
  | [] => m
  | w :: ws => putWords (m.writeBytes a (wordBytes w)) (a + 4) ws

/-- The file with some registers set and the others 0. -/
def fileOf (rs : List (Reg × Word)) : Vector Word 32 := rs.foldl (fun g p => g.set p.1 p.2) (Vector.replicate 32 0)

/-- Code at 0x1000, eight data bytes at 0x2000 as two words, `Run(5)` accepted: the spec's vectors start so. -/
def start (code : List Word) (rs : List (Reg × Word)) (data : List Word := []) (pool : Pool := [])
    (unserved : List AddrRange := []) : State :=
  loopEntry 5 (State.construct (fileOf rs) 0x1000 pool unserved (putWords (putWords [] 0x1000 code) 0x2000 data))

/-- The state one step later. -/
def after (s : State) : Option State :=
  match step s with
  | .next t => some t
  | .fault _ => none
  | .refused _ => none

/-- `r3`, `pc` and the counter after one step. -/
def seen (s : State) : Option (Word × Word × BitVec 32) := (after s).map fun t => (t.reg 3, t.pc, t.instructionRan)

end Sys2Proof.Tests

open Sys2Proof.Tests

section
set_option Elab.async false

/-! ## WellFormed: each check refuses an ill-formed term, at the values just outside its range (R62, R77) -/

theorem test_shift_count_range : WellFormed (.slli 3 4 32) = false ∧ WellFormed (.srah 3 4 32) = false ∧
    WellFormed (.slli 3 4 31) = true := by decide
theorem test_disp16_range : WellFormed (.beqi 3 32768) = false ∧ WellFormed (.bleui 3 (-32769)) = false ∧
    WellFormed (.beqi 3 32767) = true ∧ WellFormed (.beqi 3 (-32768)) = true := by decide
theorem test_disp8_range : WellFormed (.beqib 3 0 128) = false ∧ WellFormed (.bgtuib 3 0 (-129)) = false ∧
    WellFormed (.beqib 3 0 127) = true ∧ WellFormed (.bgtuib 3 0 (-128)) = true := by decide
theorem test_signed_byte_range : WellFormed (.bleib 3 128 0) = false ∧ WellFormed (.bneib 3 (-129) 0) = false ∧
    WellFormed (.beqib 3 127 0) = true := by decide
theorem test_unsigned_byte_range : WellFormed (.bleuib 3 256 0) = false ∧ WellFormed (.bgtuib 3 255 0) = true := by
  decide

/-! ## Decoding: a word of every opcode, with its fields where R62 to R67 put them -/

/-- What a word decodes to, if it does. -/
def Sys2Proof.Tests.decodes (w : Word) : Option Instr := (decodeWord w).toOption
theorem test_decode_arithmetic :
    [0x05141F01, 0x05141F02, 0x05141F03, 0x05141F04, 0x05141F05, 0x05141F06, 0x05141F07, 0x05141F08,
      0x00110309, 0x0011030A].map decodes =
    [.add 31 20 5, .sub 31 20 5, .mul 31 20 5, .div 31 20 5, .divu 31 20 5, .and 31 20 5, .or 31 20 5,
      .xor 31 20 5, .neg 3 17, .not 3 17].map some := by
  decide +kernel
theorem test_decode_immediate_arithmetic :
    [0x0011030B, 0x0011030C, 0x0011030D, 0x0011030E, 0x0011030F, 0x00110310, 0x00110311, 0x00110312].map decodes =
    [.addi 3 17, .subi 3 17, .muli 3 17, .divi 3 17, .divui 3 17, .andi 3 17, .ori 3 17, .xori 3 17].map some := by
  decide +kernel
theorem test_decode_narrow_arithmetic :
    [0x05141F13, 0x05141F14, 0x05141F15, 0x05141F16, 0x05141F17, 0x05141F18, 0x05141F19, 0x05141F1A,
      0x05141F1B, 0x05141F1C].map decodes =
    [.addb 31 20 5, .subb 31 20 5, .andb 31 20 5, .orb 31 20 5, .xorb 31 20 5, .addh 31 20 5, .subh 31 20 5,
      .andh 31 20 5, .orh 31 20 5, .xorh 31 20 5].map some := by
  decide +kernel
theorem test_decode_shifts :
    [0x05141F1D, 0x05141F1E, 0x05141F1F, 0x1F040320, 0x1F040321, 0x1F040322, 0x1F040323, 0x1F040324,
      0x1F040325, 0x1F040326, 0x1F040327, 0x1F040328].map decodes =
    [.sll 31 20 5, .srl 31 20 5, .sra 31 20 5, .slli 3 4 31, .srli 3 4 31, .srai 3 4 31, .sllb 3 4 31,
      .srlb 3 4 31, .srab 3 4 31, .sllh 3 4 31, .srlh 3 4 31, .srah 3 4 31].map some := by
  decide +kernel
theorem test_decode_moves :
    [0x00110329, 0x0011032A, 0x0011032B, 0x0011032C, 0x0011032D, 0x0000032E].map decodes =
    [.exsb 3 17, .exsh 3 17, .mov 3 17, .movb 3 17, .movh 3 17, .ldi 3].map some := by
  decide +kernel
theorem test_decode_info_branches :
    [0xFFFE1D2F, 0xFFFE1D30, 0xFFFE1D31, 0xFFFE1D32, 0xFFFE1D33, 0xFFFE1D34, 0xFFFE1D35, 0xFFFE1D36,
      0xFFFE1D37, 0xFFFE1D38].map decodes =
    [.beqi 29 (-2), .bnei 29 (-2), .bgti 29 (-2), .bgei 29 (-2), .blti 29 (-2), .blei 29 (-2),
      .bgtui 29 (-2), .bgeui 29 (-2), .bltui 29 (-2), .bleui 29 (-2)].map some := by
  decide +kernel
theorem test_decode_byte_branches :
    [0x7F801E39, 0x7F801E3A, 0x7F801E3B, 0x7F801E3C, 0x7F801E3D, 0x7F801E3E, 0x80FF1E3F, 0x80FF1E40,
      0x80FF1E41, 0x80FF1E42].map decodes =
    [.beqib 30 (-128) 127, .bneib 30 (-128) 127, .bgtib 30 (-128) 127, .bgeib 30 (-128) 127,
      .bltib 30 (-128) 127, .bleib 30 (-128) 127, .bgtuib 30 255 (-128), .bgeuib 30 255 (-128),
      .bltuib 30 255 (-128), .bleuib 30 255 (-128)].map some := by
  decide +kernel
theorem test_decode_loads_and_stores :
    [0x00110343, 0x00110344, 0x00110345, 0x00110346, 0x00110347, 0x00110348, 0x00110349, 0x0011034A].map decodes =
    [.ldb 3 17, .ldbu 3 17, .ldh 3 17, .ldhu 3 17, .ldw 3 17, .stb 3 17, .sth 3 17, .stw 3 17].map some := by
  decide +kernel
theorem test_decode_control :
    [0x0000034B, 0x0000034C, 0x0000004D, 0x0000004E, 0x0000004F].map decodes =
    [.jpr 3, .callr 3, .jpl, .calll, .ret].map some := by
  decide +kernel
theorem test_decode_frame_and_bridge :
    [0x00110350, 0x00110351, 0x00000052, 0x00000053, 0x05141F54, 0x05141F55].map decodes =
    [.store 3 17, .restore 3 17, .killtask, .sleep, .syscpy 31 20 5, .sysset 31 20 5].map some := by
  decide +kernel

/-- R68, R72: ignored bits are no reason to refuse; unassigned opcodes are refused by name, whatever the operand bits. -/
theorem test_decode_ignored_and_unassigned :
    [0xE5442301, 0xFFFFFF4F, 0xABCDEF53, 0x00000000, 0x12345656, 0xFFFFFFFF].map decodes =
    [some (.add 3 4 5), some .ret, some .sleep, none, none, none] ∧
    decodeWord 0x12345656 = .error (.unassigned 0x56) := ⟨by decide +kernel, rfl⟩

/-- The low byte of a word stands first (R48), a short fetch is refused, and the host's numbering gives the same word. -/
theorem test_decode_bytes : decode [0x01, 0x03, 0x04, 0x05, 0xAA] = .ok (.add 3 4 5, [0xAA]) ∧
    decode [0x01, 0x03, 0x04] = .error .truncated ∧ decodeTableWord 32 0x05040301 = some (.add 3 4 5) ∧
    decodeTableWord 32 0x00000056 = none ∧ encodeBytes (.add 3 4 5) = [0x01, 0x03, 0x04, 0x05] :=
  ⟨rfl, rfl, rfl, rfl, rfl⟩

/-- V1.1: the shape counts. -/
theorem test_shape_counts : ((List.range 256).filter fun n => (slot (BitVec.ofNat 8 n)).isSome).length = 85 := by
  decide +kernel

/-- The two data words and `pc` after one step. -/
def Sys2Proof.Tests.words (s : State) : Option (Option Word × Option Word × Word) :=
  (after s).map fun t => (memRead t 0x2000 4, memRead t 0x2004 4, t.pc)

/-! ## Arithmetic and logic (V2.1 to V2.3) -/
theorem test_add :
    seen (start [0x05040301] [(4, 0x00000001), (5, 0x00000002)]) = some (0x00000003, 0x1004, 1) ∧
    seen (start [0x05040301] [(4, 0x7FFFFFFF), (5, 0x00000001)]) = some (0x80000000, 0x1004, 1) := by
  decide +kernel
theorem test_sub :
    seen (start [0x05040302] [(4, 0x00000005), (5, 0x00000007)]) = some (0xFFFFFFFE, 0x1004, 1) ∧
    seen (start [0x05040302] [(4, 0x80000000), (5, 0x00000001)]) = some (0x7FFFFFFF, 0x1004, 1) := by
  decide +kernel
theorem test_mul :
    seen (start [0x05040303] [(4, 0xFFFFFFFF), (5, 0xFFFFFFFF)]) = some (0x00000001, 0x1004, 1) ∧
    seen (start [0x05040303] [(4, 0x7FFFFFFF), (5, 0x00000002)]) = some (0xFFFFFFFE, 0x1004, 1) := by
  decide +kernel
theorem test_div :
    seen (start [0x05040304] [(4, 0xFFFFFFF9), (5, 0x00000002)]) = some (0xFFFFFFFD, 0x1004, 1) ∧
    seen (start [0x05040304] [(4, 0x80000000), (5, 0xFFFFFFFF)]) = some (0x80000000, 0x1004, 1) := by
  decide +kernel
theorem test_divu :
    seen (start [0x05040305] [(4, 0x00000007), (5, 0x00000002)]) = some (0x00000003, 0x1004, 1) ∧
    seen (start [0x05040305] [(4, 0x80000000), (5, 0xFFFFFFFF)]) = some (0x00000000, 0x1004, 1) := by
  decide +kernel
theorem test_and :
    seen (start [0x05040306] [(4, 0xF0F0F0F0), (5, 0xFF00FF00)]) = some (0xF000F000, 0x1004, 1) := by
  decide +kernel
theorem test_or :
    seen (start [0x05040307] [(4, 0xF0F0F0F0), (5, 0xFF00FF00)]) = some (0xFFF0FFF0, 0x1004, 1) := by
  decide +kernel
theorem test_xor :
    seen (start [0x05040308] [(4, 0xF0F0F0F0), (5, 0xFF00FF00)]) = some (0x0FF00FF0, 0x1004, 1) ∧
    seen (start [0x05040308] [(4, 0x12345678), (5, 0x12345678)]) = some (0x00000000, 0x1004, 1) := by
  decide +kernel
theorem test_neg :
    seen (start [0x00040309] [(4, 0x00000000)]) = some (0x00000000, 0x1004, 1) ∧
    seen (start [0x00040309] [(4, 0x80000000)]) = some (0x80000000, 0x1004, 1) := by
  decide +kernel
theorem test_not :
    seen (start [0x0004030A] [(4, 0x00000000)]) = some (0xFFFFFFFF, 0x1004, 1) ∧
    seen (start [0x0004030A] [(4, 0x12345678)]) = some (0xEDCBA987, 0x1004, 1) := by
  decide +kernel
theorem test_addi :
    seen (start [0x0004030B, 0x80000003] [(4, 0x00000005)] [] [(7, .int 0x80000000)]) = some (0x00000008, 0x1008, 1) ∧
    seen (start [0x0004030B, 0x80000001] [(4, 0x7FFFFFFF)] [] [(7, .int 0x80000000)]) =
      some (0x80000000, 0x1008, 1) := by
  decide +kernel
theorem test_subi :
    seen (start [0x0004030C, 0x80000007] [(4, 0x00000005)] [] [(7, .int 0x80000000)]) = some (0xFFFFFFFE, 0x1008, 1) ∧
    seen (start [0x0004030C, 0x00000007] [(4, 0x00000000)] [] [(7, .int 0x80000000)]) =
      some (0x80000000, 0x1008, 1) := by
  decide +kernel
theorem test_muli :
    seen (start [0x0004030D, 0x80000003] [(4, 0xFFFFFFFE)] [] [(7, .int 0x80000000)]) = some (0xFFFFFFFA, 0x1008, 1) ∧
    seen (start [0x0004030D, 0x80010000] [(4, 0x00010000)] [] [(7, .int 0x80000000)]) =
      some (0x00000000, 0x1008, 1) := by
  decide +kernel
theorem test_divi :
    seen (start [0x0004030E, 0x80000002] [(4, 0xFFFFFFF9)] [] [(7, .int 0x80000000)]) = some (0xFFFFFFFD, 0x1008, 1) ∧
    seen (start [0x0004030E, 0x00000007] [(4, 0x80000000)] [] [(7, .int 0x80000000)]) =
      some (0x00000001, 0x1008, 1) := by
  decide +kernel
theorem test_divui :
    seen (start [0x0004030F, 0x80000002] [(4, 0xFFFFFFF9)] [] [(7, .int 0x80000000)]) = some (0x7FFFFFFC, 0x1008, 1) ∧
    seen (start [0x0004030F, 0x00000007] [(4, 0xFFFFFFFF)] [] [(7, .int 0x80000000)]) =
      some (0x00000001, 0x1008, 1) := by
  decide +kernel
theorem test_andi :
    seen (start [0x00040310, 0x800000FF] [(4, 0x12345678)] [] [(7, .int 0x80000000)]) = some (0x00000078, 0x1008, 1) ∧
    seen (start [0x00040310, 0xFFFFFF00] [(4, 0xFFFFFFFF)] [] [(7, .int 0x80000000)]) =
      some (0xFFFFFF00, 0x1008, 1) := by
  decide +kernel
theorem test_ori :
    seen (start [0x00040311, 0x800000FF] [(4, 0x12345678)] [] [(7, .int 0x80000000)]) =
      some (0x123456FF, 0x1008, 1) := by
  decide +kernel
theorem test_xori :
    seen (start [0x00040312, 0xFFFFFFFF] [(4, 0x12345678)] [] [(7, .int 0x80000000)]) =
      some (0xEDCBA987, 0x1008, 1) := by
  decide +kernel
theorem test_addb :
    seen (start [0x05040313] [(4, 0x123456FF), (5, 0x00000001)]) = some (0x00000000, 0x1004, 1) ∧
    seen (start [0x05040313] [(4, 0x0000007F), (5, 0x00000001)]) = some (0x00000080, 0x1004, 1) := by
  decide +kernel
theorem test_subb :
    seen (start [0x05040314] [(4, 0x12345600), (5, 0x00000001)]) = some (0x000000FF, 0x1004, 1) ∧
    seen (start [0x05040314] [(4, 0x00000010), (5, 0x00000020)]) = some (0x000000F0, 0x1004, 1) := by
  decide +kernel
theorem test_andb :
    seen (start [0x05040315] [(4, 0xFFFFFFFF), (5, 0x0F0F0F0F)]) = some (0x0000000F, 0x1004, 1) := by
  decide +kernel
theorem test_orb :
    seen (start [0x05040316] [(4, 0xFFFF0000), (5, 0x00000F0F)]) = some (0x0000000F, 0x1004, 1) := by
  decide +kernel
theorem test_xorb :
    seen (start [0x05040317] [(4, 0xFFFFFFFF), (5, 0x0000FFFF)]) = some (0x00000000, 0x1004, 1) := by
  decide +kernel
theorem test_addh :
    seen (start [0x05040318] [(4, 0x123456FF), (5, 0x00000001)]) = some (0x00005700, 0x1004, 1) ∧
    seen (start [0x05040318] [(4, 0x1234FFFF), (5, 0x00000001)]) = some (0x00000000, 0x1004, 1) := by
  decide +kernel
theorem test_subh :
    seen (start [0x05040319] [(4, 0x12345600), (5, 0x00000001)]) = some (0x000055FF, 0x1004, 1) ∧
    seen (start [0x05040319] [(4, 0x00000010), (5, 0x00000020)]) = some (0x0000FFF0, 0x1004, 1) := by
  decide +kernel
theorem test_andh :
    seen (start [0x0504031A] [(4, 0xFFFFFFFF), (5, 0x0F0F0F0F)]) = some (0x00000F0F, 0x1004, 1) := by
  decide +kernel
theorem test_orh :
    seen (start [0x0504031B] [(4, 0xFFFF0000), (5, 0x00000F0F)]) = some (0x00000F0F, 0x1004, 1) := by
  decide +kernel
theorem test_xorh :
    seen (start [0x0504031C] [(4, 0xFFFFFFFF), (5, 0x0000FFFF)]) = some (0x00000000, 0x1004, 1) := by
  decide +kernel

/-! ## Shifts (V2.4) -/
theorem test_sll :
    seen (start [0x0504031D] [(4, 0x80000001), (5, 0x00000020)]) = some (0x80000001, 0x1004, 1) ∧
    seen (start [0x0504031D] [(4, 0x80000001), (5, 0xFFFFFFFF)]) = some (0x80000000, 0x1004, 1) := by
  decide +kernel
theorem test_srl :
    seen (start [0x0504031E] [(4, 0x80000001), (5, 0x00000020)]) = some (0x80000001, 0x1004, 1) ∧
    seen (start [0x0504031E] [(4, 0x80000001), (5, 0xFFFFFFFF)]) = some (0x00000001, 0x1004, 1) := by
  decide +kernel
theorem test_sra :
    seen (start [0x0504031F] [(4, 0x80000001), (5, 0x00000020)]) = some (0x80000001, 0x1004, 1) ∧
    seen (start [0x0504031F] [(4, 0x80000001), (5, 0xFFFFFFFF)]) = some (0xFFFFFFFF, 0x1004, 1) := by
  decide +kernel
theorem test_slli :
    seen (start [0x1F040320] [(4, 0x80000001)]) = some (0x80000000, 0x1004, 1) ∧
    seen (start [0xE4040320] [(4, 0x00000001)]) = some (0x00000010, 0x1004, 1) := by
  decide +kernel
theorem test_srli :
    seen (start [0x1F040321] [(4, 0x80000001)]) = some (0x00000001, 0x1004, 1) ∧
    seen (start [0x04040321] [(4, 0xF0000000)]) = some (0x0F000000, 0x1004, 1) := by
  decide +kernel
theorem test_srai :
    seen (start [0x1F040322] [(4, 0x80000001)]) = some (0xFFFFFFFF, 0x1004, 1) ∧
    seen (start [0x04040322] [(4, 0xF0000000)]) = some (0xFF000000, 0x1004, 1) := by
  decide +kernel
theorem test_sllb :
    seen (start [0x07040323] [(4, 0x12345681)]) = some (0x00000080, 0x1004, 1) ∧
    seen (start [0x08040323] [(4, 0x12345681)]) = some (0x00000000, 0x1004, 1) := by
  decide +kernel
theorem test_srlb :
    seen (start [0x07040324] [(4, 0x12345681)]) = some (0x00000001, 0x1004, 1) ∧
    seen (start [0x08040324] [(4, 0x12345681)]) = some (0x00000000, 0x1004, 1) := by
  decide +kernel
theorem test_srab :
    seen (start [0x07040325] [(4, 0x12345681)]) = some (0x000000FF, 0x1004, 1) ∧
    seen (start [0x08040325] [(4, 0x12345681)]) = some (0x000000FF, 0x1004, 1) := by
  decide +kernel
theorem test_sllh :
    seen (start [0x0F040326] [(4, 0x12348001)]) = some (0x00008000, 0x1004, 1) ∧
    seen (start [0x10040326] [(4, 0x12348001)]) = some (0x00000000, 0x1004, 1) := by
  decide +kernel
theorem test_srlh :
    seen (start [0x0F040327] [(4, 0x12348001)]) = some (0x00000001, 0x1004, 1) ∧
    seen (start [0x10040327] [(4, 0x12348001)]) = some (0x00000000, 0x1004, 1) := by
  decide +kernel
theorem test_srah :
    seen (start [0x0F040328] [(4, 0x12348001)]) = some (0x0000FFFF, 0x1004, 1) ∧
    seen (start [0x10040328] [(4, 0x12348001)]) = some (0x0000FFFF, 0x1004, 1) := by
  decide +kernel

/-! ## Move, extend, load immediate (V2.5) -/
theorem test_exsb :
    seen (start [0x00040329] [(4, 0x1234567F)] [] [(3, .int 0x2A), (0, .int 0xDEADBEEF)]) =
      some (0x0000007F, 0x1004, 1) ∧
    seen (start [0x00040329] [(4, 0x000000FF)] [] [(3, .int 0x2A), (0, .int 0xDEADBEEF)]) =
      some (0xFFFFFFFF, 0x1004, 1) := by
  decide +kernel
theorem test_exsh :
    seen (start [0x0004032A] [(4, 0x12347FFF)] [] [(3, .int 0x2A), (0, .int 0xDEADBEEF)]) =
      some (0x00007FFF, 0x1004, 1) ∧
    seen (start [0x0004032A] [(4, 0x12348000)] [] [(3, .int 0x2A), (0, .int 0xDEADBEEF)]) =
      some (0xFFFF8000, 0x1004, 1) := by
  decide +kernel
theorem test_mov :
    seen (start [0x0004032B] [(4, 0xDEADBEEF)] [] [(3, .int 0x2A), (0, .int 0xDEADBEEF)]) =
      some (0xDEADBEEF, 0x1004, 1) := by
  decide +kernel
theorem test_movb :
    seen (start [0x0004032C] [(4, 0xDEADBEEF)] [] [(3, .int 0x2A), (0, .int 0xDEADBEEF)]) =
      some (0x000000EF, 0x1004, 1) := by
  decide +kernel
theorem test_movh :
    seen (start [0x0004032D] [(4, 0xDEADBEEF)] [] [(3, .int 0x2A), (0, .int 0xDEADBEEF)]) =
      some (0x0000BEEF, 0x1004, 1) := by
  decide +kernel
theorem test_ldi :
    seen (start [0x0000032E, 0xC0000000] [] [] [(3, .int 0x2A), (0, .int 0xDEADBEEF)]) =
      some (0xC0000000, 0x1008, 1) ∧
    seen (start [0x0000032E, 0x00000000] [] [] [(3, .int 0x2A), (0, .int 0xDEADBEEF)]) =
      some (0xDEADBEEF, 0x1008, 1) := by
  decide +kernel

/-! ## Branches (V2.6, V2.7) -/
theorem test_beqi :
    seen (start [0x0004032F, 0x80000005] [(3, 0x00000005)]) = some (0x00000005, 0x1018, 1) ∧
    seen (start [0x0004032F, 0x80000006] [(3, 0x00000005)]) = some (0x00000005, 0x1008, 1) := by
  decide +kernel
theorem test_bnei :
    seen (start [0x00040330, 0x80000005] [(3, 0x00000005)]) = some (0x00000005, 0x1008, 1) ∧
    seen (start [0x00040330, 0x80000006] [(3, 0x00000005)]) = some (0x00000005, 0x1018, 1) := by
  decide +kernel
theorem test_bgti :
    seen (start [0x00040331, 0x80000001] [(3, 0xFFFFFFFF)]) = some (0xFFFFFFFF, 0x1008, 1) ∧
    seen (start [0x00040331, 0xFFFFFFFF] [(3, 0x00000001)]) = some (0x00000001, 0x1018, 1) := by
  decide +kernel
theorem test_bgei :
    seen (start [0x00040332, 0x80000001] [(3, 0xFFFFFFFF)]) = some (0xFFFFFFFF, 0x1008, 1) ∧
    seen (start [0x00040332, 0xFFFFFFFF] [(3, 0x00000001)]) = some (0x00000001, 0x1018, 1) := by
  decide +kernel
theorem test_blti :
    seen (start [0x00040333, 0x80000001] [(3, 0xFFFFFFFF)]) = some (0xFFFFFFFF, 0x1018, 1) ∧
    seen (start [0x00040333, 0xFFFFFFFF] [(3, 0x00000001)]) = some (0x00000001, 0x1008, 1) := by
  decide +kernel
theorem test_blei :
    seen (start [0x00040334, 0x80000001] [(3, 0xFFFFFFFF)]) = some (0xFFFFFFFF, 0x1018, 1) ∧
    seen (start [0x00040334, 0xFFFFFFFF] [(3, 0x00000001)]) = some (0x00000001, 0x1008, 1) := by
  decide +kernel
theorem test_bgtui :
    seen (start [0x00040335, 0x80000001] [(3, 0xFFFFFFFF)]) = some (0xFFFFFFFF, 0x1018, 1) ∧
    seen (start [0x00040335, 0xFFFFFFFF] [(3, 0x00000001)]) = some (0x00000001, 0x1008, 1) := by
  decide +kernel
theorem test_bgeui :
    seen (start [0x00040336, 0x80000001] [(3, 0xFFFFFFFF)]) = some (0xFFFFFFFF, 0x1018, 1) ∧
    seen (start [0x00040336, 0xFFFFFFFF] [(3, 0x00000001)]) = some (0x00000001, 0x1008, 1) := by
  decide +kernel
theorem test_bltui :
    seen (start [0x00040337, 0x80000001] [(3, 0xFFFFFFFF)]) = some (0xFFFFFFFF, 0x1008, 1) ∧
    seen (start [0x00040337, 0xFFFFFFFF] [(3, 0x00000001)]) = some (0x00000001, 0x1018, 1) := by
  decide +kernel
theorem test_bleui :
    seen (start [0x00040338, 0x80000001] [(3, 0xFFFFFFFF)]) = some (0xFFFFFFFF, 0x1008, 1) ∧
    seen (start [0x00040338, 0xFFFFFFFF] [(3, 0x00000001)]) = some (0x00000001, 0x1018, 1) := by
  decide +kernel
theorem test_beqib :
    seen (start [0x03800339] [(3, 0xFFFFFF80)]) = some (0xFFFFFF80, 0x1010, 1) ∧
    seen (start [0x03FF0339] [(3, 0x000000FF)]) = some (0x000000FF, 0x1004, 1) := by
  decide +kernel
theorem test_bneib :
    seen (start [0x0380033A] [(3, 0xFFFFFF80)]) = some (0xFFFFFF80, 0x1004, 1) ∧
    seen (start [0x03FF033A] [(3, 0x000000FF)]) = some (0x000000FF, 0x1010, 1) := by
  decide +kernel
theorem test_bgtib :
    seen (start [0x03FF033B] [(3, 0xFFFFFFFF)]) = some (0xFFFFFFFF, 0x1004, 1) ∧
    seen (start [0x0380033B] [(3, 0x00000000)]) = some (0x00000000, 0x1010, 1) := by
  decide +kernel
theorem test_bgeib :
    seen (start [0x03FF033C] [(3, 0xFFFFFFFF)]) = some (0xFFFFFFFF, 0x1010, 1) ∧
    seen (start [0x0380033C] [(3, 0x00000000)]) = some (0x00000000, 0x1010, 1) := by
  decide +kernel
theorem test_bltib :
    seen (start [0x03FF033D] [(3, 0xFFFFFFFF)]) = some (0xFFFFFFFF, 0x1004, 1) ∧
    seen (start [0x0380033D] [(3, 0x00000000)]) = some (0x00000000, 0x1004, 1) := by
  decide +kernel
theorem test_bleib :
    seen (start [0x03FF033E] [(3, 0xFFFFFFFF)]) = some (0xFFFFFFFF, 0x1010, 1) ∧
    seen (start [0x0380033E] [(3, 0x00000000)]) = some (0x00000000, 0x1004, 1) := by
  decide +kernel
theorem test_bgtuib :
    seen (start [0x03FF033F] [(3, 0x000000FF)]) = some (0x000000FF, 0x1004, 1) ∧
    seen (start [0x0380033F] [(3, 0x00000000)]) = some (0x00000000, 0x1004, 1) := by
  decide +kernel
theorem test_bgeuib :
    seen (start [0x03FF0340] [(3, 0x000000FF)]) = some (0x000000FF, 0x1010, 1) ∧
    seen (start [0x03800340] [(3, 0x00000000)]) = some (0x00000000, 0x1004, 1) := by
  decide +kernel
theorem test_bltuib :
    seen (start [0x03FF0341] [(3, 0x000000FF)]) = some (0x000000FF, 0x1004, 1) ∧
    seen (start [0x03800341] [(3, 0x00000000)]) = some (0x00000000, 0x1010, 1) := by
  decide +kernel
theorem test_bleuib :
    seen (start [0x03FF0342] [(3, 0x000000FF)]) = some (0x000000FF, 0x1010, 1) ∧
    seen (start [0x03800342] [(3, 0x00000000)]) = some (0x00000000, 0x1010, 1) := by
  decide +kernel

/-! ## Loads and stores (V2.8) -/
theorem test_ldb :
    seen (start [0x00040343, 0xFFFFFFFC] [(3, 0xA1B2C3D4), (4, 0x00002004)] [0x1234F180, 0xFFFF007F]) =
      some (0xFFFFFF80, 0x1008, 1) ∧
    seen (start [0x00040343, 0xFFFFFFFD] [(3, 0xA1B2C3D4), (4, 0x00002004)] [0x1234F180, 0xFFFF007F]) =
      some (0xFFFFFFF1, 0x1008, 1) := by
  decide +kernel
theorem test_ldbu :
    seen (start [0x00040344, 0x80000002] [(3, 0xA1B2C3D4), (4, 0x00002004)] [0x1234F180, 0xFFFF007F]) =
      some (0x000000FF, 0x1008, 1) ∧
    seen (start [0x00040344, 0x80000002] [(3, 0xA1B2C3D4), (4, 0x00002004)] [0x1234F180, 0xFFFF007F]) =
      some (0x000000FF, 0x1008, 1) := by
  decide +kernel
theorem test_ldh :
    seen (start [0x00040345, 0xFFFFFFFC] [(3, 0xA1B2C3D4), (4, 0x00002004)] [0x1234F180, 0xFFFF007F]) =
      some (0xFFFFF180, 0x1008, 1) ∧
    seen (start [0x00040345, 0x80000001] [(3, 0xA1B2C3D4), (4, 0x00002004)] [0x1234F180, 0xFFFF007F]) =
      some (0xA1B2C3D4, 0x1008, 0) := by
  decide +kernel
theorem test_ldhu :
    seen (start [0x00040346, 0x80000002] [(3, 0xA1B2C3D4), (4, 0x00002004)] [0x1234F180, 0xFFFF007F]) =
      some (0x0000FFFF, 0x1008, 1) ∧
    seen (start [0x00040346, 0x80000002] [(3, 0xA1B2C3D4), (4, 0x00002004)] [0x1234F180, 0xFFFF007F]) =
      some (0x0000FFFF, 0x1008, 1) := by
  decide +kernel
theorem test_ldw :
    seen (start [0x00040347, 0xFFFFFFFC] [(3, 0xA1B2C3D4), (4, 0x00002004)] [0x1234F180, 0xFFFF007F]) =
      some (0x1234F180, 0x1008, 1) ∧
    seen (start [0x00040347, 0xFFFFFFFE] [(3, 0xA1B2C3D4), (4, 0x00002004)] [0x1234F180, 0xFFFF007F]) =
      some (0xA1B2C3D4, 0x1008, 0) := by
  decide +kernel
theorem test_stb :
    words (start [0x00040348, 0x80000003] [(3, 0xA1B2C3D4), (4, 0x00002004)] [0x1234F180, 0xFFFF007F]) =
      some (some 0x1234F180, some 0xD4FF007F, 0x1008) ∧
    words (start [0x00040348, 0xFFFFFFFF] [(3, 0xA1B2C3D4), (4, 0x00002004)] [0x1234F180, 0xFFFF007F]) =
      some (some 0xD434F180, some 0xFFFF007F, 0x1008) := by
  decide +kernel
theorem test_sth :
    words (start [0x00040349, 0xFFFFFFFE] [(3, 0xA1B2C3D4), (4, 0x00002004)] [0x1234F180, 0xFFFF007F]) =
      some (some 0xC3D4F180, some 0xFFFF007F, 0x1008) ∧
    seen (start [0x00040349, 0x80000001] [(3, 0xA1B2C3D4), (4, 0x00002004)] [0x1234F180, 0xFFFF007F]) =
      some (0xA1B2C3D4, 0x1008, 0) := by
  decide +kernel
theorem test_stw :
    words (start [0x0004034A, 0xFFFFFFFC] [(3, 0xA1B2C3D4), (4, 0x00002004)] [0x1234F180, 0xFFFF007F]) =
      some (some 0xA1B2C3D4, some 0xFFFF007F, 0x1008) ∧
    seen (start [0x0004034A, 0x80000002] [(3, 0xA1B2C3D4), (4, 0x00002004)] [0x1234F180, 0xFFFF007F]) =
      some (0xA1B2C3D4, 0x1008, 0) := by
  decide +kernel

/-! ## Control transfer (V2.9) -/

/-- `pc`, `r2` and the counter after one step. -/
def Sys2Proof.Tests.linked (s : State) : Option (Word × Word × BitVec 32) :=
  (after s).map fun t => (t.pc, t.reg 2, t.instructionRan)

theorem test_jpr :
    linked (start [0x0000054B] [(2, 0xAAAA0000), (5, 0x3000)]) = some (0x3000, 0xAAAA0000, 1) ∧
    linked (start [0x0000054B] [(2, 0xAAAA0000), (5, 0x3002)]) = some (0x3002, 0xAAAA0000, 1) := by decide +kernel
theorem test_callr :
    linked (start [0x0000054C] [(2, 0xAAAA0000), (5, 0x3000)]) = some (0x3000, 0x1004, 1) ∧
    linked (start [0x0000024C] [(2, 0x3000)]) = some (0x3000, 0x1004, 1) := by decide +kernel
theorem test_jpl :
    linked (start [0x0000004D, 0xFFFFFFFE] [(2, 0xAAAA0000)]) = some (0x1000, 0xAAAA0000, 1) ∧
    linked (start [0x0000004D, 0x80000100] [(2, 0xAAAA0000)]) = some (0x1408, 0xAAAA0000, 1) := by decide +kernel
theorem test_calll :
    linked (start [0x0000004E, 0x8000003E] []) = some (0x1100, 0x1008, 1) ∧
    linked (start [0x0000004E, 0xFFFFFC00] []) = some (0x0008, 0x1008, 1) := by decide +kernel
/-- The info word of JPl and CALLl refused: BusError, no jump and no link, `pc` as at the raise (R100, R279). -/
theorem test_relative_jump_refused (s : State) (h : fetchData s s.pc = none) :
    ∃ t, exec .jpl s = .next t ∧ exec .calll s = .next t ∧ t.regs = s.regs ∧ t.pc = s.pc :=
  ⟨_, withImmediate_busError _ h, withImmediate_busError _ h, rfl, rfl⟩
theorem test_ret :
    linked (start [0x0000004F] [(2, 0x1234)]) = some (0x1234, 0x1234, 1) ∧
    linked (start [0xFFFFFF4F] [(2, 0x1234)]) = some (0x1234, 0x1234, 1) := by decide +kernel

/-! ## Frame and task (V2.10, V2.13) -/

/-- `s` with words put in memory. -/
def Sys2Proof.Tests.holding (a : Word) (ws : List Word) (s : State) : State := s.setMem (putWords s.mem a ws)

/-- `r1` and the three words below 0x8000 after one step. -/
def Sys2Proof.Tests.stacked (s : State) : Option (Word × List (Option Word)) :=
  (after s).map fun t => (t.reg 1, [0x7FF4, 0x7FF8, 0x7FFC].map fun a => memRead t a 4)

theorem test_store :
    stacked (start [0x00060450] [(1, 0x8000), (4, 0x44), (5, 0x55), (6, 0x66)]) =
      some (0x7FF4, [some 0x44, some 0x55, some 0x66]) ∧
    stacked (start [0x00020150] [(1, 0x8000), (2, 0x1008)]) = some (0x7FF8, [some 0, some 0x8000, some 0x1008]) := by
  decide +kernel
theorem test_store_empty_and_wrapping :
    stacked (start [0x00040650] [(1, 0x8000), (6, 0x66)]) = some (0x8000, [some 0, some 0, some 0]) ∧
    (after (start [0x00050450] [(1, 4), (4, 0x44), (5, 0x55)])).map
      (fun t => (t.reg 1, memRead t 0xFFFFFFFC 4, memRead t 0 4)) = some (0xFFFFFFFC, some 0x44, some 0x55) := by
  decide +kernel
theorem test_restore :
    (after (holding 0x7FF4 [0xA, 0xB, 0xC] (start [0x00060451] [(1, 0x7FF4)]))).map
      (fun t => (t.reg 1, t.reg 4, t.reg 5, t.reg 6)) = some (0x8000, 0xA, 0xB, 0xC) ∧
    (after (holding 0x7FF4 [0xA, 0xB, 0xC] (start [0x00020151] [(1, 0x7FF4)]))).map
      (fun t => (t.reg 1, t.reg 2)) = some (0x7FFC, 0xB) := by decide +kernel
theorem test_restore_empty :
    (after (holding 0x7FF4 [0xA, 0xB] (start [0x00040651] [(1, 0x7FF4)]))).map
      (fun t => (t.regs, t.instructionRan)) = some (fileOf [(1, 0x7FF4)], 1) := by decide +kernel
theorem test_killtask :
    (after (start [0x00000052] [])).map (fun t => (t.event, t.shouldStop, t.pc, t.instructionRan)) =
      some (.terminated, true, 0x1004, 1) := by decide +kernel
theorem test_sleep :
    (after (start [0xABCDEF53] [])).map (fun t => (t.event, t.shouldStop, t.pc, t.instructionRan)) =
      some (.yield, true, 0x1004, 1) := by decide +kernel

/-! ## Bridge (V2.11) -/

/-- The bytes 0x2000 to 0x2007 after one step over `10 11 12 13 14 15 16 17`; the vectors' 0x3000 is 0x2000 here. -/
def Sys2Proof.Tests.copied (w : Word) (rs : List (Reg × Word)) : Option (List Byte) :=
  (after (start [w] rs [0x13121110, 0x17161514])).map fun t => t.mem.readBytes 0x2000 8

theorem test_syscpy_overlap :
    copied 0x06050454 [(4, 0x2002), (5, 0x2000), (6, 4)] = some [0x10, 0x11, 0x10, 0x11, 0x12, 0x13, 0x16, 0x17] ∧
    copied 0x06050454 [(4, 0x2000), (5, 0x2002), (6, 4)] = some [0x12, 0x13, 0x14, 0x15, 0x14, 0x15, 0x16, 0x17] := by
  decide +kernel
theorem test_syscpy :
    copied 0x06050454 [(4, 0x2005), (5, 0x2001), (6, 3)] = some [0x10, 0x11, 0x12, 0x13, 0x14, 0x11, 0x12, 0x13] ∧
    copied 0x06050454 [(4, 0x2004), (5, 0x2000), (6, 0)] = some [0x10, 0x11, 0x12, 0x13, 0x14, 0x15, 0x16, 0x17] := by
  decide +kernel
theorem test_sysset :
    copied 0x06050455 [(4, 0x2001), (5, 0xAB), (6, 3)] = some [0x10, 0xAB, 0xAB, 0xAB, 0x14, 0x15, 0x16, 0x17] ∧
    copied 0x06050455 [(4, 0x2007), (5, 0x1FF), (6, 1)] = some [0x10, 0x11, 0x12, 0x13, 0x14, 0x15, 0x16, 0xFF] := by
  decide +kernel

/-! ## Fatal errors (V2.12) -/

/-- The latch, `pc`, the counter, the run state and `r3` after one step. -/
def Sys2Proof.Tests.raised (s : State) : Option (Option FaultRecord × Word × BitVec 32 × Bool × Word) :=
  (after s).map fun t => (t.fault, t.pc, t.instructionRan, t.isRunning, t.reg 3)

theorem test_decode_error :
    raised (start [0x12345656] [(3, 0x33)]) = some (some ⟨.decodeError, 0x56, 0x1000, 0, 0⟩, 0x1000, 0, false, 0x33) ∧
    raised (start [] [(3, 0x33)]) = some (some ⟨.decodeError, 0, 0x1000, 0, 0⟩, 0x1000, 0, false, 0x33) := by
  decide +kernel
theorem test_pool_error :
    raised (start [0x0000032E, 0x00000009] [(3, 0x33)] [] [(9, .nonInt)]) =
      some (some ⟨.poolError, 0, 0x1000, 9, 0⟩, 0x1008, 0, false, 0x33) ∧
    raised (start [0x0003030B, 0x7FFFFFFF] [(3, 0x33)]) =
      some (some ⟨.poolError, 0, 0x1000, 0x7FFFFFFF, 0⟩, 0x1008, 0, false, 0x33) := by decide +kernel
theorem test_divide_error :
    raised (start [0x05030304] [(3, 0x33)]) = some (some ⟨.divideError, 0, 0x1000, 0, 0⟩, 0x1004, 0, false, 0x33) ∧
    raised (start [0x0003030F, 0x80000000] [(3, 0x33)]) =
      some (some ⟨.divideError, 0, 0x1000, 0, 0⟩, 0x1008, 0, false, 0x33) := by decide +kernel
theorem test_misaligned_pc :
    raised ((start [0x0003052B] [(3, 0x33)]).setPc 0x1002) =
      some (some ⟨.misalignedPC, 0, 0x1002, 0, 0⟩, 0x1002, 0, false, 0x33) := by decide +kernel
theorem test_bus_error :
    raised (start [0x00040345, 0x80000001] [(3, 0x33), (4, 0x2000)]) =
      some (some ⟨.busError, 0, 0x1000, 0, 0x2001⟩, 0x1008, 0, false, 0x33) ∧
    raised (start [0x00050450] [(1, 0x8002), (3, 0x33), (4, 0x44)]) =
      some (some ⟨.busError, 0, 0x1000, 0, 0x7FFA⟩, 0x1004, 0, false, 0x33) := by decide +kernel

/-- An address outside MEM_MAP (R52, R58): a refused instruction fetch, and a refused bulk destination. -/
theorem test_unserved :
    raised (start [0x0003052B] [(3, 0x33)] [] [] [⟨0x1000, 4⟩]) =
      some (some ⟨.busError, 0, 0x1000, 0, 0x1000⟩, 0x1000, 0, false, 0x33) ∧
    raised (start [0x06050455] [(3, 0x33), (4, 0x2000), (6, 8)] [] [] [⟨0x2007, 1⟩]) =
      some (some ⟨.busError, 0, 0x1000, 0, 0x2000⟩, 0x1004, 0, false, 0x33) := by decide +kernel

/-! ## The host (V1.6, V1.8, V2.0) -/

/-- A `Run` while Running changes the answer only (V1.8), and a register write while Running is refused. -/
theorem test_host_while_running :
    after { start [0x0003052B] [] with hostMoves := [.run 9] } =
      some { start [0x0003052B] [] with answer := some (.error .reentrancyError) } ∧
    (after { start [0x0003052B] [] with hostMoves := [.writeReg 3 1] }).isNone = true := by decide +kernel
/-- `Run(0)` fetches nothing (R96): loop entry, then the loop-top check. -/
theorem test_run_zero :
    (after { State.reset with hostMoves := [.run 0] }).bind after = some { State.reset with answer := some .ok } := by
  decide +kernel
/-- A `Stop()` before loop entry is lost (R304). -/
theorem test_stop_is_lost :
    ((after { State.reset with hostMoves := [.stop, .run 5] }).bind after).map (fun t => (t.shouldStop, t.isRunning)) =
      some (false, true) := by decide +kernel
/-- From reset with nothing placed the core is Idle and a step changes nothing (R285, R300). -/
theorem test_reset_is_idle : after State.reset = some State.reset := by decide +kernel
/-- The host's placement: the first step after reset runs the placed instruction; the info word of zeros that follows
LDI is index 0 of the empty pool. -/
theorem test_with_fetch_word :
    (after (State.reset.withFetchWord 32 0x0005032B)).map (fun t => (t.pc, t.instructionRan, t.fault)) =
      some (4, 1, none) ∧
    (after (State.reset.withFetchWord 32 0x0000032E)).map (fun t => (t.pc, t.fault)) =
      some (8, some ⟨.poolError, 0, 0, 0, 0⟩) := by decide +kernel

/-! ## The assembler's choices (R74) and the fixed-point helpers (R152) -/

theorem test_inline_info :
    inlineInfo 0x3FFFFFFF = some 0xBFFFFFFF ∧ inlineInfo 0xC0000000 = some 0xC0000000 ∧
    inlineInfo 0x40000000 = none ∧ inlineInfo 0xBFFFFFFF = none ∧ poolInfo 3 = 3 := by decide +kernel
theorem test_real_to_fixed :
    realToFixed (3 / 2) = 24576 ∧ realToFixed9 (-1 / 2048) = 0 ∧ realToFixed9 (-3 / 2) = 0xFFFFFA00 := by
  decide +kernel

/-! ## Witnesses: for each statement with hypotheses, a state and operands that meet them -/

/-- The next state of an outcome. -/
def Sys2Proof.Tests.nextOf : Out → Option State
  | .next t => some t
  | .fault _ => none
  | .refused _ => none

theorem Sys2Proof.Tests.eq_next {o : Out} (h : (nextOf o).isSome = true) : o = .next ((nextOf o).get h) := by
  cases o <;> first | rfl | cases h

/-- The handler-entry state of `start`: `pc` past the instruction word. -/
def Sys2Proof.Tests.entry (code : List Word) (rs : List (Reg × Word)) (data : List Word := []) (pool : Pool := [])
    (unserved : List AddrRange := []) : State :=
  (start code rs data pool unserved).setPc 0x1004

theorem witness_OpcodeAloneDecidesRefusalAndShape :
    ((0x12345600 : Word).extractLsb' 0 8).toNat = 0 ∧ 0x56 ≤ ((0x12345656 : Word).extractLsb' 0 8).toNat ∧
    1 ≤ ((0x05040301 : Word).extractLsb' 0 8).toNat ∧ ((0x06050455 : Word).extractLsb' 0 8).toNat ≤ 0x55 := by decide
theorem witness_DecodeOfEncodeIsTheInstruction :
    WellFormed (.bgtuib 31 255 (-128)) = true ∧ WellFormed (.srah 3 4 31) = true ∧
    WellFormed (.beqi 3 (-32768)) = true := by decide
theorem witness_DecodedWordsAreWellFormedAndCanonical : decodeWord 0xE5442301 = .ok (.add 3 4 5) := rfl
theorem witness_StepRunsTheDecodedInstruction :
    ∃ (s t : State) (w : Word) (i : Instr), atIteration s ∧ s.pc.toNat % 4 = 0 ∧ fetchInsn s s.pc = some w ∧
      decodeWord w = .ok i ∧ exec i { s with pc := s.pc + 4 } = .next t :=
  ⟨start [0x05040301] [(4, 1)], _, 0x05040301, .add 3 4 5, ⟨rfl, rfl, rfl, by decide⟩, by decide,
    by decide +kernel, rfl, rfl⟩
/-- A misaligned `pc`, a refused fetch, an unassigned opcode at each end of the two ranges. -/
theorem witness_LoopRaisesInOrder :
    (∃ s, atIteration s ∧ s.pc.toNat % 4 ≠ 0) ∧
    (∃ s, atIteration s ∧ s.pc.toNat % 4 = 0 ∧ fetchInsn s s.pc = none) ∧
    (∀ w ∈ [(0x00000000 : Word), 0x00000056, 0x000000FF], atIteration (start [w] []) ∧
      (start [w] []).pc.toNat % 4 = 0 ∧ fetchInsn (start [w] []) (start [w] []).pc = some w ∧
      ((w.extractLsb' 0 8).toNat = 0 ∨ 0x56 ≤ (w.extractLsb' 0 8).toNat)) :=
  ⟨⟨(start [] []).setPc 0x1002, ⟨rfl, rfl, rfl, by decide⟩, by decide⟩,
   ⟨start [] [] [] [] [⟨0x1000, 1⟩], ⟨rfl, rfl, rfl, by decide⟩, by decide, by decide +kernel⟩,
   fun w hw => by
    simp only [List.mem_cons, List.not_mem_nil, or_false] at hw
    rcases hw with rfl | rfl | rfl <;> exact ⟨⟨rfl, rfl, rfl, by decide⟩, by decide, by decide +kernel⟩⟩
theorem witness_LoopExitsAtTheLoopTop :
    (∃ s, hostQuiet s ∧ s.isRunning = true ∧ s.shouldStop = true) ∧
    (∃ s, hostQuiet s ∧ s.isRunning = true ∧ s.budget.toNat ≤ s.instructionRan.toNat) ∧
    (∃ s, hostQuiet s ∧ s.isRunning = false) :=
  ⟨⟨hostStop (start [] []), rfl, rfl, rfl⟩, ⟨{ start [] [] with instructionRan := 5 }, rfl, rfl, by decide⟩,
   ⟨State.reset, rfl, rfl⟩⟩
theorem witness_HostRunAndStop :
    (∃ s : State, s.hostMoves = [.run 5] ∧ s.isRunning = false) ∧ (∃ s : State, s.hostMoves = [.run 0] ∧ s.isRunning = true) ∧
    (∃ s : State, s.hostMoves = [.stop]) :=
  ⟨⟨{ State.reset with hostMoves := [.run 5] }, rfl, rfl⟩, ⟨{ start [] [] with hostMoves := [.run 0] }, rfl, rfl⟩,
   ⟨{ State.reset with hostMoves := [.stop] }, rfl⟩⟩
theorem witness_HostWritesOnlyWhileIdle :
    ∀ m ∈ [HostMove.writeReg 31 7, .writePc 2, .loadPool [(0, .nonInt)], .writeByte 0xFFFFFFFF 1],
      (∃ s : State, s.isRunning = false ∧ s.hostMoves = [m]) ∧ (∃ s : State, s.isRunning = true ∧ s.hostMoves = [m]) :=
  fun m _ => ⟨⟨{ State.reset with hostMoves := [m] }, rfl, rfl⟩, ⟨{ start [] [] with hostMoves := [m] }, rfl, rfl⟩⟩
/-- An iteration that completes (ADD) and one that raises (DIV by zero). -/
theorem witness_CounterCountsCompletedInstructions :
    (∃ s t, atIteration s ∧ step s = .next t ∧ t.isRunning = true) ∧
    (∃ s t, atIteration s ∧ step s = .next t ∧ t.isRunning = false) :=
  ⟨⟨start [0x05040301] [], _, ⟨rfl, rfl, rfl, by decide⟩, eq_next (by decide +kernel), by decide +kernel⟩,
   ⟨start [0x05040304] [], _, ⟨rfl, rfl, rfl, by decide⟩, eq_next (by decide +kernel), by decide +kernel⟩⟩
theorem witness_EveryRunReturnsWithinItsBudget : hostQuiet (start [0x05040301] []) ∧ hostQuiet State.reset := ⟨rfl, rfl⟩
/-- One MOV, then a second one in the next run. -/
theorem witness_SplitRunsLeaveTheSameTask :
    ∃ (s t1 t2 t : State) (b1 b2 b : BitVec 31), hostQuiet s ∧ b.toNat = b1.toNat + b2.toNat ∧
      runSteps (b1.toNat + 1) (loopEntry b1 s) = .next t1 ∧ runEnd t1 = some .budgetExhausted ∧
      runSteps (b2.toNat + 1) (loopEntry b2 t1) = .next t2 ∧ runSteps (b.toNat + 1) (loopEntry b s) = .next t :=
  ⟨start [0x0004032B, 0x0003052B] [(4, 9)], _, _, _, 1, 1, 2, rfl, rfl, eq_next (by decide +kernel), by decide +kernel,
    eq_next (by decide +kernel), eq_next (by decide +kernel)⟩
theorem witness_EveryStepKeepsTheInvariant : ∃ s t, Inv s ∧ step s = .next t :=
  ⟨start [0x05040301] [], _,
    ⟨by decide +kernel, by decide, fun h => absurd rfl h, fun _ => rfl, fun r h => by cases h⟩, eq_next (by decide +kernel)⟩
theorem witness_NoInstructionTouchesTheRunState :
    ∃ (i : Instr) (s t : State), exec i s = .next t ∧ t.isRunning = true ∧ i ≠ .sleep ∧ i ≠ .killtask :=
  ⟨.add 3 4 5, entry [] [], _, rfl, rfl, by decide, by decide⟩
theorem witness_OnlyDestinationRegistersChange :
    ∃ (i : Instr) (s t : State) (r : Reg), exec i s = .next t ∧ r ∉ writtenRegs i :=
  ⟨.restore 4 6, entry [] [], _, 7, eq_next (by decide +kernel), by decide⟩
theorem witness_OnlyStoringInstructionsChangeMemory :
    ∃ (i : Instr) (s t : State), exec i s = .next t ∧ storesToMemory i = false := ⟨.mov 3 4, entry [] [], _, rfl, rfl⟩
theorem witness_OtherInstructionsAdvancePc :
    (∃ (i : Instr) (s t : State), exec i s = .next t ∧ t.isRunning = true ∧ transfersControl i = false ∧
      i.hasInfo = true) ∧
    (∃ (i : Instr) (s t : State), exec i s = .next t ∧ t.isRunning = true ∧ transfersControl i = false ∧
      i.hasInfo = false) :=
  ⟨⟨.ldi 3, entry [0x0000032E, 0x80000001] [], _, eq_next (by decide +kernel), by decide +kernel, rfl, rfl⟩,
   ⟨.add 3 4 5, entry [] [], _, rfl, rfl, rfl, rfl⟩⟩
theorem witness_OnlyRegisterJumpsCanMisalignPc :
    ∃ (i : Instr) (s t : State), s.pc.toNat % 4 = 0 ∧ exec i s = .next t ∧ (∀ rd, i ≠ .jpr rd ∧ i ≠ .callr rd) ∧
      i ≠ .ret :=
  ⟨.beqib 3 0 127, entry [] [], _, by decide, rfl, fun _ => ⟨by simp, by simp⟩, by decide⟩
/-- A raise without an info word, and one after the info word was consumed. -/
theorem witness_RaisingInstructionsArePrecise :
    (∃ (i : Instr) (s t : State), s.isRunning = true ∧ exec i s = .next t ∧ t.isRunning = false ∧ t.pc = s.pc) ∧
    (∃ (i : Instr) (s t : State), s.isRunning = true ∧ exec i s = .next t ∧ t.isRunning = false ∧ t.pc = s.pc + 4) :=
  ⟨⟨.div 3 4 5, entry [] [], _, rfl, eq_next (by decide +kernel), by decide +kernel, by decide +kernel⟩,
   ⟨.divi 3 4, entry [0, 0x80000000] [], _, rfl, eq_next (by decide +kernel), by decide +kernel, by decide +kernel⟩⟩
theorem witness_InlineLiteralIsThe31BitNumber :
    (0x80000000 : Word).getLsbD 31 = true ∧ (0xFFFFFFFF : Word).getLsbD 31 = true ∧
    resolve [] 0xBFFFFFFF = some 0x3FFFFFFF ∧ resolve [] 0xC0000000 = some 0xC0000000 := by decide +kernel
/-- Index 0 an integer, the largest index no integer, index 1 absent. -/
theorem witness_PoolIndexResolvesToItsInteger :
    let p : Pool := [(0, .int 7), (0x7FFFFFFF, .nonInt)]
    (0 : Word).getLsbD 31 = false ∧ p.lookup ((0 : Word).extractLsb' 0 31) = some (.int 7) ∧
    (0x7FFFFFFF : Word).getLsbD 31 = false ∧ p.lookup ((0x7FFFFFFF : Word).extractLsb' 0 31) = some .nonInt ∧
    (1 : Word).getLsbD 31 = false ∧ p.lookup ((1 : Word).extractLsb' 0 31) = none := by decide +kernel
theorem witness_FetchImmediateAdvancesPcOnEveryBranch :
    fetchData ((start [] []).setPc 0x1002) 0x1002 = none ∧ fetchData (entry [0, 0x80000003] []) 0x1004 = some 0x80000003 ∧
    resolve [] 0x80000003 = some 3 ∧ fetchData (entry [0, 5] []) 0x1004 = some 5 ∧ resolve [] 5 = none := by
  decide +kernel
theorem witness_InfoWordIsFetchedFirst :
    (∃ (i : Instr) (s : State), i.hasInfo = true ∧ fetchData s s.pc = none) ∧
    (∃ (i : Instr) (s : State) (info : Word), i.hasInfo = true ∧
      fetchData s s.pc = some info ∧ resolve s.pool info = none) ∧
    (∃ (i : Instr) (s t : State), i.hasInfo = false ∧ exec i s = .next t) :=
  ⟨⟨.ldi 3, entry [] [] [] [] [⟨0x1004, 4⟩], rfl, by decide +kernel⟩,
   ⟨.jpl, entry [0, 5] [], 5, rfl, by decide +kernel, by decide +kernel⟩, ⟨.sleep, entry [] [], _, rfl, rfl⟩⟩

/-- What the statements about an instruction with an info word assume, met by an inline literal and by a pool index. -/
theorem Sys2Proof.Tests.info_at_hand :
    (fetchData (entry [0, 0x80000003] []) 0x1004 = some 0x80000003 ∧ resolve [] 0x80000003 = some 3) ∧
    (fetchData (entry [0, 7] [] [] [(7, .int 0)]) 0x1004 = some 7 ∧
      resolve (entry [0, 7] [] [] [(7, .int 0)]).pool 7 = some 0) := by decide +kernel
/-- What `raisesForInfoWord` assumes in the statements that use it: an info word outside MEM_MAP, one at a misaligned `pc`,
a pool index without an entry, one whose entry is no integer. -/
theorem witness_raisesForInfoWord :
    (∃ s : State, fetchData s s.pc = none ∧ s.pc.toNat % 4 = 0) ∧ (∃ s : State, fetchData s s.pc = none ∧ s.unserved = []) ∧
    (∃ (s : State) (info : Word), fetchData s s.pc = some info ∧ resolve s.pool info = none ∧ s.pool = []) ∧
    (∃ (s : State) (info : Word), fetchData s s.pc = some info ∧ resolve s.pool info = none ∧ s.pool ≠ []) :=
  ⟨⟨entry [] [] [] [] [⟨0x1007, 1⟩], by decide +kernel, by decide⟩, ⟨(start [] []).setPc 0x1002, by decide +kernel, rfl⟩,
   ⟨entry [0, 0x7FFFFFFF] [], 0x7FFFFFFF, by decide +kernel, by decide +kernel, rfl⟩,
   ⟨entry [0, 0] [] [] [(0, .nonInt)], 0, by decide +kernel, by decide +kernel, by decide⟩⟩
theorem witness_DivisionResults :
    (entry [] [(5, 1)]).reg 5 ≠ 0 ∧ (entry [] []).reg 5 = 0 := by decide +kernel
theorem witness_DivisionLaws :
    (entry [] [(4, 0x80000000), (5, 0xFFFFFFFF)]).reg 5 ≠ 0 ∧
    ((entry [] [(4, 0x80000000), (5, 0xFFFFFFFF)]).reg 4 = 0x80000000 ∧
      (entry [] [(4, 0x80000000), (5, 0xFFFFFFFF)]).reg 5 = 0xFFFFFFFF) ∧
    (entry [] [(5, 1)]).reg 5 ≠ 0 ∧ ¬((entry [] [(5, 1)]).reg 4 = 0x80000000 ∧ (entry [] [(5, 1)]).reg 5 = 0xFFFFFFFF) := by
  decide +kernel
theorem witness_ImmediateArithmeticResults :
    ∃ (s : State) (info imm : Word), fetchData s s.pc = some info ∧ resolve s.pool info = some imm :=
  ⟨entry [0, 0x80000003] [], 0x80000003, 3, info_at_hand.1.1, info_at_hand.1.2⟩
theorem witness_ImmediateDivisionResults :
    (∃ (s : State) (info imm : Word), fetchData s s.pc = some info ∧ resolve s.pool info = some imm ∧ imm ≠ 0) ∧
    (∃ (s : State) (info imm : Word), fetchData s s.pc = some info ∧ resolve s.pool info = some imm ∧ imm = 0) :=
  ⟨⟨entry [0, 0x80000003] [], 0x80000003, 3, info_at_hand.1.1, info_at_hand.1.2, by decide⟩,
   ⟨entry [0, 7] [] [] [(7, .int 0)], 7, 0, info_at_hand.2.1, info_at_hand.2.2, rfl⟩⟩
theorem witness_NarrowFormsSeeOnlyTheLowBits :
    ∃ (s1 s2 t1 t2 : State) (rd rs rt : Reg),
      (s1.reg rs).toNat % 2 ^ 8 = (s2.reg rs).toNat % 2 ^ 8 ∧ (s1.reg rt).toNat % 2 ^ 8 = (s2.reg rt).toNat % 2 ^ 8 ∧
      s1.reg rs ≠ s2.reg rs ∧ exec (.addb rd rs rt) s1 = .next t1 ∧ exec (.addb rd rs rt) s2 = .next t2 :=
  ⟨entry [] [(4, 0x123456FF)], entry [] [(4, 0xFF)], _, _, 3, 4, 5, by decide +kernel, by decide +kernel,
    by decide +kernel, rfl, rfl⟩
theorem witness_LoadImmediateResult :
    (∃ (s : State) (info imm : Word), fetchData s s.pc = some info ∧ resolve s.pool info = some imm) ∧
    (∃ s : State, fetchData s s.pc = none) ∧
    (∃ (s : State) (info : Word), fetchData s s.pc = some info ∧ resolve s.pool info = none) :=
  ⟨⟨entry [0, 0x80000003] [], 0x80000003, 3, info_at_hand.1.1, info_at_hand.1.2⟩,
   ⟨entry [] [] [] [] [⟨0x1007, 1⟩], by decide +kernel⟩, ⟨entry [0, 5] [], 5, by decide +kernel, by decide +kernel⟩⟩
/-- A taken branch (BEQI, 3 = 3) and one not taken (3 against r3 = 0); the tests above take each condition both ways. -/
theorem witness_InfoBranchResults :
    (∃ (s : State) (info y : Word), fetchData s s.pc = some info ∧ resolve s.pool info = some y ∧ s.reg 3 = y) ∧
    (∃ (s : State) (info y : Word), fetchData s s.pc = some info ∧ resolve s.pool info = some y ∧ ¬ s.reg 3 = y) :=
  ⟨⟨entry [0, 0x80000003] [(3, 3)], 0x80000003, 3, by decide +kernel, by decide +kernel, by decide +kernel⟩,
   ⟨entry [0, 0x80000003] [], 0x80000003, 3, by decide +kernel, by decide +kernel, by decide +kernel⟩⟩
theorem witness_SignedByteBranchResults :
    (entry [] [(3, 0xFFFFFF80)]).reg 3 = (0x80 : Byte).signExtend 32 ∧
    ¬ (entry [] [(3, 0x80)]).reg 3 = (0x80 : Byte).signExtend 32 := by decide +kernel
theorem witness_UnsignedByteBranchResults :
    ((entry [] [(3, 0x100)]).reg 3).toNat > (0xFF : Byte).toNat ∧ ¬ ((entry [] [(3, 0xFF)]).reg 3).toNat > (0xFF : Byte).toNat := by
  decide +kernel
/-- `EA = r4 + 3` served, and the same `EA` outside MEM_MAP. -/
theorem witness_ByteLoadResults :
    fetchData (entry [0, 0x80000003] []) 0x1004 = some 0x80000003 ∧ resolve [] 0x80000003 = some 3 ∧
    served (entry [] []).unserved ((entry [] [(4, 0x2000)]).reg 4 + 3) = true ∧
    served (entry [] [] [] [] [⟨0x2003, 1⟩]).unserved ((entry [] [(4, 0x2000)]).reg 4 + 3) = false := by decide +kernel
/-- With displacement 3 (`info_at_hand`): the last aligned word, a misaligned `EA`, an `EA` whose last byte is refused. -/
theorem witness_WideLoadResults :
    (((entry [] [(4, 0xFFFFFFF9)]).reg 4 + 3).toNat % 4 = 0 ∧
      servedRange [] ((entry [] [(4, 0xFFFFFFF9)]).reg 4 + 3) 4 = true) ∧
    ¬(((entry [] [(4, 0x2000)]).reg 4 + 3).toNat % 2 = 0) ∧
    servedRange [⟨0x2003, 1⟩] ((entry [] [(4, 0x1FFD)]).reg 4 + 3) 4 = false := by decide +kernel
theorem witness_StoreResults :
    (((entry [] [(4, 0xFFFFFFFC)]).reg 4 + 3).toNat % 1 = 0 ∧
      servedRange [] ((entry [] [(4, 0xFFFFFFFC)]).reg 4 + 3) 1 = true) ∧
    (((entry [] [(4, 0xFFFFFFF9)]).reg 4 + 3).toNat % 4 = 0 ∧
      servedRange [] ((entry [] [(4, 0xFFFFFFF9)]).reg 4 + 3) 4 = true) ∧
    ¬(((entry [] [(4, 0x2000)]).reg 4 + 3).toNat % 2 = 0) ∧
    servedRange [⟨0x2000, 1⟩] ((entry [] [(4, 0x1FFD)]).reg 4 + 3) 4 = false := by decide +kernel
theorem witness_NarrowReadsSeeLittleEndianBytes :
    ∃ (s t : State) (a v : Word), memWrite s a 4 v = some t ∧ memRead t a 1 = some 0x44 ∧ memRead t (a + 2) 2 = some 0x1122 :=
  ⟨State.reset, _, 0xFFFFFFFC, 0x11223344, rfl, by decide +kernel, by decide +kernel⟩
/-- STW r3, #3(r4) over the word at 0x2000, then fetched. -/
theorem witness_FetchSeesTheLatestStore :
    ∃ (s t : State) (info disp : Word) (rd rs : Reg), fetchData s s.pc = some info ∧ resolve s.pool info = some disp ∧
      (s.reg rs + disp).toNat % 4 = 0 ∧ servedRange s.unserved (s.reg rs + disp) 4 = true ∧ exec (.stw rd rs) s = .next t :=
  ⟨entry [0, 0x80000003] [(3, 0x0004052B), (4, 0x1FFD)], _, 0x80000003, 3, 3, 4, by decide +kernel, by decide +kernel,
    by decide +kernel, by decide +kernel, eq_next (by decide +kernel)⟩
theorem witness_RelativeJumpResults :
    (∃ (s : State) (info disp : Word), fetchData s s.pc = some info ∧ resolve s.pool info = some disp) ∧
    (∃ s : State, fetchData s s.pc = none) ∧
    (∃ (s : State) (info : Word), fetchData s s.pc = some info ∧ resolve s.pool info = none) :=
  witness_LoadImmediateResult
/-- An empty range; the whole file, wrapping below address 0. -/
theorem witness_StoreRangePushesTheRegisters :
    (∃ first last : Reg, last < first) ∧
    (∃ (s : State) (first last : Reg), first ≤ last ∧ (s.reg 1).toNat % 4 = 0 ∧
      servedRange s.unserved (s.reg 1 - BitVec.ofNat 32 (4 * (last.val - first.val + 1)))
        (4 * (last.val - first.val + 1)) = true) :=
  ⟨⟨6, 4, by decide⟩, ⟨entry [] [(1, 4)], 0, 31, by decide, by decide +kernel, by decide +kernel⟩⟩
/-- A misaligned `sp` (the first word refused), and the second word outside MEM_MAP. -/
theorem witness_StoreRangeStopsAtTheFirstRefusal :
    memRead (entry [] [(1, 0x8002)]) (0x8002 - BitVec.ofNat 32 8 + BitVec.ofNat 32 0) 4 = none ∧
    (let s := entry [] [(1, 0x8000)] [] [] [⟨0x7FFC, 1⟩]
     (∀ j, j < 1 → (memRead s (s.reg 1 - BitVec.ofNat 32 8 + BitVec.ofNat 32 (4 * j)) 4).isSome = true) ∧
       memRead s (s.reg 1 - BitVec.ofNat 32 8 + BitVec.ofNat 32 4) 4 = none) := by decide +kernel
theorem witness_RestoreRangePopsTheRegisters :
    (∃ first last : Reg, last < first) ∧
    (∃ (s : State) (first last : Reg), first ≤ last ∧ (s.reg 1).toNat % 4 = 0 ∧
      servedRange s.unserved (s.reg 1) (4 * (last.val - first.val + 1)) = true) :=
  ⟨⟨6, 4, by decide⟩, ⟨entry [] [(1, 0xFFFFFFF8)], 0, 31, by decide, by decide +kernel, by decide +kernel⟩⟩
theorem witness_RestoreRangeStopsAtTheFirstRefusal :
    memRead (entry [] [(1, 0x8002)]) (0x8002 + BitVec.ofNat 32 0) 4 = none ∧
    (let s := entry [] [(1, 0x8000)] [] [] [⟨0x8004, 1⟩]
     (∀ j, j < 1 → (memRead s (s.reg 1 + BitVec.ofNat 32 (4 * j)) 4).isSome = true) ∧
       memRead s (s.reg 1 + BitVec.ofNat 32 4) 4 = none) := by decide +kernel
theorem witness_RestoreUndoesStore :
    ∃ (s t u : State) (first last : Reg), first ≤ last ∧ (s.reg 1).toNat % 4 = 0 ∧
      servedRange s.unserved (s.reg 1 - BitVec.ofNat 32 (4 * (last.val - first.val + 1)))
        (4 * (last.val - first.val + 1)) = true ∧
      exec (.store first last) s = .next t ∧ u.reg 1 = t.reg 1 ∧ u.mem = t.mem ∧ u.unserved = t.unserved ∧ u ≠ t :=
  ⟨entry [] [(1, 0x8000), (4, 0x44)], _, ((nextOf (exec (.store 4 5) (entry [] [(1, 0x8000), (4, 0x44)]))).get
      (by decide +kernel)).setReg 4 0, 4, 5, by decide, by decide +kernel, by decide +kernel,
    eq_next (by decide +kernel), by decide +kernel, by decide +kernel, by decide +kernel, by decide +kernel⟩
theorem witness_TaskSignalEndsTheRun :
    ∀ w ∈ [(0x00000052 : Word), 0xABCDEF53], atIteration (start [w] []) ∧ (start [w] []).fault = none ∧
      (start [w] []).pc.toNat % 4 = 0 ∧ fetchInsn (start [w] []) (start [w] []).pc = some w ∧
      (w.extractLsb' 0 8 = 0x52 ∨ w.extractLsb' 0 8 = 0x53) :=
  fun w hw => by
    simp only [List.mem_cons, List.not_mem_nil, or_false] at hw
    rcases hw with rfl | rfl <;> exact ⟨⟨rfl, rfl, rfl, by decide⟩, rfl, by decide, by decide +kernel⟩
/-- Overlapping ranges, served, one of them wrapping. -/
theorem witness_BlockCopyResult :
    let s := entry [] [(4, 0xFFFFFFFE), (5, 0xFFFFFFFC), (6, 4)]
    servedRange s.unserved (s.reg 4) (s.reg 6).toNat = true ∧ servedRange s.unserved (s.reg 5) (s.reg 6).toNat = true := by
  decide +kernel
theorem witness_BlockFillResult :
    let s := entry [] [(4, 0xFFFFFFFE), (5, 0xAB), (6, 4)]
    servedRange s.unserved (s.reg 4) (s.reg 6).toNat = true := by decide +kernel
theorem witness_RefusedBulkKeepsTheBytesOutside :
    let s := entry [] [(4, 0x2000), (5, 0x3000), (6, 4)] [] [] [⟨0x2003, 1⟩]
    ¬(servedRange s.unserved (s.reg 4) (s.reg 6).toNat = true ∧ servedRange s.unserved (s.reg 5) (s.reg 6).toNat = true) ∧
    servedRange s.unserved (s.reg 4) (s.reg 6).toNat = false := by decide +kernel

end
end

