-- ==== Sys2Proof/Proofs/HostAccess.lean ====
section
/-!
PROOF. The host's own moves (spec/10_state.md R23, spec/70_reset_and_hazards.md R301, R307): a step with a host move
pending is that move, and an access meant for an Idle core is done while Idle and refused while Running.
-/
namespace Sys2Proof.Machine

/-- With a host move other than `pass` pending, the step is that move. -/
theorem step_of_hostMove {s : State} {m : HostMove} {ms : List HostMove} (hm : s.hostMoves = m :: ms)
    (hp : m ≠ .pass) : step s = hostMove m { s with hostMoves := ms } := by
  rcases nextTurn_cases s with ⟨h, -⟩ | ⟨ms', h, -⟩ | ⟨m', ms', h, ht⟩ <;> rw [hm] at h
  · cases h
  · cases h; exact absurd rfl hp
  · cases h; exact step_of_done ht

theorem whileIdle_of_idle {s : State} (s' : State) (h : s.isRunning = false) : whileIdle s s' = .next s' := by
  simp [whileIdle, h]

theorem whileIdle_of_running {s : State} (s' : State) (h : s.isRunning = true) :
    whileIdle s s' = .refused .hostAccessWhileRunning := by
  simp [whileIdle, h]

/-- A byte written at a word address is what that address reads as, and no other address reads differently. -/
theorem read_write_word (m : Memory) (a x : Word) (b : Byte) :
    (m.write a.toNat b).read x.toNat = if x = a then b else m.read x.toNat := by
  rw [read_write]
  simp only [BitVec.toNat_inj]

/-- Settles O10: the pending move is the step (`step_of_hostMove`), and each of the four is a `whileIdle` access. -/
theorem hostWritesOnlyWhileIdle : Obligations.HostWritesOnlyWhileIdle := by
  intro s ms r v a b p
  constructor
  · intro hIdle
    have done {m : HostMove} {t : State} (hm : s.hostMoves = m :: ms) (hp : m ≠ .pass)
        (hmove : hostMove m { s with hostMoves := ms } = whileIdle { s with hostMoves := ms } t) :
        step s = .next t :=
      (step_of_hostMove hm hp).trans (hmove.trans (whileIdle_of_idle t hIdle))
    exact ⟨fun hm => done hm nofun rfl, fun hm => done hm nofun rfl, fun hm => done hm nofun rfl,
      fun hm => ⟨s.mem.write a.toNat b, done hm nofun rfl, fun x => read_write_word s.mem a x b⟩⟩
  · intro hRun m hmem hm
    simp only [List.mem_cons, List.not_mem_nil, or_false] at hmem
    rcases hmem with rfl | rfl | rfl | rfl
    all_goals exact (step_of_hostMove hm nofun).trans (whileIdle_of_running _ hRun)

end Sys2Proof.Machine
end

