-- ==== Sys2Proof/Proofs/Encoding.lean ====
section
/-!
PROOF. Decoding undoes encoding (spec/30_encoding.md R76): one lemma per operand form of the opcode table, each asking
only how the slot reads its operands; an instruction's case names its form, and the range that `WellFormed` gives it.
-/
namespace Sys2Proof

/-- A word decodes by the way its opcode's slot reads operands. -/
theorem decodeWord_of_build {op : Byte} {build : Word → Instr} {w : Word}
    (hs : (slot op).map (·.build) = some build) (hw : opByte w = op) : decodeWord w = .ok (build w) := by
  obtain ⟨r, hr, rfl⟩ := Option.map_eq_some_iff.mp hs
  simp only [decodeWord, hw, hr]

/-! ## Each operand form reads back the operands its canonical word was made of (R63 to R67) -/

section Forms
variable {op : Byte} {rd rs rt : Reg}

theorem decodeWord_regs3 {f : Reg → Reg → Reg → Instr} (hs : (slot op).map (·.build) = some (regs3 f)) :
    decodeWord (instrWord op (regByte rd) (regByte rs) (regByte rt)) = .ok (f rd rs rt) := by
  rw [decodeWord_of_build hs (opByte_instrWord ..)]
  simp [regs3]

theorem decodeWord_regs2 {f : Reg → Reg → Instr} {c : Byte} (hs : (slot op).map (·.build) = some (regs2 f)) :
    decodeWord (instrWord op (regByte rd) (regByte rs) c) = .ok (f rd rs) := by
  rw [decodeWord_of_build hs (opByte_instrWord ..)]
  simp [regs2]

theorem decodeWord_reg1 {f : Reg → Instr} {b c : Byte} (hs : (slot op).map (·.build) = some (reg1 f)) :
    decodeWord (instrWord op (regByte rd) b c) = .ok (f rd) := by
  rw [decodeWord_of_build hs (opByte_instrWord ..)]
  simp [reg1]

theorem decodeWord_noOperand {i : Instr} {a b c : Byte} (hs : (slot op).map (·.build) = some (noOperand i)) :
    decodeWord (instrWord op a b c) = .ok i :=
  decodeWord_of_build hs (opByte_instrWord ..)

theorem decodeWord_regsShift {f : Reg → Reg → Nat → Instr} {sh : Nat}
    (hs : (slot op).map (·.build) = some (regsShift f)) (hsh : shiftFits sh = true) :
    decodeWord (instrWord op (regByte rd) (regByte rs) (BitVec.ofNat 8 sh)) = .ok (f rd rs sh) := by
  rw [decodeWord_of_build hs (opByte_instrWord ..)]
  simp [regsShift, shiftOfByte_ofNat hsh]

theorem decodeWord_infoBranch {f : Reg → Int → Instr} {disp : Int}
    (hs : (slot op).map (·.build) = some (infoBranch f)) (hd : disp16Fits disp = true) :
    decodeWord (infoBranchWord op rd disp) = .ok (f rd disp) := by
  rw [decodeWord_of_build hs (opByte_infoBranchWord ..)]
  simp only [infoBranch, byteA_infoBranchWord, regOfByte_regByte, imm16_infoBranchWord, toInt_ofInt_half hd]

theorem decodeWord_byteBranch {f : Reg → Int → Int → Instr} {b disp : Int}
    (hs : (slot op).map (·.build) = some (byteBranch f)) (h : (signedByteFits b && signedByteFits disp) = true) :
    decodeWord (instrWord op (regByte rd) (BitVec.ofInt 8 b) (BitVec.ofInt 8 disp)) = .ok (f rd b disp) := by
  obtain ⟨hb, hd⟩ := Bool.and_eq_true_iff.mp h
  rw [decodeWord_of_build hs (opByte_instrWord ..)]
  simp only [byteBranch, byteA_instrWord, regOfByte_regByte, byteB_instrWord, toInt_ofInt_byte hb, byteC_instrWord,
    toInt_ofInt_byte hd]

theorem decodeWord_byteBranchU {f : Reg → Nat → Int → Instr} {b : Nat} {disp : Int}
    (hs : (slot op).map (·.build) = some (byteBranchU f)) (h : (unsignedByteFits b && signedByteFits disp) = true) :
    decodeWord (instrWord op (regByte rd) (BitVec.ofNat 8 b) (BitVec.ofInt 8 disp)) = .ok (f rd b disp) := by
  obtain ⟨hb, hd⟩ := Bool.and_eq_true_iff.mp h
  rw [decodeWord_of_build hs (opByte_instrWord ..)]
  simp only [byteBranchU, byteA_instrWord, regOfByte_regByte, byteB_instrWord, toNat_ofNat_byte hb, byteC_instrWord,
    toInt_ofInt_byte hd]

end Forms

/-- R76: the canonical word of a well-formed instruction decodes to it. The cases are grouped by operand form. -/
theorem decodeWord_encode {i : Instr} (h : WellFormed i = true) : decodeWord (encode i) = .ok i := by
  cases i with
  | add | sub | mul | div | divu | and | or | xor | addb | subb | andb | orb | xorb | addh | subh | andh | orh | xorh
  | sll | srl | sra | syscpy | sysset => exact decodeWord_regs3 rfl
  | neg | not | addi | subi | muli | divi | divui | andi | ori | xori | exsb | exsh | mov | movb | movh | ldb | ldbu
  | ldh | ldhu | ldw | stb | sth | stw | store | restore => exact decodeWord_regs2 rfl
  | ldi | jpr | callr => exact decodeWord_reg1 rfl
  | jpl | calll | ret | killtask | sleep => exact decodeWord_noOperand rfl
  | slli | srli | srai | sllb | srlb | srab | sllh | srlh | srah => exact decodeWord_regsShift rfl h
  | beqi | bnei | bgti | bgei | blti | blei | bgtui | bgeui | bltui | bleui => exact decodeWord_infoBranch rfl h
  | beqib | bneib | bgtib | bgeib | bltib | bleib => exact decodeWord_byteBranch rfl h
  | bgtuib | bgeuib | bltuib | bleuib => exact decodeWord_byteBranchU rfl h

/-- Decoding bytes that begin with a word's own decodes the word and leaves the rest (R48). -/
theorem decode_wordBytes_append {w : Word} {i : Instr} (h : decodeWord w = .ok i) (rest : List Byte) :
    decode (wordBytes w ++ rest) = .ok (i, rest) := by
  simp only [wordBytes, List.cons_append, List.nil_append, decode, word_of_wordBytes, h]

/-- Settles O2: by operand form for the word, by `word_of_wordBytes` for its bytes; two words that differ in ignored
bits alone decode to the same ADD. -/
theorem decodeOfEncodeIsTheInstruction : Obligations.DecodeOfEncodeIsTheInstruction :=
  ⟨fun _ h => ⟨decodeWord_encode h, decode_wordBytes_append (decodeWord_encode h)⟩,
    .add 3 4 5, 0x05040301, 0xE5442301, by decide, rfl, rfl⟩

end Sys2Proof
end

