-- ==== Sys2Proof/Proofs/Literal.lean ====
section
/-!
PROOF. The resolver's inline literal (spec/40_loop_and_resolver.md R101): sign extension from 31 bits, as a number and
as bits.
-/
namespace Sys2Proof.Machine

/-- Extending 31 bits copies bit 30 into bit 31 and keeps the others. -/
theorem sext_31_eq (v : Word) :
    sext 31 v = if v.getLsbD 30 then v ||| BitVec.twoPow 32 31 else v &&& ~~~BitVec.twoPow 32 31 := by
  rw [BitVec.getLsbD_eq_getElem (by decide)]
  ext i hi
  rcases Nat.lt_or_eq_of_le (Nat.le_of_lt_succ hi) with hlow | rfl
  · cases v[30] <;> simp [sext, BitVec.getElem_signExtend, BitVec.getLsbD_eq_getElem hi, hlow, hlow.ne]
  · cases h : v[30] <;> simp [sext, BitVec.getElem_signExtend, BitVec.msb_eq_getLsbD_last, h]

/-- Settles O24: with bit 31 set the resolver extends bits 30..0, which keeps their signed reading. -/
theorem inlineLiteralIsThe31BitNumber : Obligations.InlineLiteralIsThe31BitNumber := by
  intro p info hinfo
  refine ⟨sext 31 info, resolve_inline p (by rwa [BitVec.msb_eq_getLsbD_last]), ?_, sext_31_eq info⟩
  rw [sext, BitVec.toInt_signExtend_of_le (by decide), BitVec.setWidth_eq_extractLsb' (by decide)]

end Sys2Proof.Machine
end

