-- ==== Sys2Proof/Proofs/Unseen.lean ====
section
/-!
PROOF. What no instruction sees (spec/10_state.md R25, spec/60_exceptions.md R282): an iteration commutes with every
change of the run state that it neither reads nor undoes. That one fact gives both the comparison of two runs and, at a
state the change leaves as it is, a frame.
-/
namespace Sys2Proof.Machine

/-- The outcome with `h` applied to its next state. -/
def mapNext (h : State → State) : Out → Out
  | .next s => .next (h s)
  | .fault f => .fault f
  | .refused r => .refused r

@[simp] theorem mapNext_next (h : State → State) (s : State) : mapNext h (.next s) = .next (h s) := rfl

/-- `h` keeps every field a handler reads, and may be made before or after any of the updates handlers are made of. -/
structure Unseen (h : State → State) : Prop where
  regs (s : State) : (h s).regs = s.regs
  pc (s : State) : (h s).pc = s.pc
  pool (s : State) : (h s).pool = s.pool
  mem (s : State) : (h s).mem = s.mem
  unserved (s : State) : (h s).unserved = s.unserved
  setReg (s : State) (r : Reg) (v : Word) : (h s).setReg r v = h (s.setReg r v)
  setPc (s : State) (v : Word) : (h s).setPc v = h (s.setPc v)
  setMem (s : State) (m : Memory) : (h s).setMem m = h (s.setMem m)
  bulkRefused (s : State) (a : Word) (n : Nat) : bulkRefused (h s) a n = h (bulkRefused s a n)
  signal (s : State) (e : Event) : signal e (h s) = mapNext h (signal e s)
  raise (s : State) (r : FaultRecord) : raise r (h s) = h (raise r s)

namespace Unseen
variable {h : State → State} (hh : Unseen h)
include hh

/-! ## Reads -/

theorem reg (s : State) (r : Reg) : (h s).reg r = s.reg r := by simp only [State.reg, hh.regs]

theorem insnAddr (s : State) : (h s).insnAddr = s.insnAddr := by simp only [State.insnAddr, hh.pc]

theorem effAddr (s : State) (rs : Reg) (disp : Word) : effAddr (h s) rs disp = effAddr s rs disp := by
  simp only [Machine.effAddr, hh.reg]

theorem memRead (s : State) (a : Word) (n : Nat) : memRead (h s) a n = memRead s a n := by
  simp only [Machine.memRead, hh.unserved, hh.mem]

/-! ## Transactions -/

theorem memWrite (s : State) (a : Word) (n : Nat) (v : Word) :
    memWrite (h s) a n v = (memWrite s a n v).map h := by
  simp only [Machine.memWrite, hh.unserved, hh.mem, hh.setMem]
  split <;> rfl

theorem pushWords (vs : List Word) (s : State) (a : Word) :
    pushWords (h s) a vs = ((pushWords s a vs).map h).mapError (Prod.map id h) := by
  induction vs generalizing s a with
  | nil => rfl
  | cons v vs ih =>
    simp only [Machine.pushWords, hh.memWrite]
    cases Machine.memWrite s a 4 v with
    | none => rfl
    | some t => exact ih t (a + 4)

theorem popWords (rs : List Reg) (s : State) (a : Word) :
    popWords (h s) a rs = ((popWords s a rs).map h).mapError (Prod.map id h) := by
  induction rs generalizing s a with
  | nil => rfl
  | cons r rs ih =>
    simp only [Machine.popWords, hh.memRead, hh.setReg]
    cases Machine.memRead s a 4 with
    | none => rfl
    | some v => exact ih (s.setReg r v) (a + 4)

/-! ## Forms of meanings -/

theorem withImmediate {k k' : Word → State → Out} (hk : ∀ v s, k v (h s) = mapNext h (k' v s)) (s : State) :
    withImmediate (h s) k = mapNext h (withImmediate s k') := by
  have hfetch : fetchData (h s) (h s).pc = fetchData s s.pc := by rw [hh.pc]; exact hh.memRead ..
  rcases fetchImmediate_cases s with ⟨hd, -⟩ | ⟨info, v, hd, hv, -⟩ | ⟨info, hd, hv, -⟩
  · rw [withImmediate_busError _ hd, withImmediate_busError _ (hfetch.trans hd), hh.pc, hh.insnAddr]
    exact congrArg _ (hh.raise ..)
  · rw [withImmediate_ok _ hd hv, withImmediate_ok _ (hfetch.trans hd) (by rwa [hh.pool]), hh.pc, hh.setPc, hk]
  · rw [withImmediate_poolError _ hd hv, withImmediate_poolError _ (hfetch.trans hd) (by rwa [hh.pool]), hh.pc,
      hh.insnAddr, hh.setPc]
    exact congrArg _ (hh.raise ..)

theorem binary (f : Word → Word → Word) (rd rs rt : Reg) (s : State) :
    binary f rd rs rt (h s) = mapNext h (binary f rd rs rt s) := by
  simp only [Machine.binary, hh.reg, hh.setReg, mapNext_next]

theorem unary (f : Word → Word) (rd rs : Reg) (s : State) :
    unary f rd rs (h s) = mapNext h (unary f rd rs s) := by
  simp only [Machine.unary, hh.reg, hh.setReg, mapNext_next]

theorem narrowed (n : Nat) (f : Word → Word → Word) (rd rs rt : Reg) (s : State) :
    narrowed n f rd rs rt (h s) = mapNext h (narrowed n f rd rs rt s) := hh.binary ..

theorem scopedShift (n : Nat) (f : Word → Word) (rd rs : Reg) (s : State) :
    scopedShift n f rd rs (h s) = mapNext h (scopedShift n f rd rs s) := hh.unary ..

theorem binaryImm (f : Word → Word → Word) (rd rs : Reg) (s : State) :
    binaryImm f rd rs (h s) = mapNext h (binaryImm f rd rs s) :=
  hh.withImmediate (fun v s => by simp only [hh.reg, hh.setReg, mapNext_next]) s

theorem divide (q : Word → Word → Word) (rd : Reg) (x y a : Word) (s : State) :
    divide q rd x y a (h s) = mapNext h (divide q rd x y a s) := by
  simp only [Machine.divide, hh.setReg, raiseDivideError, hh.raise]
  split <;> rfl

theorem divideReg (q : Word → Word → Word) (rd rs rt : Reg) (s : State) :
    Machine.divide q rd ((h s).reg rs) ((h s).reg rt) (h s).insnAddr (h s) =
      mapNext h (Machine.divide q rd (s.reg rs) (s.reg rt) s.insnAddr s) := by
  rw [hh.reg, hh.reg, hh.insnAddr, hh.divide]

theorem divideImm (q : Word → Word → Word) (rd rs : Reg) (s : State) :
    Machine.withImmediate (h s) (fun imm s' => Machine.divide q rd (s'.reg rs) imm (h s).insnAddr s') =
      mapNext h (Machine.withImmediate s (fun imm s' => Machine.divide q rd (s'.reg rs) imm s.insnAddr s')) :=
  hh.withImmediate (fun v t => by rw [hh.reg, hh.insnAddr, hh.divide]) s

theorem branchIf (c : Cond) (x y : Word) (disp : Int) (s : State) :
    branchIf c x y disp (h s) = mapNext h (branchIf c x y disp s) := by
  simp only [Machine.branchIf, hh.pc, hh.setPc]
  split <;> rfl

theorem branchInfo (c : Cond) (rd : Reg) (disp : Int) (s : State) :
    branchInfo c rd disp (h s) = mapNext h (branchInfo c rd disp s) :=
  hh.withImmediate (fun v t => by rw [hh.reg, hh.branchIf]) s

theorem branchByte (c : Cond) (rd : Reg) (y : Word) (disp : Int) (s : State) :
    branchByte c rd y disp (h s) = mapNext h (branchByte c rd y disp s) := by
  simp only [Machine.branchByte, hh.reg, hh.branchIf]

theorem load (n : Nat) (ext : Word → Word) (rd rs : Reg) (s : State) :
    load n ext rd rs (h s) = mapNext h (load n ext rd rs s) := by
  refine hh.withImmediate (fun disp t => ?_) s
  simp only [hh.effAddr, hh.memRead, hh.insnAddr, hh.setReg, raiseBusError, hh.raise]
  split <;> rfl

theorem store (n : Nat) (rd rs : Reg) (s : State) :
    store n rd rs (h s) = mapNext h (store n rd rs s) := by
  refine hh.withImmediate (fun disp t => ?_) s
  simp only [hh.effAddr, hh.memWrite, hh.reg, hh.insnAddr, raiseBusError, hh.raise]
  cases Machine.memWrite t (Machine.effAddr t rs disp) n (t.reg rd) <;> rfl

theorem callTo (tgt : Word) (s : State) : callTo tgt (h s) = mapNext h (callTo tgt s) := by
  simp only [Machine.callTo, hh.pc, hh.setReg, hh.setPc, mapNext_next]

theorem jumpReg (rd : Reg) (s : State) : execJpr rd (h s) = mapNext h (execJpr rd s) := by
  simp only [execJpr, hh.reg, hh.setPc, mapNext_next]

theorem execStore (first last : Reg) (s : State) :
    execStore first last (h s) = mapNext h (execStore first last s) := by
  have hregs : (h s).reg = s.reg := funext (hh.reg s)
  simp only [Machine.execStore, hregs, hh.insnAddr, hh.pushWords]
  split
  · rfl
  · cases Machine.pushWords s _ _ with
    | ok t => exact congrArg _ (hh.setReg ..)
    | error e => exact congrArg _ (hh.raise ..)

theorem execRestore (first last : Reg) (s : State) :
    execRestore first last (h s) = mapNext h (execRestore first last s) := by
  simp only [Machine.execRestore, hh.reg, hh.insnAddr, hh.popWords]
  split
  · rfl
  · cases Machine.popWords s _ _ with
    | ok t => exact congrArg _ (hh.setReg ..)
    | error e => exact congrArg _ (hh.raise ..)

theorem execSyscpy (rd rs rt : Reg) (s : State) :
    execSyscpy rd rs rt (h s) = mapNext h (execSyscpy rd rs rt s) := by
  simp only [Machine.execSyscpy, Machine.blockCopy, hh.reg, hh.unserved, hh.mem, hh.setMem, hh.bulkRefused]
  split <;> simp only [bulk, raiseBusError, hh.insnAddr, hh.raise, mapNext_next]

theorem execSysset (rd rs rt : Reg) (s : State) :
    execSysset rd rs rt (h s) = mapNext h (execSysset rd rs rt s) := by
  simp only [Machine.execSysset, Machine.blockFill, hh.reg, hh.unserved, hh.mem, hh.setMem, hh.bulkRefused]
  split <;> simp only [bulk, raiseBusError, hh.insnAddr, hh.raise, mapNext_next]

/-! ## Every handler, and a whole iteration -/

/-- No handler sees or undoes `h`. The cases are grouped by form of meaning; where `exec` is rewritten first, unification
does not find the form's operation through the dispatch by itself. -/
theorem exec (i : Instr) (s : State) : exec i (h s) = mapNext h (exec i s) := by
  cases i with
  | add | sub | mul | and | or | xor | sll | srl | sra => rw [Machine.exec, Machine.exec]; exact hh.binary ..
  | neg | not | slli | srli | srai | exsb | exsh | mov | movb | movh =>
    rw [Machine.exec, Machine.exec]; exact hh.unary ..
  | addb | subb | andb | orb | xorb | addh | subh | andh | orh | xorh =>
    rw [Machine.exec, Machine.exec]; exact hh.narrowed ..
  | sllb | srlb | srab | sllh | srlh | srah => rw [Machine.exec, Machine.exec]; exact hh.scopedShift ..
  | addi | subi | muli | andi | ori | xori => exact hh.binaryImm ..
  | div | divu => exact hh.divideReg ..
  | divi | divui => exact hh.divideImm ..
  | beqi | bnei | bgti | bgei | blti | blei | bgtui | bgeui | bltui | bleui => exact hh.branchInfo ..
  | beqib | bneib | bgtib | bgeib | bltib | bleib | bgtuib | bgeuib | bltuib | bleuib => exact hh.branchByte ..
  | ldb | ldbu | ldh | ldhu | ldw => exact hh.load ..
  | stb | sth | stw => exact hh.store ..
  | ldi rd => exact hh.withImmediate (fun v t => congrArg _ (hh.setReg t rd v)) s
  | jpr => exact hh.jumpReg ..
  | ret => exact hh.jumpReg ..
  | callr rd => exact (hh.callTo ..).trans (by rw [hh.reg]; rfl)
  | jpl => exact hh.withImmediate (fun v t => by simp only [hh.pc, hh.setPc, mapNext_next]) s
  | calll => exact hh.withImmediate (fun v t => by rw [hh.pc, hh.callTo]) s
  | store first last => exact hh.execStore first last s
  | restore first last => exact hh.execRestore first last s
  | killtask => exact hh.signal s .terminated
  | sleep => exact hh.signal s .yield
  | syscpy rd rs rt => exact hh.execSyscpy rd rs rt s
  | sysset rd rs rt => exact hh.execSysset rd rs rt s

end Unseen

/-- One iteration from its fetch to the end of its handler, before its count (R93). -/
def iteration (s : State) : Out :=
  match fetchDecode s with
  | .done o => o
  | .handler i s' => exec i s'

/-- An iteration neither sees nor undoes `h`. -/
theorem Unseen.iteration {h : State → State} (hh : Unseen h) (s : State) :
    iteration (h s) = mapNext h (iteration s) := by
  simp only [Machine.iteration, fetchDecode, fetchInsn, hh.pc, hh.memRead, hh.setPc]
  cases alignedTo 4 s.pc with
  | false => exact congrArg _ (hh.raise ..)
  | true =>
    cases Machine.memRead s s.pc 4 with
    | none => exact congrArg _ (hh.raise ..)
    | some w =>
      cases hd : decodeWord w with
      | error e => simp only [hd]; exact congrArg _ (hh.raise ..)
      | ok i => simp only [hd]; exact hh.exec i _

/-- What `h` leaves as it is before an iteration, it leaves as it is after one. -/
theorem Unseen.fixed_of_iteration {h : State → State} (hh : Unseen h) {s t : State} (hs : h s = s)
    (ht : Machine.iteration s = .next t) : h t = t := by
  have hcomm := hh.iteration s
  rw [hs, ht, mapNext_next] at hcomm
  exact (Host.Outcome.next.inj hcomm).symm

end Sys2Proof.Machine
end

