-- ==== Sys2Proof/Proofs/SplitRuns.lean ====
section
/-!
PROOF. Splitting a budget (spec/40_loop_and_resolver.md R106): a run and a second one with a larger budget go side by
side until the first one's budget is exhausted; there loop entry makes the first state equal to the second but for the
counter and the budget, and from there both leave the loop at the same iteration.
-/
namespace Sys2Proof.Machine

/-! ## Steps while the host is quiet -/

theorem nextTurn_of_quiet {s : State} (hq : hostQuiet s) : nextTurn s = coreTurn s := by
  simp only [nextTurn, show s.hostMoves = [] from hq]

theorem leavesLoop_iff {s : State} :
    leavesLoop s = true ↔ s.shouldStop = true ∨ s.budget.toNat ≤ s.instructionRan.toNat := by
  simp [leavesLoop]

theorem step_of_idle {s : State} (hq : hostQuiet s) (hidle : s.isRunning = false) : step s = .next s :=
  step_of_done ((nextTurn_of_quiet hq).trans (by simp [coreTurn, hidle]))

theorem step_of_leavesLoop {s : State} (hq : hostQuiet s) (hrun : s.isRunning = true) (hleave : leavesLoop s = true) :
    step s = .next (loopExit s) :=
  step_of_done ((nextTurn_of_quiet hq).trans (by simp [coreTurn, hrun, hleave]))

theorem step_of_atIteration {s : State} (hs : atIteration s) : step s = retire (iteration s) := by
  obtain ⟨hq, hrun, hstop, hlt⟩ := hs
  have hturn : nextTurn s = fetchDecode s :=
    (nextTurn_of_quiet hq).trans (by simp [coreTurn, hrun, leavesLoop, hstop, Nat.not_le.mpr hlt])
  rcases fetchDecode_cases s with ⟨-, e⟩ | ⟨-, -, e⟩ | ⟨w, er, -, -, -, e⟩ | ⟨w, i, -, -, -, e⟩
  · rw [step_of_done (hturn.trans e), iteration, e]; rfl
  · rw [step_of_done (hturn.trans e), iteration, e]; rfl
  · rw [step_of_done (hturn.trans e), iteration, e]; rfl
  · rw [step_of_handler (hturn.trans e), iteration, e]

/-- A quiet machine is Idle, at the loop exit, or at an iteration (R93, R94). -/
theorem quiet_cases {s : State} (hq : hostQuiet s) :
    s.isRunning = false ∨ (s.isRunning = true ∧ leavesLoop s = true) ∨ atIteration s := by
  rcases coreTurn_cases s with ⟨hidle, -⟩ | ⟨hrun, hleave, -⟩ | ⟨hrun, hstay, -⟩
  · exact .inl hidle
  · exact .inr (.inl ⟨hrun, hleave⟩)
  · obtain ⟨hstop, hlt⟩ : s.shouldStop = false ∧ s.instructionRan.toNat < s.budget.toNat := by
      simpa [leavesLoop] using hstay
    exact .inr (.inr ⟨hq, hrun, hstop, hlt⟩)

/-- The count after a handler (R97). -/
def State.counted (s : State) : State :=
  if s.isRunning then { s with instructionRan := s.instructionRan + 1 } else s

theorem counted_of_running {s : State} (h : s.isRunning = true) :
    s.counted = { s with instructionRan := s.instructionRan + 1 } := if_pos h

theorem counted_of_idle {s : State} (h : s.isRunning = false) : s.counted = s := by simp [State.counted, h]

theorem step_of_iteration {s v : State} (hs : atIteration s) (hv : iteration s = .next v) :
    step s = .next v.counted := by
  rw [step_of_atIteration hs, hv, retire_next, State.counted]

theorem iteration_of_step {s t : State} (hs : atIteration s) (ht : step s = .next t) :
    ∃ v, iteration s = .next v ∧ t = v.counted := by
  cases hv : iteration s with
  | next v => exact ⟨v, rfl, Host.Outcome.next.inj (ht.symm.trans (step_of_iteration hs hv))⟩
  | fault f => cases f
  | refused r => rw [step_of_atIteration hs, hv] at ht; cases ht

/-! ## What an iteration keeps -/

/-- The state with another counter and another budget. -/
def State.recount (c : BitVec 32) (b : BitVec 31) (s : State) : State := { s with instructionRan := c, budget := b }

theorem unseen_recount (c : BitVec 32) (b : BitVec 31) : Unseen (State.recount c b) := by
  constructor <;> intros <;> rfl

theorem iteration_counter_budget {s v : State} (hv : iteration s = .next v) :
    v.instructionRan = s.instructionRan ∧ v.budget = s.budget := by
  have h : v.recount s.instructionRan s.budget = v := (unseen_recount ..).fixed_of_iteration rfl hv
  rw [← h]
  exact ⟨rfl, rfl⟩

/-- The state with no host move coming. -/
def State.silenced (s : State) : State := { s with hostMoves := [] }

theorem unseen_silenced : Unseen State.silenced := by constructor <;> intros <;> rfl

theorem silenced_eq_iff {s : State} : s.silenced = s ↔ hostQuiet s :=
  ⟨fun h => congrArg State.hostMoves h.symm, fun h => by cases s; cases h; rfl⟩

theorem iteration_hostQuiet {s v : State} (hq : hostQuiet s) (hv : iteration s = .next v) : hostQuiet v :=
  silenced_eq_iff.mp (unseen_silenced.fixed_of_iteration (silenced_eq_iff.mpr hq) hv)

/-- A run that has not left the loop by its exit: no answer while Running, and Idle only by a fatal error (R280). -/
structure InRun (s : State) : Prop where
  unanswered : s.isRunning = true → s.answer = none
  idleByFault : s.isRunning = false → s.fault ≠ none

/-- A change that an abort overwrites, and that leaves alone exactly the states that meet `InRun`. -/
def State.resumed (s : State) : State :=
  { s with answer := if s.isRunning then none else s.answer, isRunning := s.isRunning || s.fault.isNone }

theorem unseen_resumed : Unseen State.resumed := by constructor <;> intros <;> rfl

theorem resumed_eq_iff {s : State} : s.resumed = s ↔ InRun s := by
  constructor
  · intro h
    have ha : (if s.isRunning then none else s.answer) = s.answer := congrArg State.answer h
    have hr : (s.isRunning || s.fault.isNone) = s.isRunning := congrArg State.isRunning h
    exact ⟨fun hrun => by rw [← ha, if_pos hrun], fun hidle hf => by simp [hidle, hf] at hr⟩
  · rintro ⟨ha, hf⟩
    have ha' : (if s.isRunning then none else s.answer) = s.answer := by
      split
      · next hrun => exact (ha hrun).symm
      · rfl
    have hr' : (s.isRunning || s.fault.isNone) = s.isRunning := by
      cases hrun : s.isRunning with
      | true => rfl
      | false => simpa [Option.isSome_iff_ne_none] using hf hrun
    rw [State.resumed, ha', hr']

theorem iteration_inRun {s v : State} (hs : InRun s) (hv : iteration s = .next v) : InRun v :=
  resumed_eq_iff.mp (unseen_resumed.fixed_of_iteration (resumed_eq_iff.mpr hs) hv)

theorem step_inRun {s t : State} (hit : atIteration s) (hs : InRun s) (ht : step s = .next t) : InRun t := by
  obtain ⟨v, hv, rfl⟩ := iteration_of_step hit ht
  have hvin := iteration_inRun hs hv
  cases h : v.isRunning with
  | true => rw [counted_of_running h]; exact ⟨hvin.unanswered, hvin.idleByFault⟩
  | false => rwa [counted_of_idle h]

theorem toNat_succ_of_lt_budget {c : BitVec 32} {b : BitVec 31} (h : c.toNat < b.toNat) :
    (c + 1).toNat = c.toNat + 1 := by
  have := b.isLt
  rw [BitVec.toNat_add, show (1 : BitVec 32).toNat = 1 from rfl]
  omega

/-- An iteration after which the core is still Running was counted (R97). -/
theorem step_counter_budget {s t : State} (hit : atIteration s) (ht : step s = .next t) (hrun : t.isRunning = true) :
    t.instructionRan.toNat = s.instructionRan.toNat + 1 ∧ t.budget = s.budget := by
  have ⟨_, _, _, hlt⟩ := hit
  obtain ⟨v, hv, rfl⟩ := iteration_of_step hit ht
  obtain ⟨hcount, hbudget⟩ := iteration_counter_budget hv
  cases h : v.isRunning with
  | true => rw [counted_of_running h]; exact ⟨by rw [hcount]; exact toNat_succ_of_lt_budget hlt, hbudget⟩
  | false => rw [counted_of_idle h, h] at hrun; cases hrun

/-! ## Two runs side by side -/

/-- `s'` is `s` but for the counter and the budget, and while Running it has `d` iterations more left. -/
def Ahead (d : Nat) (s s' : State) : Prop :=
  hostQuiet s ∧ ∃ c b, s' = s.recount c b ∧
    (s.isRunning = true → s.instructionRan.toNat ≤ s.budget.toNat ∧
      b.toNat + s.instructionRan.toNat = s.budget.toNat + c.toNat + d)

theorem Ahead.quiet {d : Nat} {s s' : State} (h : Ahead d s s') : hostQuiet s := h.1

/-- An iteration of the one is an iteration of the other. -/
theorem step_ahead {d : Nat} {s s' t : State} (hst : Ahead d s s') (hs : atIteration s) (ht : step s = .next t) :
    ∃ t', step s' = .next t' ∧ Ahead d t t' := by
  obtain ⟨hq, c, b, rfl, hroom⟩ := hst
  have ⟨_, hrun, hstop, hlt⟩ := hs
  obtain ⟨-, hleft⟩ := hroom hrun
  obtain ⟨v, hv, rfl⟩ := iteration_of_step hs ht
  have hlt' : c.toNat < b.toNat := by omega
  have hstep : step (s.recount c b) = .next (v.recount c b).counted :=
    step_of_iteration ⟨hq, hrun, hstop, hlt'⟩ (by rw [(unseen_recount c b).iteration, hv, mapNext_next])
  have hvq := iteration_hostQuiet hq hv
  obtain ⟨hcount, hbudget⟩ := iteration_counter_budget hv
  refine ⟨_, hstep, ?_⟩
  cases hvr : v.isRunning with
  | false =>
    rw [counted_of_idle hvr, counted_of_idle (s := v.recount c b) hvr]
    exact ⟨hvq, c, b, rfl, fun h => nomatch hvr.symm.trans h⟩
  | true =>
    rw [counted_of_running hvr, counted_of_running (s := v.recount c b) hvr]
    refine ⟨hvq, c + 1, b, rfl, fun _ => ?_⟩
    simp only [hcount, hbudget, toNat_succ_of_lt_budget hlt, toNat_succ_of_lt_budget hlt']
    omega

/-- With as many iterations left, the two go side by side to the end and beyond. -/
theorem step_abreast {s s' t : State} (hst : Ahead 0 s s') (ht : step s = .next t) :
    ∃ t', step s' = .next t' ∧ Ahead 0 t t' := by
  have ⟨hq, c, b, e, hroom⟩ := hst
  subst e
  have hq' : hostQuiet (s.recount c b) := hq
  rcases quiet_cases hq with hidle | ⟨hrun, hleave⟩ | hit
  · obtain rfl : s = t := Host.Outcome.next.inj ((step_of_idle hq hidle).symm.trans ht)
    exact ⟨_, step_of_idle hq' hidle, hst⟩
  · obtain rfl : loopExit s = t := Host.Outcome.next.inj ((step_of_leavesLoop hq hrun hleave).symm.trans ht)
    obtain ⟨-, hleft⟩ := hroom hrun
    have hleave' : leavesLoop (s.recount c b) = true :=
      leavesLoop_iff.mpr ((leavesLoop_iff.mp hleave).imp id fun hle => show b.toNat ≤ c.toNat by omega)
    exact ⟨_, step_of_leavesLoop hq' hrun hleave', hq, c, b, rfl, nofun⟩
  · exact step_ahead hst hit ht

/-! ## Runs of several steps -/

theorem runSteps_of_step {s u : State} (h : step s = .next u) (k : Nat) : runSteps (k + 1) s = runSteps k u := by
  have hcore : Sys2Proof.core.step s = .next u := h
  simp only [runSteps, Host.Core.run, hcore]
  rfl

theorem step_of_runSteps {k : Nat} {s t : State} (h : runSteps (k + 1) s = .next t) :
    ∃ u, step s = .next u ∧ runSteps k u = .next t := by
  cases hs : step s with
  | next u => exact ⟨u, rfl, by rwa [runSteps_of_step hs] at h⟩
  | fault f => cases f
  | refused r =>
    have hcore : Sys2Proof.core.step s = .refused r := hs
    simp [runSteps, Host.Core.run, hcore] at h

theorem runSteps_add {m : Nat} {s u : State} (h : runSteps m s = .next u) (n : Nat) :
    runSteps (m + n) s = runSteps n u := by
  induction m generalizing s with
  | zero => cases h; rw [Nat.zero_add]
  | succ m ih =>
    obtain ⟨v, hv, hrest⟩ := step_of_runSteps h
    rw [Nat.add_right_comm, runSteps_of_step hv, ih hrest]

theorem runSteps_of_idle {s : State} (hq : hostQuiet s) (hidle : s.isRunning = false) (k : Nat) :
    runSteps k s = .next s := by
  induction k with
  | zero => rfl
  | succ k ih => rw [runSteps_of_step (step_of_idle hq hidle), ih]

theorem runSteps_abreast {k : Nat} {s s' t : State} (hst : Ahead 0 s s') (ht : runSteps k s = .next t) :
    ∃ t', runSteps k s' = .next t' ∧ Ahead 0 t t' := by
  induction k generalizing s s' with
  | zero => cases ht; exact ⟨s', rfl, hst⟩
  | succ k ih =>
    obtain ⟨u, hu, hrest⟩ := step_of_runSteps ht
    obtain ⟨u', hu', huu⟩ := step_abreast hst hu
    obtain ⟨t', ht', htt⟩ := ih huu hrest
    exact ⟨t', (runSteps_of_step hu' k).trans ht', htt⟩

/-- A run that exhausted its budget is Idle with clear latches and no request to stop (R255). -/
theorem latches_of_budgetExhausted {t : State} (h : runEnd t = some .budgetExhausted) :
    t.isRunning = false ∧ t.fault = none ∧ t.event = .none ∧ t.shouldStop = false := by
  unfold runEnd at h
  split at h
  · cases h
  · split at h <;> simp_all

/-- A run that exhausts its budget left the loop after as many iterations as it had left, and a run ahead of it goes
along until there. -/
theorem runSteps_to_exhaustion {d k : Nat} {s s' t : State} (hin : InRun s) (hrun : s.isRunning = true)
    (hst : Ahead d s s') (hk : s.budget.toNat = s.instructionRan.toNat + k) (ht : runSteps (k + 1) s = .next t)
    (hend : runEnd t = some .budgetExhausted) :
    ∃ u u', t = loopExit u ∧ InRun u ∧ u.isRunning = true ∧ u.budget.toNat = u.instructionRan.toNat ∧
      Ahead d u u' ∧ runSteps k s' = .next u' := by
  obtain ⟨-, hfault, -, hstop⟩ := latches_of_budgetExhausted hend
  induction k generalizing s s' with
  | zero =>
    have hexit := step_of_leavesLoop hst.quiet hrun (leavesLoop_iff.mpr (.inr hk.le))
    rw [runSteps_of_step hexit] at ht
    exact ⟨s, s', (Host.Outcome.next.inj ht).symm, hin, hrun, hk, hst, rfl⟩
  | succ k ih =>
    obtain ⟨v, hv, hvt⟩ := step_of_runSteps ht
    rcases quiet_cases hst.quiet with hidle | ⟨-, hleave⟩ | hit
    · exact nomatch hrun.symm.trans hidle
    · have hexit := step_of_leavesLoop hst.quiet hrun hleave
      rw [runSteps_of_step hexit, runSteps_of_idle (s := loopExit s) hst.quiet rfl] at ht
      obtain rfl := Host.Outcome.next.inj ht
      rcases leavesLoop_iff.mp hleave with hstopped | hle
      · exact nomatch hstop.symm.trans hstopped
      · omega
    · obtain ⟨v', hv', hvv⟩ := step_ahead hst hit hv
      have hvin := step_inRun hit hin hv
      cases hvr : v.isRunning with
      | false =>
        obtain rfl : v = t := Host.Outcome.next.inj ((runSteps_of_idle hvv.quiet hvr _).symm.trans hvt)
        exact absurd hfault (hvin.idleByFault hvr)
      | true =>
        obtain ⟨hcount, hbudget⟩ := step_counter_budget hit hv hvr
        obtain ⟨u, u', hexit, huin, hurun, hspent, huu, hsteps⟩ := ih hvin hvr hvv (by rw [hbudget]; omega) hvt
        exact ⟨u, u', hexit, huin, hurun, hspent, huu, (runSteps_of_step hv' k).trans hsteps⟩

theorem loopEntry_inRun (b : BitVec 31) (s : State) : InRun (loopEntry b s) := ⟨fun _ => rfl, fun h => nomatch h⟩

theorem loopEntry_eq_recount {s : State} (hrun : s.isRunning = true) (hfault : s.fault = none)
    (hevent : s.event = .none) (hstop : s.shouldStop = false) (hanswer : s.answer = none) (b : BitVec 31) :
    loopEntry b s = s.recount 0 b := by
  cases s
  subst hrun hfault hevent hstop hanswer
  rfl

/-- Settles O13: `Run(b)` is ahead of `Run(b1)` by `b2` iterations until that one's exhaustion, and abreast of `Run(b2)`
from there. -/
theorem splitRunsLeaveTheSameTask : Obligations.SplitRunsLeaveTheSameTask := by
  intro s t1 t2 t b1 b2 b hq hb h1 hend h2 ht
  obtain ⟨-, hfault, hevent, hstop⟩ := latches_of_budgetExhausted hend
  have hahead : Ahead b2.toNat (loopEntry b1 s) (loopEntry b s) :=
    ⟨hq, 0, b, rfl, fun _ => ⟨Nat.zero_le _, hb⟩⟩
  obtain ⟨u, u', rfl, huin, hurun, hspent, ⟨huq, c, b', rfl, hroom⟩, hsteps⟩ :=
    runSteps_to_exhaustion (k := b1.toNat) (loopEntry_inRun b1 s) rfl hahead (Nat.zero_add _).symm h1 hend
  have hentry : loopEntry b2 (loopExit u) = u.recount 0 b2 :=
    loopEntry_eq_recount hurun hfault hevent hstop (huin.unanswered hurun) b2
  obtain ⟨-, hleft⟩ := hroom hurun
  have habreast : Ahead 0 (u.recount 0 b2) (u.recount c b') :=
    ⟨huq, c, b', rfl, fun _ => ⟨Nat.zero_le _, show b'.toNat + 0 = b2.toNat + c.toNat + 0 by omega⟩⟩
  rw [hentry] at h2
  obtain ⟨t', ht', -, c', b'', rfl, -⟩ := runSteps_abreast habreast h2
  rw [hb, Nat.add_assoc, runSteps_add hsteps, ht'] at ht
  obtain rfl := Host.Outcome.next.inj ht
  rfl

end Sys2Proof.Machine
end

