-- ==== Sys2Proof/Proofs/ArithLogic.lean ====
section
/-!
PROOF. What the arithmetic and logic instructions do (spec/41_arith_logic.md R120 to R151, with the extensions and moves
of R181 to R185). An instruction's slot gives how its operands are read, its handler is one of the forms of Machine/Arith
or Machine/Narrow; one lemma per form turns these two facts into the row of the statement.
-/
namespace Sys2Proof.Machine

/-! ## The fields of a word are the decoder's operands (R62, R63, R65) -/

/-- The register an operand byte names is the 5-bit field at that byte's low end. -/
theorem regOfByte_extractLsb' (w : Word) (k : Nat) : regOfByte (w.extractLsb' k 8) = (w.extractLsb' k 5).toFin := by
  apply Fin.ext
  simp only [regOfByte, BitVec.val_toFin, BitVec.extractLsb'_toNat]
  omega

theorem regOfByte_byteA (w : Word) : regOfByte (byteA w) = fieldD w := regOfByte_extractLsb' w 8
theorem regOfByte_byteB (w : Word) : regOfByte (byteB w) = fieldS w := regOfByte_extractLsb' w 16
theorem regOfByte_byteC (w : Word) : regOfByte (byteC w) = fieldT w := regOfByte_extractLsb' w 24

theorem regs3_eq (f : Reg → Reg → Reg → Instr) : regs3 f = fun w => f (fieldD w) (fieldS w) (fieldT w) :=
  funext fun w => by rw [regs3, regOfByte_byteA, regOfByte_byteB, regOfByte_byteC]

theorem regs2_eq (f : Reg → Reg → Instr) : regs2 f = fun w => f (fieldD w) (fieldS w) :=
  funext fun w => by rw [regs2, regOfByte_byteA, regOfByte_byteB]

/-- A slot's row says all that `isEncoded` asks. -/
theorem isEncoded_of_slot {op : Byte} {shape : Shape} {info : Bool} {build : Word → Instr}
    (hs : slot op = some ⟨op, shape, info, build⟩) : isEncoded op shape info build :=
  ⟨by rw [hs]; rfl, fun _ hw => decodeWord_of_build (by rw [hs]; rfl) hw⟩

theorem isEncoded_regs3 {op : Byte} {shape : Shape} {info : Bool} {f : Reg → Reg → Reg → Instr}
    (hs : slot op = some ⟨op, shape, info, regs3 f⟩) :
    isEncoded op shape info (fun w => f (fieldD w) (fieldS w) (fieldT w)) :=
  regs3_eq f ▸ isEncoded_of_slot hs

theorem isEncoded_regs2 {op : Byte} {shape : Shape} {info : Bool} {f : Reg → Reg → Instr}
    (hs : slot op = some ⟨op, shape, info, regs2 f⟩) :
    isEncoded op shape info (fun w => f (fieldD w) (fieldS w)) :=
  regs2_eq f ▸ isEncoded_of_slot hs

/-! ## Extensions as bit operations (R7) -/

/-- Zero extension from `n` bits is the mask of the low `n` bits. -/
theorem zext_eq_and (n : Nat) (v : Word) : zext n v = v &&& BitVec.ofNat 32 (2 ^ n - 1) := by
  refine BitVec.eq_of_getLsbD_eq fun i hi => ?_
  simp only [zext, BitVec.getLsbD_setWidth, BitVec.getLsbD_and, BitVec.getLsbD_ofNat, Nat.testBit_two_pow_sub_one, hi,
    decide_true, Bool.true_and, Bool.and_comm]

/-- Sign extension from `n` bits extends the bit field at 0. -/
theorem sext_eq_signExtend {n : Nat} (hn : n ≤ 32) (v : Word) : sext n v = (v.extractLsb' 0 n).signExtend 32 := by
  rw [sext, BitVec.setWidth_eq_extractLsb' hn]

/-! ## Division (R150, R274) -/

theorem divide_of_ne_zero (q : Word → Word → Word) (rd : Reg) (x a : Word) {y : Word} (s : State) (hy : y ≠ 0) :
    divide q rd x y a s = .next (s.setReg rd (q x y)) := if_neg hy

theorem divide_of_eq_zero (q : Word → Word → Word) (rd : Reg) (x a : Word) {y : Word} (s : State) (hy : y = 0) :
    divide q rd x y a s = .next (raiseDivideError a s) := if_pos hy

/-! ## Each form's encoding and result, for the instruction whose slot and handler have that form -/

/-- An instruction whose first action is `FetchImmediate()` raises that one's errors (R105, R279). -/
theorem raisesForInfoWord_of_withImmediate {i : Instr} {s : State} {k : Word → State → Out}
    (he : exec i s = withImmediate s k) : raisesForInfoWord i s :=
  ⟨fun hd => he.trans (withImmediate_busError k hd), fun _ hd hv => he.trans (withImmediate_poolError k hd hv)⟩

section Forms
variable {op : Byte} {shape : Shape} {info : Bool}

/-- Three registers (R120). The handler's function may be given in other words, `g'` for `g`. -/
theorem binary_row {f : Reg → Reg → Reg → Instr} {g g' : Word → Word → Word}
    (hs : slot op = some ⟨op, shape, info, regs3 f⟩)
    (he : ∀ rd rs rt s, exec (f rd rs rt) s = binary g rd rs rt s) (hg : ∀ x y, g x y = g' x y) :
    isEncoded op shape info (fun w => f (fieldD w) (fieldS w) (fieldT w)) ∧
    ∀ (s : State) (rd rs rt : Reg),
      exec (f rd rs rt) s = .next { s with regs := s.regs.set rd (g' (s.reg rs) (s.reg rt)) } :=
  ⟨isEncoded_regs3 hs, fun s rd rs rt => by rw [he, binary, hg]; rfl⟩

/-- Three registers, the result narrowed to `n` bits (R151): the full-width result under the mask of its low bits. -/
theorem narrowed_row (n : Nat) {f : Reg → Reg → Reg → Instr} {g : Word → Word → Word}
    (hs : slot op = some ⟨op, shape, info, regs3 f⟩)
    (he : ∀ rd rs rt s, exec (f rd rs rt) s = narrowed n g rd rs rt s) :
    isEncoded op shape info (fun w => f (fieldD w) (fieldS w) (fieldT w)) ∧
    ∀ (s : State) (rd rs rt : Reg), exec (f rd rs rt) s =
      .next { s with regs := s.regs.set rd (g (s.reg rs) (s.reg rt) &&& BitVec.ofNat 32 (2 ^ n - 1)) } :=
  binary_row hs he fun x y => zext_eq_and n (g x y)

/-- Two registers (R120, R180). -/
theorem unary_row {f : Reg → Reg → Instr} {g g' : Word → Word}
    (hs : slot op = some ⟨op, shape, info, regs2 f⟩)
    (he : ∀ rd rs s, exec (f rd rs) s = unary g rd rs s) (hg : ∀ x, g x = g' x) :
    isEncoded op shape info (fun w => f (fieldD w) (fieldS w)) ∧
    ∀ (s : State) (rd rs : Reg), exec (f rd rs) s = .next { s with regs := s.regs.set rd (g' (s.reg rs)) } :=
  ⟨isEncoded_regs2 hs, fun s rd rs => by rw [he, unary, hg]; rfl⟩

/-- A division of registers: by cases on the divisor. -/
theorem divide_row {f : Reg → Reg → Reg → Instr} {q : Word → Word → Word}
    (hs : slot op = some ⟨op, shape, info, regs3 f⟩)
    (he : ∀ rd rs rt s, exec (f rd rs rt) s = divide q rd (s.reg rs) (s.reg rt) s.insnAddr s) :
    isEncoded op shape info (fun w => f (fieldD w) (fieldS w) (fieldT w)) ∧
    ∀ (s : State) (rd rs rt : Reg),
      (s.reg rt ≠ 0 → exec (f rd rs rt) s = .next { s with regs := s.regs.set rd (q (s.reg rs) (s.reg rt)) }) ∧
      (s.reg rt = 0 → exec (f rd rs rt) s = .next (raise ⟨.divideError, 0, s.pc - 4, 0, 0⟩ s)) :=
  ⟨isEncoded_regs3 hs, fun s rd rs rt =>
    ⟨fun hy => (he rd rs rt s).trans (divide_of_ne_zero q rd _ _ s hy),
     fun hy => (he rd rs rt s).trans (divide_of_eq_zero q rd _ _ s hy)⟩⟩

/-- A register and an immediate (R105, R120). -/
theorem binaryImm_row {f : Reg → Reg → Instr} {g : Word → Word → Word}
    (hs : slot op = some ⟨op, shape, info, regs2 f⟩)
    (he : ∀ rd rs s, exec (f rd rs) s = binaryImm g rd rs s) :
    isEncoded op shape info (fun w => f (fieldD w) (fieldS w)) ∧
    (∀ (s : State) (rd rs : Reg), raisesForInfoWord (f rd rs) s) ∧
    ∀ (s : State) (info imm : Word) (rd rs : Reg), fetchData s s.pc = some info → resolve s.pool info = some imm →
      exec (f rd rs) s = .next { s with pc := s.pc + 4, regs := s.regs.set rd (g (s.reg rs) imm) } :=
  ⟨isEncoded_regs2 hs, fun s rd rs => raisesForInfoWord_of_withImmediate (he rd rs s),
    fun s _ _ rd rs hd hv => (he rd rs s).trans (withImmediate_ok _ hd hv)⟩

/-- A division by an immediate: past the info word, by cases on the immediate. -/
theorem divideImm_row {f : Reg → Reg → Instr} {q : Word → Word → Word}
    (hs : slot op = some ⟨op, shape, info, regs2 f⟩)
    (he : ∀ rd rs s, exec (f rd rs) s = withImmediate s (fun imm s' => divide q rd (s'.reg rs) imm s.insnAddr s')) :
    isEncoded op shape info (fun w => f (fieldD w) (fieldS w)) ∧
    (∀ (s : State) (rd rs : Reg), raisesForInfoWord (f rd rs) s) ∧
    ∀ (s : State) (info imm : Word) (rd rs : Reg), fetchData s s.pc = some info → resolve s.pool info = some imm →
      (imm ≠ 0 → exec (f rd rs) s = .next { s with pc := s.pc + 4, regs := s.regs.set rd (q (s.reg rs) imm) }) ∧
      (imm = 0 → exec (f rd rs) s =
        .next (raise ⟨.divideError, 0, s.pc - 4, 0, 0⟩ { s with pc := s.pc + 4 })) := by
  refine ⟨isEncoded_regs2 hs, fun s rd rs => raisesForInfoWord_of_withImmediate (he rd rs s), ?_⟩
  intro s info imm rd rs hd hv
  have hexec := (he rd rs s).trans (withImmediate_ok _ hd hv)
  exact ⟨fun hy => hexec.trans (divide_of_ne_zero q rd _ _ _ hy),
    fun hy => hexec.trans (divide_of_eq_zero q rd _ _ _ hy)⟩

end Forms

/-! ## The statements, row by row -/

/-- Settles O28: six three-register forms. -/
theorem registerArithmeticResults : Obligations.RegisterArithmeticResults := by
  intro r hr
  simp only [List.mem_cons, List.not_mem_nil, or_false] at hr
  rcases hr with rfl | rfl | rfl | rfl | rfl | rfl
  all_goals exact binary_row rfl (fun _ _ _ _ => rfl) (fun _ _ => rfl)

/-- Settles O29: seven two-register forms; the extensions and the narrow moves are the model's `sext` and `zext`. -/
theorem twoRegisterResults : Obligations.TwoRegisterResults := by
  intro r hr
  simp only [List.mem_cons, List.not_mem_nil, or_false] at hr
  rcases hr with rfl | rfl | rfl | rfl | rfl | rfl | rfl
  · exact unary_row rfl (fun _ _ _ => rfl) (fun _ => rfl)
  · exact unary_row rfl (fun _ _ _ => rfl) (fun _ => rfl)
  · exact unary_row rfl (fun _ _ _ => rfl) (sext_eq_signExtend (by decide))
  · exact unary_row rfl (fun _ _ _ => rfl) (sext_eq_signExtend (by decide))
  · exact unary_row rfl (fun _ _ _ => rfl) (fun _ => rfl)
  · exact unary_row rfl (fun _ _ _ => rfl) (zext_eq_and 8)
  · exact unary_row rfl (fun _ _ _ => rfl) (zext_eq_and 16)

/-- Settles O30: both quotients by the division form. -/
theorem divisionResults : Obligations.DivisionResults := by
  intro r hr
  simp only [List.mem_cons, List.not_mem_nil, or_false] at hr
  rcases hr with rfl | rfl
  · exact divide_row (q := quotS) rfl (fun _ _ _ _ => rfl)
  · exact divide_row (q := quotU) rfl (fun _ _ _ _ => rfl)

/-- Settles O32: six immediate forms. -/
theorem immediateArithmeticResults : Obligations.ImmediateArithmeticResults := by
  intro r hr
  simp only [List.mem_cons, List.not_mem_nil, or_false] at hr
  rcases hr with rfl | rfl | rfl | rfl | rfl | rfl
  all_goals exact binaryImm_row rfl (fun _ _ _ => rfl)

/-- Settles O33: both quotients by the immediate division form. -/
theorem immediateDivisionResults : Obligations.ImmediateDivisionResults := by
  intro r hr
  simp only [List.mem_cons, List.not_mem_nil, or_false] at hr
  rcases hr with rfl | rfl
  · exact divideImm_row (q := quotS) rfl (fun _ _ _ => rfl)
  · exact divideImm_row (q := quotU) rfl (fun _ _ _ => rfl)

/-- Settles O34: ten narrowed forms, five for bytes and five for halves. -/
theorem narrowArithmeticResults : Obligations.NarrowArithmeticResults := by
  intro r hr
  simp only [List.mem_cons, List.not_mem_nil, or_false] at hr
  rcases hr with rfl | rfl | rfl | rfl | rfl | rfl | rfl | rfl | rfl | rfl
  iterate 5 exact narrowed_row 8 rfl (fun _ _ _ _ => rfl)
  iterate 5 exact narrowed_row 16 rfl (fun _ _ _ _ => rfl)

end Sys2Proof.Machine
end

