-- ==== Sys2Proof/Proofs/Shift.lean ====
section
/-!
PROOF. What the shifts do (spec/42_shift.md R160 to R172). A shift by a count register is a three-register form; one by
the 5-bit `sh` has a row lemma of its own. A scoped shift's cut to its width is a remainder, so its result is arithmetic
on the low bits whatever the count.
-/
namespace Sys2Proof.Machine

/-! ## Counts (R62, R160) -/

/-- The count in an operand byte is the 5-bit field at the byte's low end. -/
theorem shiftOfByte_byteC (w : Word) : shiftOfByte (byteC w) = fieldSh w := by
  simp only [shiftOfByte, byteC, fieldSh, BitVec.extractLsb'_toNat]
  omega

theorem regsShift_eq (f : Reg → Reg → Nat → Instr) : regsShift f = fun w => f (fieldD w) (fieldS w) (fieldSh w) :=
  funext fun w => by rw [regsShift, regOfByte_byteA, regOfByte_byteB, shiftOfByte_byteC]

theorem countOf_eq_extractLsb' (v : Word) : countOf v = (v.extractLsb' 0 5).toNat := by
  rw [countOf, BitVec.extractLsb'_toNat, Nat.shiftRight_zero]

/-! ## Cutting to the low `n` bits, as arithmetic (R7) -/

theorem zext_eq_ofNat_mod (n : Nat) (v : Word) : zext n v = BitVec.ofNat 32 (v.toNat % 2 ^ n) := by
  rw [zext, ← BitVec.ofNat_toNat, BitVec.toNat_setWidth]

theorem toNat_zext (n : Nat) (v : Word) : (zext n v).toNat = v.toNat % 2 ^ n := by
  rw [zext_eq_ofNat_mod, BitVec.toNat_ofNat, Nat.mod_eq_of_lt (Nat.mod_le _ _ |>.trans_lt v.isLt)]

theorem toInt_sext {n : Nat} (hn : n ≤ 32) (v : Word) : (sext n v).toInt = (v.extractLsb' 0 n).toInt := by
  rw [sext_eq_signExtend hn, BitVec.toInt_signExtend_of_le hn]

/-- The low `n` bits are the same remainder of the signed and of the unsigned reading. -/
theorem toInt_emod_two_pow {n : Nat} (hn : n ≤ 32) (v : Word) : v.toInt % 2 ^ n = ((v.toNat % 2 ^ n : Nat) : Int) := by
  have hdvd : (2 ^ n : Int) ∣ ((2 ^ 32 : Nat) : Int) := by exact_mod_cast pow_dvd_pow 2 hn
  rw [BitVec.toInt_eq_toNat_bmod, ← Int.emod_emod_of_dvd _ hdvd, Int.bmod_emod, Int.emod_emod_of_dvd _ hdvd]
  norm_cast

/-! ## The scoped shifts as arithmetic on the low `n` bits (R167 to R172) -/

section Scoped
variable {n : Nat}

/-- Shifting left in 32 bits and then cutting to `n` of them is the product modulo `2 ^ n`. -/
theorem zext_shiftLeft_zext (hn : n ≤ 32) (x : Word) (sh : Nat) :
    zext n (zext n x <<< sh) = BitVec.ofNat 32 (x.toNat % 2 ^ n * 2 ^ sh % 2 ^ n) := by
  rw [zext_eq_ofNat_mod, BitVec.toNat_shiftLeft, Nat.mod_mod_of_dvd _ (pow_dvd_pow 2 hn), Nat.shiftLeft_eq, toNat_zext]

/-- A logical right shift of `n` bits is the quotient, which fits them already. -/
theorem zext_ushiftRight_zext (x : Word) (sh : Nat) :
    zext n (zext n x >>> sh) = BitVec.ofNat 32 (x.toNat % 2 ^ n / 2 ^ sh) := by
  have hfits : x.toNat % 2 ^ n / 2 ^ sh < 2 ^ n := (Nat.div_le_self _ _).trans_lt (Nat.mod_lt _ (Nat.two_pow_pos n))
  rw [zext_eq_ofNat_mod, BitVec.toNat_ushiftRight, Nat.shiftRight_eq_div_pow, toNat_zext, Nat.mod_eq_of_lt hfits]

/-- An arithmetic right shift of `n` bits is the floor of the signed quotient, cut to `n` bits. -/
theorem zext_sshiftRight_sext (hn : n ≤ 32) (x : Word) (sh : Nat) :
    zext n ((sext n x).sshiftRight sh) =
      BitVec.ofNat 32 ((x.extractLsb' 0 n).toInt.fdiv (2 ^ sh) % 2 ^ n).toNat := by
  have hquot : ((sext n x).sshiftRight sh).toInt = (x.extractLsb' 0 n).toInt.fdiv (2 ^ sh) := by
    rw [BitVec.toInt_sshiftRight, Int.shiftRight_eq_div_pow, toInt_sext hn,
      Int.fdiv_eq_ediv_of_nonneg _ (by positivity)]
    norm_cast
  rw [zext_eq_ofNat_mod, ← hquot, toInt_emod_two_pow hn, Int.toNat_natCast]

end Scoped

/-! ## Each form's encoding and result (R63, R160) -/

section Forms
variable {op : Byte} {shape : Shape} {info : Bool}

/-- Two registers and a count. The handler's function may be given in other words, `g'` for `g`. -/
theorem shift_row {f : Reg → Reg → Nat → Instr} {g g' : Word → Nat → Word}
    (hs : slot op = some ⟨op, shape, info, regsShift f⟩)
    (he : ∀ rd rs sh s, exec (f rd rs sh) s = unary (g · sh) rd rs s) (hg : ∀ x sh, g x sh = g' x sh) :
    isEncoded op shape info (fun w => f (fieldD w) (fieldS w) (fieldSh w)) ∧
    ∀ (s : State) (rd rs : Reg) (sh : Nat),
      exec (f rd rs sh) s = .next { s with regs := s.regs.set rd (g' (s.reg rs) sh) } :=
  ⟨regsShift_eq f ▸ isEncoded_of_slot hs, fun s rd rs sh => by rw [he, unary, hg]; rfl⟩

/-- Three registers, the count in the third (R160). -/
theorem shiftByReg_row {f : Reg → Reg → Reg → Instr} {g : Word → Nat → Word}
    (hs : slot op = some ⟨op, shape, info, regs3 f⟩)
    (he : ∀ rd rs rt s, exec (f rd rs rt) s = binary (fun x y => g x (countOf y)) rd rs rt s) :
    isEncoded op shape info (fun w => f (fieldD w) (fieldS w) (fieldT w)) ∧
    ∀ (s : State) (rd rs rt : Reg), exec (f rd rs rt) s =
      .next { s with regs := s.regs.set rd (g (s.reg rs) ((s.reg rt).extractLsb' 0 5).toNat) } :=
  binary_row hs he fun x y => congrArg (g x) (countOf_eq_extractLsb' y)

end Forms

/-! ## The statements, row by row -/

/-- Settles O38: three scoped shifts of a byte, then the same three of a half. -/
theorem scopedShiftResults : Obligations.ScopedShiftResults := by
  intro r hr
  simp only [List.mem_cons, List.not_mem_nil, or_false] at hr
  rcases hr with rfl | rfl | rfl | rfl | rfl | rfl
  · exact shift_row rfl (fun _ _ _ _ => rfl) (zext_shiftLeft_zext (n := 8) (by decide))
  · exact shift_row rfl (fun _ _ _ _ => rfl) (zext_ushiftRight_zext (n := 8))
  · exact shift_row rfl (fun _ _ _ _ => rfl) (zext_sshiftRight_sext (n := 8) (by decide))
  · exact shift_row rfl (fun _ _ _ _ => rfl) (zext_shiftLeft_zext (n := 16) (by decide))
  · exact shift_row rfl (fun _ _ _ _ => rfl) (zext_ushiftRight_zext (n := 16))
  · exact shift_row rfl (fun _ _ _ _ => rfl) (zext_sshiftRight_sext (n := 16) (by decide))

/-- Settles O36: three shifts by a count register, then the same three by `sh`. -/
theorem fullWidthShiftResults : Obligations.FullWidthShiftResults := by
  constructor
  · intro r hr
    simp only [List.mem_cons, List.not_mem_nil, or_false] at hr
    rcases hr with rfl | rfl | rfl
    all_goals exact shiftByReg_row rfl (fun _ _ _ _ => rfl)
  · intro r hr
    simp only [List.mem_cons, List.not_mem_nil, or_false] at hr
    rcases hr with rfl | rfl | rfl
    all_goals exact shift_row rfl (fun _ _ _ _ => rfl) (fun _ _ => rfl)

end Sys2Proof.Machine
end

