-- ==== Sys2Proof/Proofs/LoadImmediate.lean ====
section
/-!
PROOF. What LDI does (spec/43_move_extend_ldi.md R186): its slot reads one register, its handler is what `withImmediate`
runs once the info word is resolved.
-/
namespace Sys2Proof.Machine

theorem reg1_eq (f : Reg → Instr) : reg1 f = fun w => f (fieldD w) :=
  funext fun w => by rw [reg1, regOfByte_byteA]

theorem isEncoded_reg1 {op : Byte} {shape : Shape} {info : Bool} {f : Reg → Instr}
    (hs : slot op = some ⟨op, shape, info, reg1 f⟩) : isEncoded op shape info (fun w => f (fieldD w)) :=
  reg1_eq f ▸ isEncoded_of_slot hs

theorem exec_ldi (rd : Reg) (s : State) :
    exec (.ldi rd) s = withImmediate s (fun imm s' => .next (s'.setReg rd imm)) := rfl

/-- Settles O39: the three outcomes of the info word, each by the resolver's lemma for it. -/
theorem loadImmediateResult : Obligations.LoadImmediateResult := by
  refine ⟨isEncoded_reg1 rfl, fun s rd => ⟨fun info imm hd hv => ?_, ?_⟩⟩
  · exact (exec_ldi rd s).trans (withImmediate_ok _ hd hv)
  · exact raisesForInfoWord_of_withImmediate (exec_ldi rd s)

end Sys2Proof.Machine
end

