-- ==== Sys2Proof/Proofs/RegisterFrame.lean ====
section
/-!
PROOF. The register frame of every instruction (spec/41_arith_logic.md to spec/48_system_bridge.md):
one lemma per form of meaning says which registers that form may write. Only RESTORE writes more than one, so its lemma
is the one with an induction, over the registers it loads.
-/
namespace Sys2Proof.Machine

/-! ## States that agree outside a list of registers -/

/-- Outside `ws`, `t` holds the registers of `s`. -/
def RegsKept (ws : List Reg) (s t : State) : Prop := ∀ r ∉ ws, t.reg r = s.reg r

/-- If `o` is a next state, it holds the registers of `s` outside `ws`. -/
structure WritesOnly (ws : List Reg) (s : State) (o : Out) : Prop where
  regsKept : ∀ t, o = .next t → RegsKept ws s t

section Keeping
variable {ws vs : List Reg} {s t u : State}

theorem RegsKept.of_regs_eq (h : t.regs = s.regs) : RegsKept ws s t := fun r _ => by simp only [State.reg, h]

theorem RegsKept.trans (hst : RegsKept ws s t) (htu : RegsKept ws t u) : RegsKept ws s u :=
  fun r hr => (htu r hr).trans (hst r hr)

theorem RegsKept.mono (h : RegsKept ws s t) (hsub : ws ⊆ vs) : RegsKept vs s t :=
  fun r hr => h r fun hmem => hr (hsub hmem)

theorem regsKept_setReg {q : Reg} (hq : q ∈ ws) (s : State) (v : Word) : RegsKept ws s (s.setReg q v) :=
  fun _ hr => reg_setReg_ne s v (ne_of_mem_of_not_mem hq hr).symm

theorem RegsKept.next (h : RegsKept ws s t) : WritesOnly ws s (.next t) where
  regsKept := by rintro _ ⟨⟩; exact h

theorem WritesOnly.of_regs_eq {o : Out} (ho : WritesOnly ws t o) (h : t.regs = s.regs) : WritesOnly ws s o where
  regsKept u hu := .trans (.of_regs_eq h) (ho.regsKept u hu)

theorem writesOnly_next_of_regs_eq (h : t.regs = s.regs) : WritesOnly ws s (.next t) := (RegsKept.of_regs_eq h).next

theorem writesOnly_setReg (rd : Reg) (v : Word) (s : State) : WritesOnly [rd] s (.next (s.setReg rd v)) :=
  (regsKept_setReg (List.mem_singleton_self rd) s v).next

end Keeping

/-! ## The registers of a range (R66, R250) -/

theorem mem_rangeRegs {first last r : Reg} : r ∈ rangeRegs first last ↔ first ≤ r ∧ r ≤ last := by
  simp only [rangeRegs, rangeCount, List.mem_map, List.mem_range'_1, Fin.le_def]
  constructor
  · rintro ⟨i, ⟨hlo, hhi⟩, rfl⟩
    rw [Fin.val_ofNat, Nat.mod_eq_of_lt (by split at hhi <;> omega)]
    split at hhi <;> omega
  · rintro ⟨hlo, hhi⟩
    rw [if_pos (hlo.trans hhi)]
    exact ⟨r, by omega, Fin.ofNat_val_eq_self r⟩

theorem rangeRegs_subset_writtenRegs (first last : Reg) :
    rangeRegs first last ⊆ writtenRegs (.restore first last) := fun r hr =>
  List.mem_cons_of_mem _ (List.mem_filter.2 ⟨List.mem_finRange r, decide_eq_true (mem_rangeRegs.1 hr)⟩)

/-! ## Each form of meaning -/

/-- The resolver writes no register, on any of its branches (R100). -/
theorem writesOnly_withImmediate {ws : List Reg} {k : Word → State → Out} (hk : ∀ v t, WritesOnly ws t (k v t))
    (s : State) : WritesOnly ws s (withImmediate s k) := by
  rcases withImmediate_cases s k with ⟨s', herr, hout⟩ | ⟨v, -, hout⟩ <;> rw [hout]
  · rcases fetchImmediate_error herr with ⟨r, rfl | rfl⟩ <;> exact writesOnly_next_of_regs_eq rfl
  · exact (hk v (s.setPc (s.pc + 4))).of_regs_eq rfl

theorem writesOnly_binaryImm (f : Word → Word → Word) (rd rs : Reg) (s : State) :
    WritesOnly [rd] s (binaryImm f rd rs s) :=
  writesOnly_withImmediate (fun _ t => writesOnly_setReg rd _ t) s

theorem writesOnly_divide (q : Word → Word → Word) (rd : Reg) (x y a : Word) (s : State) :
    WritesOnly [rd] s (divide q rd x y a s) := by
  by_cases hy : y = 0
  · rw [divide_of_eq_zero q rd x a s hy]
    exact writesOnly_next_of_regs_eq rfl
  · rw [divide_of_ne_zero q rd x a s hy]
    exact writesOnly_setReg rd _ s

theorem writesOnly_branchIf (c : Cond) (x y : Word) (disp : Int) (s : State) :
    WritesOnly [] s (branchIf c x y disp s) :=
  writesOnly_next_of_regs_eq (by split <;> rfl)

theorem writesOnly_branchInfo (c : Cond) (rd : Reg) (disp : Int) (s : State) :
    WritesOnly [] s (branchInfo c rd disp s) :=
  writesOnly_withImmediate (fun y t => writesOnly_branchIf c (t.reg rd) y disp t) s

theorem writesOnly_load (n : Nat) (ext : Word → Word) (rd rs : Reg) (s : State) :
    WritesOnly [rd] s (load n ext rd rs s) := by
  refine writesOnly_withImmediate (fun disp t => ?_) s
  cases hread : memRead t (effAddr t rs disp) n with
  | some v => simp only [hread]; exact writesOnly_setReg rd (ext v) t
  | none => simp only [hread]; exact writesOnly_next_of_regs_eq rfl

theorem writesOnly_store (n : Nat) (rd rs : Reg) (s : State) : WritesOnly [] s (store n rd rs s) := by
  refine writesOnly_withImmediate (fun disp t => ?_) s
  cases hwrite : memWrite t (effAddr t rs disp) n (t.reg rd) with
  | some u =>
    obtain ⟨-, -, rfl⟩ := (memWrite_eq_some_iff ..).1 hwrite
    simp only [hwrite]
    exact writesOnly_next_of_regs_eq rfl
  | none => simp only [hwrite]; exact writesOnly_next_of_regs_eq rfl

theorem writesOnly_callTo (tgt : Word) (s : State) : WritesOnly [Config.ra] s (callTo tgt s) :=
  RegsKept.next (.trans (regsKept_setReg (List.mem_singleton_self _) s s.pc) (.of_regs_eq rfl))

/-- STORE's own transactions write memory only; `sp` is the one register it updates (R251). -/
theorem writesOnly_execStore (first last : Reg) (s : State) : WritesOnly [Config.sp] s (execStore first last s) := by
  simp only [execStore]
  split
  · exact writesOnly_next_of_regs_eq rfl
  · rcases pushWords_changes_mem ((rangeRegs first last).map s.reg) s (s.reg Config.sp - frameBytes first last) with
      ⟨m, hpush⟩ | ⟨m, x, hpush⟩ <;> rw [hpush]
    · exact RegsKept.next (.trans (.of_regs_eq rfl) (regsKept_setReg (List.mem_singleton_self _) (s.setMem m) _))
    · exact writesOnly_next_of_regs_eq rfl

/-- The transactions of RESTORE write only the registers they are to load, also when one is refused (R252, R279). -/
theorem popWords_regsKept (rs : List Reg) (s : State) (a : Word) :
    (∃ t, popWords s a rs = .ok t ∧ RegsKept rs s t) ∨
    (∃ t x, popWords s a rs = .error (x, t) ∧ RegsKept rs s t) := by
  induction rs generalizing s a with
  | nil => exact .inl ⟨s, rfl, .of_regs_eq rfl⟩
  | cons r rs ih =>
    simp only [popWords]
    cases memRead s a 4 with
    | none => exact .inr ⟨s, a, rfl, .of_regs_eq rfl⟩
    | some v =>
      have hset : RegsKept (r :: rs) s (s.setReg r v) := regsKept_setReg List.mem_cons_self s v
      have hrest {t : State} (h : RegsKept rs (s.setReg r v) t) : RegsKept (r :: rs) s t :=
        hset.trans (h.mono (List.subset_cons_self r rs))
      rcases ih (s.setReg r v) (a + 4) with ⟨t, hpop, ht⟩ | ⟨t, x, hpop, ht⟩
      · exact .inl ⟨t, hpop, hrest ht⟩
      · exact .inr ⟨t, x, hpop, hrest ht⟩

theorem writesOnly_execRestore (first last : Reg) (s : State) :
    WritesOnly (writtenRegs (.restore first last)) s (execRestore first last s) := by
  have hrange := rangeRegs_subset_writtenRegs first last
  simp only [execRestore]
  split
  · exact writesOnly_next_of_regs_eq rfl
  · rcases popWords_regsKept (rangeRegs first last) s (s.reg Config.sp) with ⟨t, hpop, ht⟩ | ⟨t, x, hpop, ht⟩ <;>
      rw [hpop]
    · exact RegsKept.next (.trans (ht.mono hrange) (regsKept_setReg List.mem_cons_self t _))
    · exact RegsKept.next (.trans (ht.mono hrange) (.of_regs_eq rfl))

theorem writesOnly_execSyscpy (rd rs rt : Reg) (s : State) : WritesOnly [] s (execSyscpy rd rs rt s) := by
  rcases blockCopy_cases s (s.reg rd) (s.reg rs) (s.reg rt).toNat with ⟨-, -, hcopy⟩ | ⟨-, hcopy⟩ <;>
    rw [execSyscpy, hcopy] <;> exact writesOnly_next_of_regs_eq rfl

theorem writesOnly_execSysset (rd rs rt : Reg) (s : State) : WritesOnly [] s (execSysset rd rs rt s) := by
  rcases blockFill_cases s (s.reg rd) ((s.reg rs).setWidth 8) (s.reg rt).toNat with ⟨-, hfill⟩ | ⟨-, hfill⟩ <;>
    rw [execSysset, hfill] <;> exact writesOnly_next_of_regs_eq rfl

/-! ## Every instruction -/

/-- The cases are grouped by form of meaning; a two- or three-register form is one write of its destination. -/
theorem exec_writesOnly (i : Instr) (s : State) : WritesOnly (writtenRegs i) s (exec i s) := by
  cases i with
  | add | sub | mul | and | or | xor | neg | not => exact writesOnly_setReg ..
  | addb | subb | andb | orb | xorb | addh | subh | andh | orh | xorh => exact writesOnly_setReg ..
  | sll | srl | sra | slli | srli | srai | sllb | srlb | srab | sllh | srlh | srah => exact writesOnly_setReg ..
  | exsb | exsh | mov | movb | movh => exact writesOnly_setReg ..
  | addi | subi | muli | andi | ori | xori => exact writesOnly_binaryImm ..
  | div | divu => exact writesOnly_divide ..
  | divi | divui => exact writesOnly_withImmediate (fun _ _ => writesOnly_divide ..) s
  | ldi rd => exact writesOnly_withImmediate (fun imm t => writesOnly_setReg rd imm t) s
  | beqi | bnei | bgti | bgei | blti | blei | bgtui | bgeui | bltui | bleui => exact writesOnly_branchInfo ..
  | beqib | bneib | bgtib | bgeib | bltib | bleib | bgtuib | bgeuib | bltuib | bleuib => exact writesOnly_branchIf ..
  | ldb | ldbu | ldh | ldhu | ldw => exact writesOnly_load ..
  | stb | sth | stw => exact writesOnly_store ..
  | jpr | ret | killtask | sleep => exact writesOnly_next_of_regs_eq rfl
  | jpl => exact writesOnly_withImmediate (fun disp t => writesOnly_next_of_regs_eq (setPc_regs t (t.pc + 4 * disp))) s
  | callr => exact writesOnly_callTo ..
  | calll => exact writesOnly_withImmediate (fun _ t => writesOnly_callTo _ t) s
  | store first last => exact writesOnly_execStore first last s
  | restore first last => exact writesOnly_execRestore first last s
  | syscpy rd rs rt => exact writesOnly_execSyscpy rd rs rt s
  | sysset rd rs rt => exact writesOnly_execSysset rd rs rt s

/-- Settles O19: every form of meaning keeps the registers outside its list. -/
theorem onlyDestinationRegistersChange : Obligations.OnlyDestinationRegistersChange :=
  fun i s t r hexec hr => (exec_writesOnly i s).regsKept t hexec r hr

end Sys2Proof.Machine
end

