-- ==== Sys2Proof/Proofs/Branch.lean ====
section
/-!
PROOF. What the compare-and-branch instructions do (spec/44_compare_branch.md R190 to R212). All of them end in
`branchIf`, so taken and not taken are told apart once; the three forms differ in where the right operand comes from: the
info word, a sign-extended byte, a zero-extended byte. One lemma per form turns an instruction's slot, handler and
condition into its row of the statement.
-/
namespace Sys2Proof.Machine

/-! ## The fields of a word are the decoder's operands (R62 to R64) -/

theorem infoBranch_eq (f : Reg → Int → Instr) : infoBranch f = fun w => f (fieldD w) (fieldImm16 w).toInt :=
  funext fun w => by rw [infoBranch, regOfByte_byteA]; rfl

theorem byteBranch_eq (f : Reg → Int → Int → Instr) :
    byteBranch f = fun w => f (fieldD w) (fieldB w).toInt (fieldC w).toInt :=
  funext fun w => by rw [byteBranch, regOfByte_byteA]; rfl

theorem byteBranchU_eq (f : Reg → Nat → Int → Instr) :
    byteBranchU f = fun w => f (fieldD w) (fieldB w).toNat (fieldC w).toInt :=
  funext fun w => by rw [byteBranchU, regOfByte_byteA]; rfl

/-! ## Taken and not taken (R190, R191) -/

/-- The signed value of a displacement field counts words: its sign extension times 4 is added. -/
theorem relTarget_toInt {n : Nat} (pc : Word) (disp : BitVec n) :
    relTarget pc disp.toInt = pc + 4 * disp.signExtend 32 := by
  rw [relTarget, BitVec.ofInt_mul, BitVec.signExtend]; rfl

theorem branchIf_of_holds {cc : Cond} {x y : Word} (disp : Int) (s : State) (h : condHolds cc x y = true) :
    branchIf cc x y disp s = .next (s.setPc (relTarget s.pc disp)) := by
  rw [branchIf, if_pos h]

theorem branchIf_of_not_holds {cc : Cond} {x y : Word} (disp : Int) (s : State) (h : ¬ condHolds cc x y = true) :
    branchIf cc x y disp s = .next s := by
  rw [branchIf, if_neg h]

/-- A branch on a displacement field, where the condition says `p` of its operands. -/
theorem branchIf_results {n : Nat} {cc : Cond} {x y : Word} {p : Prop} (hc : condHolds cc x y = true ↔ p)
    (disp : BitVec n) (s : State) :
    (p → branchIf cc x y disp.toInt s = .next { s with pc := s.pc + 4 * disp.signExtend 32 }) ∧
    (¬ p → branchIf cc x y disp.toInt s = .next s) := by
  constructor
  · intro hp
    rw [branchIf_of_holds _ _ (hc.2 hp), relTarget_toInt]
    rfl
  · intro hp
    exact branchIf_of_not_holds _ _ (mt hc.1 hp)

/-! ## Each form's encoding and result -/

section Forms
variable {op : Byte} {shape : Shape} {info : Bool} {cc : Cond}

/-- The BccI form: past the info word the comparison is with its value, and the base is `pc` there. -/
theorem branchInfo_row {f : Reg → Int → Instr} {p : Word → Word → Prop}
    (hs : slot op = some ⟨op, shape, info, infoBranch f⟩)
    (he : ∀ rd disp s, exec (f rd disp) s = branchInfo cc rd disp s) (hc : ∀ x y, condHolds cc x y = true ↔ p x y) :
    isEncoded op shape info (fun w => f (fieldD w) (fieldImm16 w).toInt) ∧
    (∀ (s : State) (rd : Reg) (d16 : BitVec 16), raisesForInfoWord (f rd d16.toInt) s) ∧
    ∀ (s : State) (info y : Word) (rd : Reg) (d16 : BitVec 16), fetchData s s.pc = some info →
      resolve s.pool info = some y →
      (p (s.reg rd) y → exec (f rd d16.toInt) s = .next { s with pc := s.pc + 4 + 4 * d16.signExtend 32 }) ∧
      (¬ p (s.reg rd) y → exec (f rd d16.toInt) s = .next { s with pc := s.pc + 4 }) := by
  refine ⟨infoBranch_eq f ▸ isEncoded_of_slot hs, fun s rd d16 => raisesForInfoWord_of_withImmediate (he rd _ s), ?_⟩
  intro s info y rd d16 hd hv
  have hexec : exec (f rd d16.toInt) s = branchIf cc (s.reg rd) y d16.toInt (s.setPc (s.pc + 4)) :=
    (he rd _ s).trans (withImmediate_ok _ hd hv)
  rw [hexec]
  exact branchIf_results (hc _ _) d16 (s.setPc (s.pc + 4))

/-- The BccIB form with `sext_8(b)` (R202). -/
theorem branchSignedByte_row {f : Reg → Int → Int → Instr} {p : Word → Word → Prop}
    (hs : slot op = some ⟨op, shape, info, byteBranch f⟩)
    (he : ∀ rd b disp s, exec (f rd b disp) s = branchByte cc rd (BitVec.ofInt 32 b) disp s)
    (hc : ∀ x y, condHolds cc x y = true ↔ p x y) :
    isEncoded op shape info (fun w => f (fieldD w) (fieldB w).toInt (fieldC w).toInt) ∧
    ∀ (s : State) (rd : Reg) (b c : Byte),
      (p (s.reg rd) (b.signExtend 32) →
        exec (f rd b.toInt c.toInt) s = .next { s with pc := s.pc + 4 * c.signExtend 32 }) ∧
      (¬ p (s.reg rd) (b.signExtend 32) → exec (f rd b.toInt c.toInt) s = .next s) := by
  refine ⟨byteBranch_eq f ▸ isEncoded_of_slot hs, fun s rd b c => ?_⟩
  rw [he, branchByte, ← BitVec.signExtend]
  exact branchIf_results (hc _ _) c s

/-- The BccIB form with `zext_8(b)` (R202). -/
theorem branchUnsignedByte_row {f : Reg → Nat → Int → Instr} {p : Nat → Nat → Prop}
    (hs : slot op = some ⟨op, shape, info, byteBranchU f⟩)
    (he : ∀ rd b disp s, exec (f rd b disp) s = branchByte cc rd (BitVec.ofNat 32 b) disp s)
    (hc : ∀ x y, condHolds cc x y = true ↔ p x.toNat y.toNat) :
    isEncoded op shape info (fun w => f (fieldD w) (fieldB w).toNat (fieldC w).toInt) ∧
    ∀ (s : State) (rd : Reg) (b c : Byte),
      (p (s.reg rd).toNat b.toNat →
        exec (f rd b.toNat c.toInt) s = .next { s with pc := s.pc + 4 * c.signExtend 32 }) ∧
      (¬ p (s.reg rd).toNat b.toNat → exec (f rd b.toNat c.toInt) s = .next s) := by
  refine ⟨byteBranchU_eq f ▸ isEncoded_of_slot hs, fun s rd b c => ?_⟩
  have hb : (b.setWidth 32).toNat = b.toNat := BitVec.toNat_setWidth_of_le (by decide)
  rw [he, branchByte, BitVec.ofNat_toNat, ← hb]
  exact branchIf_results (hc _ _) c s

end Forms

/-! ## The statements, row by row -/

/-- Settles O40: ten conditions against the info word's value. -/
theorem infoBranchResults : Obligations.InfoBranchResults := by
  intro r hr
  simp only [List.mem_cons, List.not_mem_nil, or_false] at hr
  rcases hr with rfl | rfl | rfl | rfl | rfl | rfl | rfl | rfl | rfl | rfl
  all_goals exact branchInfo_row rfl (fun _ _ _ => rfl) (fun _ _ => decide_eq_true_iff)

/-- Settles O41: equality and signed order against the sign-extended byte. -/
theorem signedByteBranchResults : Obligations.SignedByteBranchResults := by
  intro r hr
  simp only [List.mem_cons, List.not_mem_nil, or_false] at hr
  rcases hr with rfl | rfl | rfl | rfl | rfl | rfl
  all_goals exact branchSignedByte_row rfl (fun _ _ _ _ => rfl) (fun _ _ => decide_eq_true_iff)

/-- Settles O42: unsigned order against the zero-extended byte. -/
theorem unsignedByteBranchResults : Obligations.UnsignedByteBranchResults := by
  intro r hr
  simp only [List.mem_cons, List.not_mem_nil, or_false] at hr
  rcases hr with rfl | rfl | rfl | rfl
  all_goals exact branchUnsignedByte_row rfl (fun _ _ _ _ => rfl) (fun _ _ => decide_eq_true_iff)

end Sys2Proof.Machine
end

