-- ==== Sys2Proof/Proofs/LoadStore.lean ====
section
/-!
PROOF. What the loads do (spec/45_load_store.md R220 to R222, R229). A load's outcome past the info word is decided by
one `MemRead` at `EA`, and one lemma turns a load's slot and handler into its row in those terms; for a byte that read
needs no alignment and asks MEM_MAP about one address.
-/
namespace Sys2Proof.Machine

/-! ## One byte at the port (R44, R49, R52) -/

theorem alignedTo_one (a : Word) : alignedTo 1 a = true := beq_iff_eq.2 (Nat.mod_one _)

theorem servedRange_one (u : List AddrRange) (a : Word) : servedRange u a 1 = served u a :=
  Bool.eq_iff_iff.2 ((servedRange_iff u a 1 (by decide)).trans (by simp))

/-- The little-endian value of one byte is the byte. -/
theorem littleEndian_readBytes_one (m : Memory) (a : Word) :
    BitVec.ofNat 32 (littleEndian (m.readBytes a 1)) = (m.read a.toNat).setWidth 32 := by
  have hread : m.readBytes a 1 = [m.read a.toNat] :=
    congrArg (fun x => [m.read (BitVec.toNat x)]) (BitVec.add_zero a)
  rw [hread, littleEndian, littleEndian, Nat.mul_zero, Nat.add_zero, BitVec.ofNat_toNat]

theorem memRead_one_of_served {s : State} {a : Word} (h : served s.unserved a = true) :
    memRead s a 1 = some ((s.mem.read a.toNat).setWidth 32) :=
  (memRead_eq_some_iff ..).2
    ⟨alignedTo_one a, (servedRange_one _ a).trans h, (littleEndian_readBytes_one s.mem a).symm⟩

theorem memRead_one_of_not_served {s : State} {a : Word} (h : served s.unserved a = false) :
    memRead s a 1 = none :=
  (memRead_eq_none_iff ..).2 fun ⟨_, hserved⟩ => by
    rw [servedRange_one, h] at hserved
    exact Bool.false_ne_true hserved

/-! ## A byte in a word, extended (R7) -/

theorem sext_8_setWidth (b : Byte) : sext 8 (b.setWidth 32) = b.signExtend 32 := by
  rw [sext, BitVec.setWidth_setWidth_of_le b (by decide), BitVec.setWidth_eq]

theorem zext_8_setWidth (b : Byte) : zext 8 (b.setWidth 32) = b.setWidth 32 := by
  rw [zext, BitVec.setWidth_setWidth_of_le b (by decide), BitVec.setWidth_eq]

/-! ## A load's outcome, by what the port answers at `EA` (R220, R229) -/

section Load
variable {n : Nat} {ext : Word → Word} {rd rs : Reg} {s : State} {info disp : Word}

theorem load_of_memRead_some {v : Word} (hd : fetchData s s.pc = some info) (hv : resolve s.pool info = some disp)
    (hm : memRead s (s.reg rs + disp) n = some v) :
    load n ext rd rs s = .next { s with pc := s.pc + 4, regs := s.regs.set rd (ext v) } := by
  have hm' : memRead (s.setPc (s.pc + 4)) (effAddr (s.setPc (s.pc + 4)) rs disp) n = some v := hm
  rw [load, withImmediate_ok _ hd hv]
  simp only [hm']
  rfl

theorem load_of_memRead_none (hd : fetchData s s.pc = some info) (hv : resolve s.pool info = some disp)
    (hm : memRead s (s.reg rs + disp) n = none) :
    load n ext rd rs s =
      .next (raise ⟨.busError, 0, s.pc - 4, 0, s.reg rs + disp⟩ { s with pc := s.pc + 4 }) := by
  have hm' : memRead (s.setPc (s.pc + 4)) (effAddr (s.setPc (s.pc + 4)) rs disp) n = none := hm
  rw [load, withImmediate_ok _ hd hv]
  simp only [hm']
  rfl

end Load

/-- The load form, for the instruction whose slot and handler have it: the row of each load in terms of `memRead`. -/
theorem load_row {op : Byte} {shape : Shape} {info : Bool} {n : Nat} {ext : Word → Word} {f : Reg → Reg → Instr}
    (hs : slot op = some ⟨op, shape, info, regs2 f⟩) (he : ∀ rd rs s, exec (f rd rs) s = load n ext rd rs s) :
    isEncoded op shape info (fun w => f (fieldD w) (fieldS w)) ∧
    (∀ (s : State) (rd rs : Reg), raisesForInfoWord (f rd rs) s) ∧
    ∀ (s : State) (info disp : Word) (rd rs : Reg), fetchData s s.pc = some info → resolve s.pool info = some disp →
      (∀ v, memRead s (s.reg rs + disp) n = some v →
        exec (f rd rs) s = .next { s with pc := s.pc + 4, regs := s.regs.set rd (ext v) }) ∧
      (memRead s (s.reg rs + disp) n = none → exec (f rd rs) s =
        .next (raise ⟨.busError, 0, s.pc - 4, 0, s.reg rs + disp⟩ { s with pc := s.pc + 4 })) :=
  ⟨isEncoded_regs2 hs, fun s rd rs => raisesForInfoWord_of_withImmediate (he rd rs s),
    fun s _ _ rd rs hd hv =>
      ⟨fun _ hm => (he rd rs s).trans (load_of_memRead_some hd hv hm),
       fun hm => (he rd rs s).trans (load_of_memRead_none hd hv hm)⟩⟩

/-- A byte load: served and unserved `EA`. The handler's extension of the word is `g` of the byte. -/
theorem byteLoad_row {op : Byte} {shape : Shape} {info : Bool} {ext : Word → Word} {g : Byte → Word}
    {f : Reg → Reg → Instr} (hs : slot op = some ⟨op, shape, info, regs2 f⟩)
    (he : ∀ rd rs s, exec (f rd rs) s = load 1 ext rd rs s) (hg : ∀ b : Byte, ext (b.setWidth 32) = g b) :
    isEncoded op shape info (fun w => f (fieldD w) (fieldS w)) ∧
    (∀ (s : State) (rd rs : Reg), raisesForInfoWord (f rd rs) s) ∧
    ∀ (s : State) (info disp : Word) (rd rs : Reg), fetchData s s.pc = some info → resolve s.pool info = some disp →
      let ea := s.reg rs + disp
      (served s.unserved ea = true → exec (f rd rs) s =
        .next { s with pc := s.pc + 4, regs := s.regs.set rd (g (s.mem.read ea.toNat)) }) ∧
      (served s.unserved ea = false → exec (f rd rs) s =
        .next (raise ⟨.busError, 0, s.pc - 4, 0, ea⟩ { s with pc := s.pc + 4 })) := by
  obtain ⟨hencoded, hinfo, hload⟩ := load_row hs he
  refine ⟨hencoded, hinfo, fun s info disp rd rs hd hv => ?_⟩
  obtain ⟨hsome, hnone⟩ := hload s info disp rd rs hd hv
  constructor
  · intro hserved
    rw [hsome _ (memRead_one_of_served hserved), hg]
  · intro hserved
    exact hnone (memRead_one_of_not_served hserved)

/-! ## The statement, row by row -/

/-- Settles O43: the byte at `EA`, sign-extended by LDB and zero-extended by LDBU. -/
theorem byteLoadResults : Obligations.ByteLoadResults := by
  intro r hr
  simp only [List.mem_cons, List.not_mem_nil, or_false] at hr
  rcases hr with rfl | rfl
  · exact byteLoad_row rfl (fun _ _ _ => rfl) sext_8_setWidth
  · exact byteLoad_row rfl (fun _ _ _ => rfl) zext_8_setWidth

end Sys2Proof.Machine
end

