-- ==== Sys2Proof/Proofs/ControlTransfer.lean ====
section
/-!
PROOF. What the jumps, the calls and RET do (spec/46_control_transfer.md R240 to R245). A register target needs no info
word, so its handler is its result; a relative one is taken past the info word, by the resolver's lemma for each outcome.
-/
namespace Sys2Proof.Machine

theorem exec_jpl (s : State) : exec .jpl s = withImmediate s (fun disp s' => .next (s'.setPc (s'.pc + 4 * disp))) := rfl

theorem exec_calll (s : State) : exec .calll s = withImmediate s (fun disp s' => callTo (s'.pc + 4 * disp) s') := rfl

/-- Settles O48: the three slots, then the three handlers; CALLr's target is the register of the state before the link. -/
theorem registerJumpResults : Obligations.RegisterJumpResults :=
  ⟨isEncoded_reg1 rfl, isEncoded_reg1 rfl, isEncoded_of_slot (build := noOperand .ret) rfl,
    fun _ _ => ⟨rfl, rfl, rfl⟩⟩

/-- Settles O49: the two slots, the jump and the link past a resolved info word, and the resolver's errors. -/
theorem relativeJumpResults : Obligations.RelativeJumpResults := by
  refine ⟨isEncoded_of_slot (build := noOperand .jpl) rfl, isEncoded_of_slot (build := noOperand .calll) rfl,
    fun s => ⟨fun info disp hd hv => ⟨?_, ?_⟩, ?_, ?_⟩⟩
  · exact (exec_jpl s).trans (withImmediate_ok _ hd hv)
  · exact (exec_calll s).trans (withImmediate_ok _ hd hv)
  · exact raisesForInfoWord_of_withImmediate (exec_jpl s)
  · exact raisesForInfoWord_of_withImmediate (exec_calll s)

end Sys2Proof.Machine
end

