-- ==== Sys2Proof/Proofs/PcAlignment.lean ====
section
/-!
PROOF. The alignment of `pc` (spec/10_state.md R18, spec/46_control_transfer.md R240). Every form of meaning but a jump to
a register moves `pc` by a whole number of words or not at all, also when it raises; so each form's lemma compares `pc`
modulo 4 before and after, and the alignment at entry is used once, at the end.
-/
namespace Sys2Proof.Machine

/-- If `o` is a next state, its `pc` is a whole number of words away from that of `s`. -/
structure MovesByWords (s : State) (o : Out) : Prop where
  pc_modEq : ∀ t, o = .next t → t.pc.toNat ≡ s.pc.toNat [MOD 4]

/-! ## Words (R15, R190) -/

/-- Adding a number of words keeps the place within a word; 2^32 is itself a number of words. -/
theorem toNat_add_words_modEq (a n : Word) : (a + 4 * n).toNat ≡ a.toNat [MOD 4] := by
  have h4 : (4 : Word).toNat = 4 := rfl
  rw [Nat.ModEq, BitVec.toNat_add, BitVec.toNat_mul, h4]
  omega

theorem relTarget_modEq (a : Word) (disp : Int) : (relTarget a disp).toNat ≡ a.toNat [MOD 4] := by
  rw [relTarget, BitVec.ofInt_mul]
  exact toNat_add_words_modEq a (BitVec.ofInt 32 disp)

/-! ## Next states -/

section Moving
variable {s t : State} {o : Out}

theorem movesByWords_next (h : t.pc.toNat ≡ s.pc.toNat [MOD 4]) : MovesByWords s (.next t) where
  pc_modEq := by rintro _ ⟨⟩; exact h

theorem movesByWords_next_of_pc_eq (h : t.pc = s.pc) : MovesByWords s (.next t) :=
  movesByWords_next (congrArg (BitVec.toNat · % 4) h)

theorem MovesByWords.of_modEq (ho : MovesByWords t o) (h : t.pc.toNat ≡ s.pc.toNat [MOD 4]) : MovesByWords s o where
  pc_modEq u hu := (ho.pc_modEq u hu).trans h

end Moving

theorem movesByWords_setReg (rd : Reg) (v : Word) (s : State) : MovesByWords s (.next (s.setReg rd v)) :=
  movesByWords_next_of_pc_eq rfl

/-! ## Each form of meaning -/

/-- The resolver leaves `pc` alone or moves it past the one info word (R100). -/
theorem movesByWords_withImmediate {k : Word → State → Out} (hk : ∀ v t, MovesByWords t (k v t)) (s : State) :
    MovesByWords s (withImmediate s k) := by
  have hpast : (s.pc + 4).toNat ≡ s.pc.toNat [MOD 4] := toNat_add_words_modEq s.pc 1
  rcases withImmediate_cases s k with ⟨s', herr, hout⟩ | ⟨v, -, hout⟩ <;> rw [hout]
  · rcases fetchImmediate_error herr with ⟨r, rfl | rfl⟩
    · exact movesByWords_next_of_pc_eq rfl
    · exact movesByWords_next hpast
  · exact (hk v (s.setPc (s.pc + 4))).of_modEq hpast

theorem movesByWords_binaryImm (f : Word → Word → Word) (rd rs : Reg) (s : State) :
    MovesByWords s (binaryImm f rd rs s) :=
  movesByWords_withImmediate (fun _ t => movesByWords_setReg rd _ t) s

theorem movesByWords_divide (q : Word → Word → Word) (rd : Reg) (x y a : Word) (s : State) :
    MovesByWords s (divide q rd x y a s) := by
  by_cases hy : y = 0
  · rw [divide_of_eq_zero q rd x a s hy]
    exact movesByWords_next_of_pc_eq rfl
  · rw [divide_of_ne_zero q rd x a s hy]
    exact movesByWords_setReg rd _ s

theorem movesByWords_branchIf (c : Cond) (x y : Word) (disp : Int) (s : State) :
    MovesByWords s (branchIf c x y disp s) := by
  by_cases hc : condHolds c x y = true
  · rw [branchIf_of_holds disp s hc]
    exact movesByWords_next (relTarget_modEq s.pc disp)
  · rw [branchIf_of_not_holds disp s hc]
    exact movesByWords_next_of_pc_eq rfl

theorem movesByWords_branchInfo (c : Cond) (rd : Reg) (disp : Int) (s : State) :
    MovesByWords s (branchInfo c rd disp s) :=
  movesByWords_withImmediate (fun y t => movesByWords_branchIf c (t.reg rd) y disp t) s

theorem movesByWords_load (n : Nat) (ext : Word → Word) (rd rs : Reg) (s : State) :
    MovesByWords s (load n ext rd rs s) := by
  refine movesByWords_withImmediate (fun disp t => ?_) s
  cases hread : memRead t (effAddr t rs disp) n with
  | some v => simp only [hread]; exact movesByWords_setReg rd (ext v) t
  | none => simp only [hread]; exact movesByWords_next_of_pc_eq rfl

theorem movesByWords_store (n : Nat) (rd rs : Reg) (s : State) : MovesByWords s (store n rd rs s) := by
  refine movesByWords_withImmediate (fun disp t => ?_) s
  cases hwrite : memWrite t (effAddr t rs disp) n (t.reg rd) with
  | some u =>
    obtain ⟨-, -, rfl⟩ := (memWrite_eq_some_iff ..).1 hwrite
    simp only [hwrite]
    exact movesByWords_next_of_pc_eq rfl
  | none => simp only [hwrite]; exact movesByWords_next_of_pc_eq rfl

theorem movesByWords_execStore (first last : Reg) (s : State) : MovesByWords s (execStore first last s) := by
  simp only [execStore]
  split
  · exact movesByWords_next_of_pc_eq rfl
  · rcases pushWords_changes_mem ((rangeRegs first last).map s.reg) s (s.reg Config.sp - frameBytes first last) with
      ⟨m, hpush⟩ | ⟨m, x, hpush⟩ <;> rw [hpush] <;> exact movesByWords_next_of_pc_eq rfl

theorem movesByWords_execRestore (first last : Reg) (s : State) : MovesByWords s (execRestore first last s) := by
  simp only [execRestore]
  split
  · exact movesByWords_next_of_pc_eq rfl
  · rcases popWords_changes_regs (rangeRegs first last) s (s.reg Config.sp) with ⟨g, hpop⟩ | ⟨g, x, hpop⟩ <;>
      rw [hpop] <;> exact movesByWords_next_of_pc_eq rfl

theorem movesByWords_execSyscpy (rd rs rt : Reg) (s : State) : MovesByWords s (execSyscpy rd rs rt s) := by
  rcases blockCopy_cases s (s.reg rd) (s.reg rs) (s.reg rt).toNat with ⟨-, -, hcopy⟩ | ⟨-, hcopy⟩ <;>
    rw [execSyscpy, hcopy] <;> exact movesByWords_next_of_pc_eq rfl

theorem movesByWords_execSysset (rd rs rt : Reg) (s : State) : MovesByWords s (execSysset rd rs rt s) := by
  rcases blockFill_cases s (s.reg rd) ((s.reg rs).setWidth 8) (s.reg rt).toNat with ⟨-, hfill⟩ | ⟨-, hfill⟩ <;>
    rw [execSysset, hfill] <;> exact movesByWords_next_of_pc_eq rfl

/-! ## Every instruction -/

/-- Only the three jumps to a register can leave the place within a word that `pc` had. -/
theorem exec_movesByWords (i : Instr) (s : State) (hreg : ∀ rd, i ≠ .jpr rd ∧ i ≠ .callr rd) (hret : i ≠ .ret) :
    MovesByWords s (exec i s) := by
  cases i with
  | add | sub | mul | and | or | xor | neg | not => exact movesByWords_setReg ..
  | addb | subb | andb | orb | xorb | addh | subh | andh | orh | xorh => exact movesByWords_setReg ..
  | sll | srl | sra | slli | srli | srai | sllb | srlb | srab | sllh | srlh | srah => exact movesByWords_setReg ..
  | exsb | exsh | mov | movb | movh => exact movesByWords_setReg ..
  | addi | subi | muli | andi | ori | xori => exact movesByWords_binaryImm ..
  | div | divu => exact movesByWords_divide ..
  | divi | divui => exact movesByWords_withImmediate (fun _ _ => movesByWords_divide ..) s
  | ldi rd => exact movesByWords_withImmediate (fun imm t => movesByWords_setReg rd imm t) s
  | beqi | bnei | bgti | bgei | blti | blei | bgtui | bgeui | bltui | bleui => exact movesByWords_branchInfo ..
  | beqib | bneib | bgtib | bgeib | bltib | bleib | bgtuib | bgeuib | bltuib | bleuib =>
    exact movesByWords_branchIf ..
  | ldb | ldbu | ldh | ldhu | ldw => exact movesByWords_load ..
  | stb | sth | stw => exact movesByWords_store ..
  | jpr rd => exact absurd rfl (hreg rd).left
  | callr rd => exact absurd rfl (hreg rd).right
  | ret => exact absurd rfl hret
  | jpl | calll =>
    exact movesByWords_withImmediate (fun disp t => movesByWords_next (toNat_add_words_modEq t.pc disp)) s
  | store first last => exact movesByWords_execStore first last s
  | restore first last => exact movesByWords_execRestore first last s
  | killtask | sleep => exact movesByWords_next_of_pc_eq rfl
  | syscpy rd rs rt => exact movesByWords_execSyscpy rd rs rt s
  | sysset rd rs rt => exact movesByWords_execSysset rd rs rt s

/-- Settles O22: a `pc` a whole number of words away from a multiple of 4 is one. -/
theorem onlyRegisterJumpsCanMisalignPc : Obligations.OnlyRegisterJumpsCanMisalignPc :=
  fun i s t haligned hexec hreg hret => Eq.trans ((exec_movesByWords i s hreg hret).pc_modEq t hexec) haligned

end Sys2Proof.Machine
end

