-- ==== Sys2Proof/Proofs/TaskSignal.lean ====
section
/-!
PROOF. What KILLTASK and SLEEP do (spec/47_frame_task.md R253 to R255). Both handlers are `signal`; the iteration that runs
one asks the loop to leave, so the step after it is the loop exit, whatever the budget.
-/
namespace Sys2Proof.Machine

/-- Settles O55: the two slots and the two handlers. -/
theorem taskSignalResults : Obligations.TaskSignalResults :=
  ⟨isEncoded_of_slot (build := noOperand .killtask) rfl, isEncoded_of_slot (build := noOperand .sleep) rfl,
    fun _ => ⟨rfl, rfl⟩⟩

/-- At an aligned `pc` whose word decodes, the iteration is the handler entered past the word (R16, R93). -/
theorem iteration_of_decodeWord {s : State} {w : Word} {i : Instr} (hpc : s.pc.toNat % 4 = 0)
    (hfetch : fetchInsn s s.pc = some w) (hdecode : decodeWord w = .ok i) :
    iteration s = exec i (s.setPc (s.pc + 4)) := by
  rcases fetchDecode_cases s with ⟨hne, -⟩ | ⟨-, hnone, -⟩ | ⟨w', e, -, hw, he, -⟩ | ⟨w', j, -, hw, hj, hturn⟩
  · exact absurd hpc hne
  · cases hfetch.symm.trans hnone
  · cases hfetch.symm.trans hw
    cases hdecode.symm.trans he
  · cases hfetch.symm.trans hw
    cases hdecode.symm.trans hj
    rw [iteration, hturn]

/-- The state in which the handler of a signal leaves the iteration that runs it, counted (R97, R253, R254). -/
def State.signalled (e : Event) (s : State) : State :=
  { s with pc := s.pc + 4, event := e, shouldStop := true, instructionRan := s.instructionRan + 1 }

/-- A signal is counted, and the step after it is the loop exit. -/
theorem runSteps_two_of_signal {s : State} {w : Word} {i : Instr} {e : Event} (hs : atIteration s)
    (hpc : s.pc.toNat % 4 = 0) (hfetch : fetchInsn s s.pc = some w) (hdecode : decodeWord w = .ok i)
    (hexec : ∀ t, exec i t = signal e t) : runSteps 2 s = .next (loopExit (s.signalled e)) := by
  have ⟨hquiet, hrun, _, _⟩ := hs
  have hiter : iteration s = signal e (s.setPc (s.pc + 4)) :=
    (iteration_of_decodeWord hpc hfetch hdecode).trans (hexec _)
  have hstep : step s = .next (s.signalled e) :=
    (step_of_iteration hs hiter).trans (congrArg _ (counted_of_running hrun))
  have hexit : step (s.signalled e) = .next (loopExit (s.signalled e)) :=
    step_of_leavesLoop hquiet hrun (leavesLoop_iff.mpr (.inl rfl))
  exact (runSteps_of_step hstep 1).trans (runSteps_of_step hexit 0)

/-- How a run ended that left the loop with an event and no fault (R255). -/
theorem runEnd_loopExit_signalled {s : State} (hfault : s.fault = none) :
    runEnd (loopExit (s.signalled .terminated)) = some .terminated ∧
    runEnd (loopExit (s.signalled .yield)) = some .yielded := by
  simp [runEnd, State.signalled, hfault]

/-- Settles O56: the two steps end in the loop exit after the signal, and `runEnd` reads its latches. -/
theorem taskSignalEndsTheRun : Obligations.TaskSignalEndsTheRun := by
  intro r hr s w hs hfault hpc hfetch hop
  simp only [List.mem_cons, List.not_mem_nil, or_false] at hr
  obtain ⟨⟨-, hkill⟩, ⟨-, hsleep⟩, -⟩ := taskSignalResults
  obtain ⟨hterminated, hyielded⟩ := runEnd_loopExit_signalled hfault
  rcases hr with rfl | rfl
  · exact ⟨_, runSteps_two_of_signal hs hpc hfetch (hkill w hop) fun _ => rfl, hterminated, rfl, rfl, rfl, rfl⟩
  · exact ⟨_, runSteps_two_of_signal hs hpc hfetch (hsleep w hop) fun _ => rfl, hyielded, rfl, rfl, rfl, rfl⟩

end Sys2Proof.Machine
end

