-- ==== Sys2Proof/Proofs/RegisterRange.lean ====
section
/-!
PROOF. What STORE and RESTORE do (spec/47_frame_task.md R250 to R252). Their transactions run through the words of a block:
over the words that the ports serve they come to one closed form, the block written or the registers loaded, and go on
with the rest; so a completed instruction (no rest) and a refused one (the rest begins with the refused word) are read off
the same lemma.
-/
namespace Sys2Proof.Machine

/-! ## One word at the port (R44, R45, R48, R49) -/

/-- The word at an address, as a read of four bytes gives it. -/
def Memory.word (m : Memory) (a : Word) : Word := BitVec.ofNat 32 (littleEndian (m.readBytes a 4))

/-- The ports serve the word at an address: it is aligned and all of it is inside MEM_MAP. -/
structure WordServed (u : List AddrRange) (a : Word) : Prop where
  aligned : alignedTo 4 a = true
  served : servedRange u a 4 = true

theorem memRead_of_wordServed {s : State} {a : Word} (h : WordServed s.unserved a) :
    memRead s a 4 = some (s.mem.word a) :=
  (memRead_eq_some_iff ..).2 ⟨h.aligned, h.served, rfl⟩

theorem wordServed_of_memRead_isSome {s : State} {a : Word} (h : (memRead s a 4).isSome = true) :
    WordServed s.unserved a := by
  obtain ⟨v, hv⟩ := Option.isSome_iff_exists.1 h
  obtain ⟨haligned, hserved, -⟩ := (memRead_eq_some_iff ..).1 hv
  exact ⟨haligned, hserved⟩

theorem memRead_congr {s t : State} (hmem : s.mem = t.mem) (hmap : s.unserved = t.unserved) (a : Word) (n : Nat) :
    memRead s a n = memRead t a n := by
  rw [memRead, memRead, hmem, hmap]

theorem memWrite_of_wordServed {s : State} {a : Word} (h : WordServed s.unserved a) (v : Word) :
    memWrite s a 4 v = some (s.setMem (s.mem.writeBytes a (bytesOf 4 v))) :=
  (memWrite_eq_some_iff ..).2 ⟨h.aligned, h.served, rfl⟩

theorem word_congr {m m' : Memory} {a : Word}
    (h : ∀ i < 4, m.read (a + BitVec.ofNat 32 i).toNat = m'.read (a + BitVec.ofNat 32 i).toNat) :
    m.word a = m'.word a := by
  rw [Memory.word, Memory.word, Memory.readBytes, Memory.readBytes,
    List.map_congr_left fun i hi => h i (List.mem_range.1 hi)]

theorem word_writeBytes_self (m : Memory) (a v : Word) : (m.writeBytes a (bytesOf 4 v)).word a = v := by
  have hbytes := readBytes_writeBytes m a (bytesOf 4 v) (by simp)
  rw [bytesOf_length] at hbytes
  rw [Memory.word, hbytes, littleEndian_bytesOf_four, BitVec.ofNat_toNat, BitVec.setWidth_eq]

/-! ## The words of a block (R250) -/

/-- The address of the `j`-th word of the block at `a`. -/
def wordAddr (a : Word) (j : Nat) : Word := a + BitVec.ofNat 32 (4 * j)

@[simp] theorem wordAddr_zero (a : Word) : wordAddr a 0 = a := BitVec.add_zero a

theorem wordAddr_succ (a : Word) (j : Nat) : wordAddr a (j + 1) = wordAddr (a + 4) j := by
  simp only [wordAddr]
  bv_omega

/-- The ports serve the first `k` words of the block at `a`. -/
def BlockServed (u : List AddrRange) (a : Word) (k : Nat) : Prop := ∀ j < k, WordServed u (wordAddr a j)

theorem BlockServed.head {u : List AddrRange} {a : Word} {k : Nat} (h : BlockServed u a (k + 1)) : WordServed u a :=
  wordAddr_zero a ▸ h 0 k.succ_pos

theorem BlockServed.tail {u : List AddrRange} {a : Word} {k : Nat} (h : BlockServed u a (k + 1)) :
    BlockServed u (a + 4) k :=
  fun j hj => wordAddr_succ a j ▸ h (j + 1) (Nat.succ_lt_succ hj)

/-- A whole number of words below an aligned address is aligned. -/
theorem sub_words_aligned {a : Word} (n : Nat) (h : a.toNat % 4 = 0) : (a - BitVec.ofNat 32 (4 * n)).toNat % 4 = 0 := by
  bv_omega

/-- An aligned block inside MEM_MAP is served word by word. -/
theorem blockServed_of_servedRange {u : List AddrRange} {a : Word} {k : Nat} (hk : 4 * k ≤ 2 ^ 32)
    (haligned : a.toNat % 4 = 0) (hserved : servedRange u a (4 * k) = true) : BlockServed u a k := by
  intro j hj
  constructor
  · simp only [alignedTo, wordAddr, beq_iff_eq]
    bv_omega
  · refine (servedRange_iff u _ 4 (by decide)).2 fun i hi => ?_
    have haddr : wordAddr a j + BitVec.ofNat 32 i = a + BitVec.ofNat 32 (4 * j + i) := by
      rw [wordAddr, BitVec.add_assoc, BitVec.ofNat_add]
    rw [haddr]
    exact (servedRange_iff u a (4 * k) hk).1 hserved _ (by omega)

/-! ## A block written (R251) -/

/-- The memory with words stored from `a` on. -/
def Memory.writeWords (m : Memory) (a : Word) : List Word → Memory
  | [] => m
  | v :: vs => Memory.writeWords (m.writeBytes a (bytesOf 4 v)) (a + 4) vs

theorem read_writeWords_outside (vs : List Word) (m : Memory) (a x : Word) (h : 4 * vs.length ≤ (x - a).toNat) :
    (m.writeWords a vs).read x.toNat = m.read x.toNat := by
  induction vs generalizing m a with
  | nil => rfl
  | cons v vs ih =>
    rw [List.length_cons] at h
    rw [Memory.writeWords, ih _ _ (by bv_omega), read_writeBytes_outside _ _ _ _ (by rw [bytesOf_length]; omega)]

/-- Each word of the block holds what was stored for it: the words after it lie elsewhere. -/
theorem word_writeWords (vs : List Word) (m : Memory) (a : Word) (hl : 4 * vs.length ≤ 2 ^ 32) (j : Nat)
    (hj : j < vs.length) : (m.writeWords a vs).word (wordAddr a j) = vs[j] := by
  induction vs generalizing m a j with
  | nil => cases hj
  | cons v vs ih =>
    rw [List.length_cons] at hl hj
    cases j with
    | zero =>
      rw [wordAddr_zero]
      refine (word_congr fun i hi => ?_).trans (word_writeBytes_self m a v)
      exact read_writeWords_outside vs _ _ _ (by bv_omega)
    | succ j =>
      rw [wordAddr_succ, List.getElem_cons_succ]
      exact ih _ _ (by omega) j (by omega)

/-- STORE's transactions over served words write them and go on with the rest. -/
theorem pushWords_append {s : State} {a : Word} {vs : List Word} (ws : List Word)
    (h : BlockServed s.unserved a vs.length) :
    pushWords s a (vs ++ ws) = pushWords (s.setMem (s.mem.writeWords a vs)) (wordAddr a vs.length) ws := by
  induction vs generalizing s a with
  | nil => rw [List.length_nil, wordAddr_zero]; rfl
  | cons v vs ih =>
    rw [List.cons_append, pushWords, memWrite_of_wordServed h.head, List.length_cons, wordAddr_succ]
    exact ih h.tail

/-! ## The registers of a range (R66, R250) -/

/-- The `k` registers from index `f` on. -/
def regsFrom (f k : Nat) : List Reg := (List.range' f k).map (Fin.ofNat 32)

@[simp] theorem regsFrom_length (f k : Nat) : (regsFrom f k).length = k := by simp [regsFrom]

theorem regsFrom_succ (f k : Nat) : regsFrom f (k + 1) = Fin.ofNat 32 f :: regsFrom (f + 1) k := rfl

theorem regsFrom_getElem (f k j : Nat) (h : j < (regsFrom f k).length) : (regsFrom f k)[j] = Fin.ofNat 32 (f + j) := by
  simp [regsFrom]

theorem regsFrom_add (f k n : Nat) : regsFrom f (k + n) = regsFrom f k ++ regsFrom (f + k) n := by
  rw [regsFrom, regsFrom, regsFrom, ← List.map_append, List.range'_append_1]

theorem rangeCount_of_lt {first last : Reg} (h : last < first) : rangeCount first last = 0 := if_neg (not_le.2 h)

theorem rangeCount_of_le {first last : Reg} (h : first ≤ last) :
    rangeCount first last = last.val - first.val + 1 := if_pos h

theorem rangeRegs_of_le {first last : Reg} (h : first ≤ last) :
    rangeRegs first last = regsFrom first.val (last.val - first.val + 1) := by
  rw [rangeRegs, rangeCount_of_le h, regsFrom]

/-- A range ends at the latest with the last register. -/
theorem first_add_count_le (first last : Reg) : first.val + (last.val - first.val + 1) ≤ 32 := by
  omega

theorem index_lt_count {first last r : Reg} (hhi : r ≤ last) :
    r.val - first.val < last.val - first.val + 1 :=
  Nat.lt_succ_of_le (Nat.sub_le_sub_right hhi _)

/-- A range, cut before its `k`-th register. -/
theorem rangeRegs_split {first last : Reg} {k : Nat} (h : first ≤ last) (hk : k < last.val - first.val + 1) :
    ∃ qs, rangeRegs first last = regsFrom first.val k ++ Fin.ofNat 32 (first.val + k) :: qs := by
  obtain ⟨n, hn⟩ := Nat.exists_eq_add_of_lt hk
  rw [rangeRegs_of_le h, hn, Nat.add_assoc, regsFrom_add, regsFrom_succ]
  exact ⟨_, rfl⟩

/-! ## Registers stored in a block (R251) -/

/-- The state with the `k` registers from index `f` on stored in the words at `a`. -/
def State.storedTo (s : State) (a : Word) (f k : Nat) : State :=
  s.setMem (s.mem.writeWords a ((regsFrom f k).map s.reg))

/-- STORE's transactions over served words store their registers and go on with the rest. -/
theorem pushWords_regsFrom {s : State} {a : Word} {k : Nat} (f : Nat) (qs : List Reg)
    (h : BlockServed s.unserved a k) :
    pushWords s a ((regsFrom f k ++ qs).map s.reg) = pushWords (s.storedTo a f k) (wordAddr a k) (qs.map s.reg) := by
  have hl : ((regsFrom f k).map s.reg).length = k := by rw [List.length_map, regsFrom_length]
  rw [List.map_append, pushWords_append _ (by rwa [hl]), hl, State.storedTo]

theorem memRead_storedTo {s : State} {a : Word} {f k j : Nat} (h : BlockServed s.unserved a k) (hk : 4 * k ≤ 2 ^ 32)
    (hj : j < k) : memRead (s.storedTo a f k) (wordAddr a j) 4 = some (s.reg (Fin.ofNat 32 (f + j))) := by
  have hread : memRead (s.storedTo a f k) (wordAddr a j) 4 = some ((s.storedTo a f k).mem.word (wordAddr a j)) :=
    memRead_of_wordServed (h j hj)
  rw [hread, State.storedTo, setMem_mem, word_writeWords _ _ _ (by simpa using hk) j (by simpa using hj),
    List.getElem_map, regsFrom_getElem]

theorem read_storedTo_outside {s : State} {a x : Word} {f k : Nat} (h : 4 * k ≤ (x - a).toNat) :
    (s.storedTo a f k).mem.read x.toNat = s.mem.read x.toNat :=
  read_writeWords_outside _ _ _ _ (by simpa using h)

/-! ## Registers loaded from a block (R252) -/

/-- The register file with the `k` registers from index `f` on loaded from the words at `a`. Irreducible: it is read
through `reg_loadedFrom` alone, and comparing states by unfolding does not enter it. -/
@[irreducible] def State.loadedRegs (s : State) (a : Word) (f k : Nat) : Vector Word 32 :=
  Vector.ofFn fun r : Reg =>
    if f ≤ r.val ∧ r.val < f + k then s.mem.word (wordAddr a (r.val - f)) else s.reg r

/-- The state with those registers loaded. -/
def State.loadedFrom (s : State) (a : Word) (f k : Nat) : State := { s with regs := s.loadedRegs a f k }

theorem reg_loadedFrom (s : State) (a : Word) (f k : Nat) (r : Reg) :
    (s.loadedFrom a f k).reg r =
      if f ≤ r.val ∧ r.val < f + k then s.mem.word (wordAddr a (r.val - f)) else s.reg r := by
  simp [State.reg, State.loadedFrom, State.loadedRegs]

theorem reg_loadedFrom_inside {s : State} {a : Word} {f k : Nat} {r : Reg} (hlo : f ≤ r.val) (hhi : r.val < f + k) :
    (s.loadedFrom a f k).reg r = s.mem.word (wordAddr a (r.val - f)) :=
  (reg_loadedFrom ..).trans (if_pos ⟨hlo, hhi⟩)

theorem reg_loadedFrom_outside {s : State} {a : Word} {f k : Nat} {r : Reg} (h : r.val < f ∨ f + k ≤ r.val) :
    (s.loadedFrom a f k).reg r = s.reg r :=
  (reg_loadedFrom ..).trans (if_neg (by omega))

theorem loadedFrom_zero (s : State) (a : Word) (f : Nat) : s.loadedFrom a f 0 = s := by
  have hregs : (s.loadedFrom a f 0).regs = s.regs :=
    regs_ext fun r => reg_loadedFrom_outside (by omega)
  exact congrArg (fun g => { s with regs := g }) hregs

/-- Loading the first register and then the others. -/
theorem loadedFrom_succ (s : State) (a : Word) {f k : Nat} (hf : f < 32) :
    (s.setReg (Fin.ofNat 32 f) (s.mem.word a)).loadedFrom (a + 4) (f + 1) k = s.loadedFrom a f (k + 1) := by
  have hregs : ((s.setReg (Fin.ofNat 32 f) (s.mem.word a)).loadedFrom (a + 4) (f + 1) k).regs =
      (s.loadedFrom a f (k + 1)).regs := by
    refine regs_ext fun r => ?_
    have hval : (Fin.ofNat 32 f).val = f := Nat.mod_eq_of_lt hf
    have hr : r = Fin.ofNat 32 f ↔ r.val = f := by rw [Fin.ext_iff, hval]
    by_cases hin : f ≤ r.val ∧ r.val < f + (k + 1)
    · obtain ⟨hlo, hhi⟩ := hin
      rw [reg_loadedFrom_inside hlo hhi]
      rcases Nat.eq_or_lt_of_le hlo with heq | hlt
      · rw [reg_loadedFrom_outside (by omega), hr.2 heq.symm, reg_setReg_self, hval, Nat.sub_self, wordAddr_zero]
      · rw [reg_loadedFrom_inside hlt (by omega), setReg_mem, ← wordAddr_succ,
          show r.val - (f + 1) + 1 = r.val - f by omega]
    · rw [reg_loadedFrom_outside (by omega), reg_loadedFrom_outside (by omega), reg_setReg_ne _ _ (mt hr.1 (by omega))]
  exact congrArg (fun g => { s with regs := g }) hregs

/-- RESTORE's transactions over served words load their registers and go on with the rest. -/
theorem popWords_append {s : State} {a : Word} {f k : Nat} (qs : List Reg) (hk : f + k ≤ 32)
    (h : BlockServed s.unserved a k) :
    popWords s a (regsFrom f k ++ qs) = popWords (s.loadedFrom a f k) (wordAddr a k) qs := by
  induction k generalizing s a f with
  | zero => rw [loadedFrom_zero, wordAddr_zero]; rfl
  | succ k ih =>
    rw [regsFrom_succ, List.cons_append, popWords, memRead_of_wordServed h.head, wordAddr_succ,
      ← loadedFrom_succ s a (by omega)]
    exact ih (by omega) h.tail

/-! ## The two handlers, by the outcome of their transactions -/

section Outcome
variable {s t : State} {first last : Reg}

theorem exec_store_of_lt (h : last < first) : exec (.store first last) s = .next s := if_pos (rangeCount_of_lt h)

theorem exec_restore_of_lt (h : last < first) : exec (.restore first last) s = .next s := if_pos (rangeCount_of_lt h)

theorem frameBytes_of_le (h : first ≤ last) :
    frameBytes first last = BitVec.ofNat 32 (4 * (last.val - first.val + 1)) := by
  rw [frameBytes, rangeCount_of_le h]

theorem rangeCount_ne_zero (h : first ≤ last) : rangeCount first last ≠ 0 := by
  rw [rangeCount_of_le h]
  exact Nat.succ_ne_zero _

theorem exec_store_of_push_ok (h : first ≤ last)
    (hpush : pushWords s (s.reg 1 - BitVec.ofNat 32 (4 * (last.val - first.val + 1)))
      ((rangeRegs first last).map s.reg) = .ok t) :
    exec (.store first last) s = .next (t.setReg 1 (s.reg 1 - BitVec.ofNat 32 (4 * (last.val - first.val + 1)))) := by
  rw [← frameBytes_of_le h] at hpush ⊢
  rw [exec, execStore, if_neg (rangeCount_ne_zero h)]
  simp only [Config.sp, hpush]

theorem exec_store_of_push_error {x : Word} (h : first ≤ last)
    (hpush : pushWords s (s.reg 1 - BitVec.ofNat 32 (4 * (last.val - first.val + 1)))
      ((rangeRegs first last).map s.reg) = .error (x, t)) :
    exec (.store first last) s = .next (raiseBusError x s.insnAddr t) := by
  rw [← frameBytes_of_le h] at hpush
  rw [exec, execStore, if_neg (rangeCount_ne_zero h)]
  simp only [Config.sp, hpush]

theorem exec_restore_of_pop_ok (h : first ≤ last) (hpop : popWords s (s.reg 1) (rangeRegs first last) = .ok t) :
    exec (.restore first last) s =
      .next (t.setReg 1 (s.reg 1 + BitVec.ofNat 32 (4 * (last.val - first.val + 1)))) := by
  rw [← frameBytes_of_le h, exec, execRestore, if_neg (rangeCount_ne_zero h)]
  simp only [Config.sp, hpop]

theorem exec_restore_of_pop_error {x : Word} (h : first ≤ last)
    (hpop : popWords s (s.reg 1) (rangeRegs first last) = .error (x, t)) :
    exec (.restore first last) s = .next (raiseBusError x s.insnAddr t) := by
  rw [exec, execRestore, if_neg (rangeCount_ne_zero h)]
  simp only [Config.sp, hpop]

end Outcome

/-! ## The statements -/

/-- Settles O50: over a served block the transactions store the whole range. -/
theorem storeRangePushesTheRegisters : Obligations.StoreRangePushesTheRegisters := by
  refine ⟨isEncoded_regs2 rfl, fun s first last => ⟨exec_store_of_lt, fun hle => ?_⟩⟩
  intro n base hsp hserved
  have hn : first.val + n ≤ 32 := first_add_count_le first last
  have hblock : BlockServed s.unserved base n :=
    blockServed_of_servedRange (by omega) (sub_words_aligned n hsp) hserved
  have hpush : pushWords s base ((rangeRegs first last).map s.reg) = .ok (s.storedTo base first.val n) := by
    rw [rangeRegs_of_le hle, ← List.append_nil (regsFrom _ _), pushWords_regsFrom _ _ hblock]
    rfl
  refine ⟨_, exec_store_of_push_ok hle hpush, rfl, fun r hlo hhi => ?_, fun a ha => read_storedTo_outside ha⟩
  have hr : Fin.ofNat 32 (first.val + (r.val - first.val)) = r := by
    rw [Nat.add_sub_cancel' hlo, Fin.ofNat_val_eq_self]
  have hread := memRead_storedTo (f := first.val) hblock (by omega) (index_lt_count hhi)
  rwa [hr] at hread

/-- Settles O51: the words before the `k`-th are stored, and the rest begins with the refused one. -/
theorem storeRangeStopsAtTheFirstRefusal : Obligations.StoreRangeStopsAtTheFirstRefusal := by
  intro s first last k hle hk n base addr hbefore hrefused
  have hn : first.val + n ≤ 32 := first_add_count_le first last
  have hblock : BlockServed s.unserved base k := fun j hj => wordServed_of_memRead_isSome (hbefore j hj)
  obtain ⟨qs, hsplit⟩ := rangeRegs_split hle hk
  have hwrite (v : Word) : memWrite (s.storedTo base first.val k) (wordAddr base k) 4 v = none :=
    (memWrite_eq_none_iff ..).2 ((memRead_eq_none_iff s ..).1 hrefused)
  have hpush : pushWords s base ((rangeRegs first last).map s.reg) = .error (addr, s.storedTo base first.val k) := by
    rw [hsplit, pushWords_regsFrom _ _ hblock, List.map_cons, pushWords, hwrite]
    rfl
  exact ⟨_, exec_store_of_push_error hle hpush, rfl, fun j hj => memRead_storedTo hblock (by omega) hj,
    fun a ha => read_storedTo_outside ha⟩

/-- Settles O52: over a served block the transactions load the whole range; `sp` is set after them. -/
theorem restoreRangePopsTheRegisters : Obligations.RestoreRangePopsTheRegisters := by
  refine ⟨isEncoded_regs2 rfl, fun s first last => ⟨exec_restore_of_lt, fun hle => ?_⟩⟩
  intro n hsp hserved
  have hn : first.val + n ≤ 32 := first_add_count_le first last
  have hend : first.val + n = last.val + 1 := by rw [← Nat.add_assoc, Nat.add_sub_cancel' hle]
  have hblock : BlockServed s.unserved (s.reg 1) n := blockServed_of_servedRange (by omega) hsp hserved
  have hpop : popWords s (s.reg 1) (rangeRegs first last) = .ok (s.loadedFrom (s.reg 1) first.val n) := by
    rw [rangeRegs_of_le hle, ← List.append_nil (regsFrom _ _), popWords_append _ hn hblock]
    rfl
  refine ⟨_, exec_restore_of_pop_ok hle hpop, rfl, reg_setReg_self .., fun r hlo hhi hr => ?_, fun r hout hr => ?_⟩
  · rw [reg_setReg_ne _ _ hr, reg_loadedFrom_inside hlo (hend ▸ Nat.lt_succ_of_le hhi)]
    exact memRead_of_wordServed (hblock _ (index_lt_count hhi))
  · rw [reg_setReg_ne _ _ hr, reg_loadedFrom_outside (hend ▸ hout)]

/-- Settles O53: the registers before the `k`-th are loaded, and the rest begins with the refused word. -/
theorem restoreRangeStopsAtTheFirstRefusal : Obligations.RestoreRangeStopsAtTheFirstRefusal := by
  intro s first last k hle hk addr hbefore hrefused
  have hn := first_add_count_le first last
  have hblock : BlockServed s.unserved (s.reg 1) k := fun j hj => wordServed_of_memRead_isSome (hbefore j hj)
  obtain ⟨qs, hsplit⟩ := rangeRegs_split hle hk
  have hrefused' : memRead (s.loadedFrom (s.reg 1) first.val k) (wordAddr (s.reg 1) k) 4 = none := hrefused
  have hpop : popWords s (s.reg 1) (rangeRegs first last) = .error (addr, s.loadedFrom (s.reg 1) first.val k) := by
    rw [hsplit, popWords_append _ (by omega) hblock, popWords, hrefused']
    rfl
  refine ⟨_, exec_restore_of_pop_error hle hpop, rfl, fun r hlo hhi => ?_, fun r hout => ?_⟩
  · rw [raiseBusError, raise_reg, reg_loadedFrom_inside hlo hhi]
    exact memRead_of_wordServed (hblock _ (Nat.sub_lt_left_of_lt_add hlo hhi))
  · exact reg_loadedFrom_outside hout

/-- Settles O54: RESTORE reads each register of the range from the word where STORE left it, and moves `sp` back up. -/
theorem restoreUndoesStore : Obligations.RestoreUndoesStore := by
  intro s t u first last hle hsp hserved hstore hreg hmem hmap
  obtain ⟨t', hstore', ht', hsaved, -⟩ := (storeRangePushesTheRegisters.2 s first last).2 hle hsp hserved
  obtain rfl : t = t' := Host.Outcome.next.inj (hstore.symm.trans hstore')
  have husp : u.reg 1 = s.reg 1 - BitVec.ofNat 32 (4 * (last.val - first.val + 1)) := by
    rw [hreg, ht']
    exact reg_setReg_self s 1 _
  have humap : u.unserved = s.unserved := by rw [hmap, ht']
  have haligned : (u.reg 1).toNat % 4 = 0 := by rw [husp]; exact sub_words_aligned _ hsp
  obtain ⟨v, hrestore, hv, hvsp, hloaded, hother⟩ :=
    (restoreRangePopsTheRegisters.2 u first last).2 hle haligned (by rwa [husp, humap])
  have hback : v.reg 1 = s.reg 1 := by rw [hvsp, husp, BitVec.sub_add_cancel]
  refine ⟨v, hrestore, hv, hback, fun r hlo hhi => ?_, hother⟩
  by_cases hr : r = 1
  · rw [hr, hback]
  · have hread := hloaded r hlo hhi hr
    rw [husp, memRead_congr hmem hmap, hsaved r hlo hhi] at hread
    exact (Option.some.inj hread).symm

end Sys2Proof.Machine
end

