-- ==== Sys2Proof/Proofs/MemoryFrame.lean ====
section
/-!
PROOF. The memory frame of every instruction that is no store (spec/20_memory.md R41, spec/45_load_store.md R221 to R225,
spec/47_frame_task.md R252). Memory changes by the write transactions only; the forms the other instructions are made of
write registers, `pc` and the run state, so one lemma per form says that memory is as before.
-/
namespace Sys2Proof.Machine

/-- `t` holds the memory of `s` and has drawn no free value since (entry 9). -/
structure SameMemory (s t : State) : Prop where
  mem : t.mem = s.mem
  freeIndex : t.freeIndex = s.freeIndex

/-- If `o` is a next state, it holds the memory of `s`. -/
structure KeepsMemory (s : State) (o : Out) : Prop where
  sameMemory : ∀ t, o = .next t → SameMemory s t

/-! ## Next states -/

section Keeping
variable {s t : State} {o : Out}

theorem SameMemory.next (h : SameMemory s t) : KeepsMemory s (.next t) where
  sameMemory := by rintro _ ⟨⟩; exact h

theorem KeepsMemory.of_sameMemory (ho : KeepsMemory t o) (h : SameMemory s t) : KeepsMemory s o where
  sameMemory u hu :=
    have hu := ho.sameMemory u hu
    ⟨hu.mem.trans h.mem, hu.freeIndex.trans h.freeIndex⟩

end Keeping

theorem keepsMemory_setReg (rd : Reg) (v : Word) (s : State) : KeepsMemory s (.next (s.setReg rd v)) :=
  SameMemory.next ⟨rfl, rfl⟩

theorem keepsMemory_setPc (v : Word) (s : State) : KeepsMemory s (.next (s.setPc v)) :=
  SameMemory.next ⟨rfl, rfl⟩

/-- The abort sequence rolls nothing back and writes no memory (R279, R280). -/
theorem keepsMemory_raise (r : FaultRecord) (s : State) : KeepsMemory s (.next (raise r s)) :=
  SameMemory.next ⟨rfl, rfl⟩

theorem keepsMemory_signal (e : Event) (s : State) : KeepsMemory s (signal e s) :=
  SameMemory.next ⟨rfl, rfl⟩

/-! ## Each form of meaning -/

/-- The resolver only reads memory, on each of its branches (R100). -/
theorem keepsMemory_withImmediate {k : Word → State → Out} (hk : ∀ v t, KeepsMemory t (k v t)) (s : State) :
    KeepsMemory s (withImmediate s k) := by
  have hpast : SameMemory s (s.setPc (s.pc + 4)) := ⟨rfl, rfl⟩
  rcases withImmediate_cases s k with ⟨s', herr, hout⟩ | ⟨v, -, hout⟩ <;> rw [hout]
  · rcases fetchImmediate_error herr with ⟨r, rfl | rfl⟩
    · exact keepsMemory_raise r s
    · exact (keepsMemory_raise r _).of_sameMemory hpast
  · exact (hk v _).of_sameMemory hpast

theorem keepsMemory_binaryImm (f : Word → Word → Word) (rd rs : Reg) (s : State) :
    KeepsMemory s (binaryImm f rd rs s) :=
  keepsMemory_withImmediate (fun _ t => keepsMemory_setReg rd _ t) s

theorem keepsMemory_divide (q : Word → Word → Word) (rd : Reg) (x y a : Word) (s : State) :
    KeepsMemory s (divide q rd x y a s) := by
  by_cases hy : y = 0
  · rw [divide_of_eq_zero q rd x a s hy]
    exact keepsMemory_raise _ s
  · rw [divide_of_ne_zero q rd x a s hy]
    exact keepsMemory_setReg rd _ s

theorem keepsMemory_branchIf (c : Cond) (x y : Word) (disp : Int) (s : State) :
    KeepsMemory s (branchIf c x y disp s) := by
  by_cases hc : condHolds c x y = true
  · rw [branchIf_of_holds disp s hc]
    exact keepsMemory_setPc _ s
  · rw [branchIf_of_not_holds disp s hc]
    exact SameMemory.next ⟨rfl, rfl⟩

theorem keepsMemory_branchInfo (c : Cond) (rd : Reg) (disp : Int) (s : State) :
    KeepsMemory s (branchInfo c rd disp s) :=
  keepsMemory_withImmediate (fun y t => keepsMemory_branchIf c (t.reg rd) y disp t) s

theorem keepsMemory_load (n : Nat) (ext : Word → Word) (rd rs : Reg) (s : State) :
    KeepsMemory s (load n ext rd rs s) := by
  refine keepsMemory_withImmediate (fun disp t => ?_) s
  cases hread : memRead t (effAddr t rs disp) n with
  | some v => simp only [hread]; exact keepsMemory_setReg rd (ext v) t
  | none => simp only [hread]; exact keepsMemory_raise _ t

theorem keepsMemory_callTo (tgt : Word) (s : State) : KeepsMemory s (callTo tgt s) :=
  SameMemory.next ⟨rfl, rfl⟩

/-- The transactions of RESTORE are reads, also when one is refused (R252, R279). -/
theorem keepsMemory_execRestore (first last : Reg) (s : State) : KeepsMemory s (execRestore first last s) := by
  simp only [execRestore]
  split
  · exact SameMemory.next ⟨rfl, rfl⟩
  · rcases popWords_changes_regs (rangeRegs first last) s (s.reg Config.sp) with ⟨g, hpop⟩ | ⟨g, x, hpop⟩ <;>
      rw [hpop] <;> exact SameMemory.next ⟨rfl, rfl⟩

/-! ## Every instruction that is no store -/

/-- The cases are grouped by form of meaning; the six stores are excluded by `h`. -/
theorem exec_keepsMemory {i : Instr} (h : storesToMemory i = false) (s : State) : KeepsMemory s (exec i s) := by
  cases i with
  | add | sub | mul | and | or | xor | neg | not => exact keepsMemory_setReg ..
  | addb | subb | andb | orb | xorb | addh | subh | andh | orh | xorh => exact keepsMemory_setReg ..
  | sll | srl | sra | slli | srli | srai | sllb | srlb | srab | sllh | srlh | srah => exact keepsMemory_setReg ..
  | exsb | exsh | mov | movb | movh => exact keepsMemory_setReg ..
  | addi | subi | muli | andi | ori | xori => exact keepsMemory_binaryImm ..
  | div | divu => exact keepsMemory_divide ..
  | divi | divui => exact keepsMemory_withImmediate (fun _ _ => keepsMemory_divide ..) s
  | ldi rd => exact keepsMemory_withImmediate (fun imm t => keepsMemory_setReg rd imm t) s
  | beqi | bnei | bgti | bgei | blti | blei | bgtui | bgeui | bltui | bleui => exact keepsMemory_branchInfo ..
  | beqib | bneib | bgtib | bgeib | bltib | bleib | bgtuib | bgeuib | bltuib | bleuib =>
    exact keepsMemory_branchIf ..
  | ldb | ldbu | ldh | ldhu | ldw => exact keepsMemory_load ..
  | jpr | ret => exact keepsMemory_setPc ..
  | jpl => exact keepsMemory_withImmediate (fun disp t => keepsMemory_setPc (t.pc + 4 * disp) t) s
  | callr => exact keepsMemory_callTo ..
  | calll => exact keepsMemory_withImmediate (fun _ t => keepsMemory_callTo _ t) s
  | restore first last => exact keepsMemory_execRestore first last s
  | killtask => exact keepsMemory_signal .terminated s
  | sleep => exact keepsMemory_signal .yield s
  | stb | sth | stw | store | syscpy | sysset => exact nomatch h

/-- Settles O20: where memory is the same, so is each byte of it. -/
theorem onlyStoringInstructionsChangeMemory : Obligations.OnlyStoringInstructionsChangeMemory := by
  intro i s t hexec hstores
  obtain ⟨hmem, hfree⟩ := (exec_keepsMemory hstores s).sameMemory t hexec
  exact ⟨fun a => by rw [hmem], hmem, hfree⟩

end Sys2Proof.Machine
end

