-- ==== Sys2Proof/Proofs/SystemBridge.lean ====
section
/-!
PROOF. The two bulk instructions (spec/48_system_bridge.md R260 to R262, spec/20_memory.md R46, R47). Each is one
transaction that writes a list of bytes at the destination: the bytes of the source read before, the fill byte repeated,
or, when it is refused, free values. What is in the destination range and what is outside it is then what a write of
bytes leaves there.
-/
namespace Sys2Proof.Machine

/-! ## What the two instructions answer -/

section Outcome
variable {s : State} {rd rs rt : Reg}

theorem exec_syscpy_of_served (hdst : servedRange s.unserved (s.reg rd) (s.reg rt).toNat = true)
    (hsrc : servedRange s.unserved (s.reg rs) (s.reg rt).toNat = true) :
    exec (.syscpy rd rs rt) s =
      .next (s.setMem (s.mem.writeBytes (s.reg rd) (s.mem.readBytes (s.reg rs) (s.reg rt).toNat))) := by
  rcases blockCopy_cases s (s.reg rd) (s.reg rs) (s.reg rt).toNat with ⟨-, -, hcopy⟩ | ⟨hrefused, -⟩
  · rw [exec, execSyscpy, hcopy, bulk]
  · exact absurd ⟨hdst, hsrc⟩ hrefused

theorem exec_syscpy_of_refused
    (h : ¬(servedRange s.unserved (s.reg rd) (s.reg rt).toNat = true ∧
      servedRange s.unserved (s.reg rs) (s.reg rt).toNat = true)) :
    exec (.syscpy rd rs rt) s =
      .next (raiseBusError (s.reg rd) s.insnAddr (bulkRefused s (s.reg rd) (s.reg rt).toNat)) := by
  rcases blockCopy_cases s (s.reg rd) (s.reg rs) (s.reg rt).toNat with ⟨hdst, hsrc, -⟩ | ⟨-, hcopy⟩
  · exact absurd ⟨hdst, hsrc⟩ h
  · rw [exec, execSyscpy, hcopy, bulk]

theorem exec_sysset_of_served (hdst : servedRange s.unserved (s.reg rd) (s.reg rt).toNat = true) :
    exec (.sysset rd rs rt) s =
      .next (s.setMem
        (s.mem.writeBytes (s.reg rd) (List.replicate (s.reg rt).toNat ((s.reg rs).setWidth 8)))) := by
  rcases blockFill_cases s (s.reg rd) ((s.reg rs).setWidth 8) (s.reg rt).toNat with ⟨-, hfill⟩ | ⟨hrefused, -⟩
  · rw [exec, execSysset, hfill, bulk]
  · exact absurd hdst (Bool.eq_false_iff.1 hrefused)

theorem exec_sysset_of_refused (h : servedRange s.unserved (s.reg rd) (s.reg rt).toNat = false) :
    exec (.sysset rd rs rt) s =
      .next (raiseBusError (s.reg rd) s.insnAddr (bulkRefused s (s.reg rd) (s.reg rt).toNat)) := by
  rcases blockFill_cases s (s.reg rd) ((s.reg rs).setWidth 8) (s.reg rt).toNat with ⟨hdst, -⟩ | ⟨-, hfill⟩
  · exact absurd hdst (Bool.eq_false_iff.1 h)
  · rw [exec, execSysset, hfill, bulk]

end Outcome

/-! ## The bytes a transaction writes -/

/-- Byte `k` of a copy is byte `k` of the source before it, whether or not the ranges overlap (R46). -/
theorem read_copy_inside (m : Memory) (dst src : Word) {n k : Nat} (hn : n ≤ 2 ^ 32) (hk : k < n) :
    (m.writeBytes dst (m.readBytes src n)).read (dst + BitVec.ofNat 32 k).toNat =
      m.read (src + BitVec.ofNat 32 k).toNat := by
  rw [read_writeBytes_inside _ _ _ (by rwa [readBytes_length]) k (by rwa [readBytes_length]), readBytes_getElem]

/-- Each byte of a filled range is the fill byte (R47). -/
theorem read_fill_inside (m : Memory) (dst : Word) (b : Byte) {n k : Nat} (hn : n ≤ 2 ^ 32) (hk : k < n) :
    (m.writeBytes dst (List.replicate n b)).read (dst + BitVec.ofNat 32 k).toNat = b := by
  rw [read_writeBytes_inside _ _ _ (by rwa [List.length_replicate]) k (by rwa [List.length_replicate]),
    List.getElem_replicate]

/-- A refused transaction changes no byte outside its destination range, whatever the free values are (U6, entry 9). -/
theorem read_bulkRefused_outside (s : State) {dst a : Word} {n : Nat} (h : n ≤ (a - dst).toNat) :
    (bulkRefused s dst n).mem.read a.toNat = s.mem.read a.toNat := by
  rw [bulkRefused_mem]
  exact read_writeBytes_outside _ _ _ _ (by rwa [residueBytes_length])

/-! ## The statements -/

/-- Settles O57: the bytes written are the ones the source held before. -/
theorem blockCopyResult : Obligations.BlockCopyResult := by
  refine ⟨isEncoded_regs3 rfl, fun s rd rs rt hdst hsrc => ?_⟩
  have hn : (s.reg rt).toNat ≤ 2 ^ 32 := (s.reg rt).isLt.le
  exact ⟨_, exec_syscpy_of_served hdst hsrc, fun k hk => read_copy_inside _ _ _ hn hk,
    fun a ha => read_writeBytes_outside _ _ _ _ (by rwa [readBytes_length])⟩

/-- Settles O58: the bytes written are all the low byte of `R[s]`. -/
theorem blockFillResult : Obligations.BlockFillResult := by
  refine ⟨isEncoded_regs3 rfl, fun s rd rs rt hdst => ?_⟩
  have hn : (s.reg rt).toNat ≤ 2 ^ 32 := (s.reg rt).isLt.le
  exact ⟨_, exec_sysset_of_served hdst,
    fun k hk => (read_fill_inside _ _ _ hn hk).trans (BitVec.setWidth_eq_extractLsb' (by decide)),
    fun a ha => read_writeBytes_outside _ _ _ _ (by rwa [List.length_replicate])⟩

/-- Settles O59: both instructions answer the same refusal, and its residue is written at the destination only. -/
theorem refusedBulkKeepsTheBytesOutside : Obligations.RefusedBulkKeepsTheBytesOutside := by
  intro i s rd rs rt h
  have hexec : exec i s =
      .next (raiseBusError (s.reg rd) s.insnAddr (bulkRefused s (s.reg rd) (s.reg rt).toNat)) := by
    rcases h with ⟨rfl, hrefused⟩ | ⟨rfl, hrefused⟩
    · exact exec_syscpy_of_refused hrefused
    · exact exec_sysset_of_refused hrefused
  exact ⟨_, hexec, rfl, fun a ha => read_bulkRefused_outside s ha⟩

end Sys2Proof.Machine
end

