-- ==== Sys2Proof/Proofs/InstructionEnds.lean ====
section
/-!
PROOF. How an instruction can end (spec/60_exceptions.md R279, R280): it completes, it signals the scheduler, or it raises.
Said once for every instruction, by one lemma per form of meaning; what an instruction leaves of the run state, where it
leaves `pc`, and what it may latch are then read off the three ways.
-/
namespace Sys2Proof.Machine

/-! ## What an instruction leaves of the run state (R25, R282) -/

/-- `t` is `s` but for the task's own state: registers, `pc`, memory in its canonical form, free values drawn. -/
structure SameRun (s t : State) : Prop where
  pool : t.pool = s.pool
  unserved : t.unserved = s.unserved
  budget : t.budget = s.budget
  instructionRan : t.instructionRan = s.instructionRan
  hostMoves : t.hostMoves = s.hostMoves
  isRunning : t.isRunning = s.isRunning
  shouldStop : t.shouldStop = s.shouldStop
  event : t.event = s.event
  fault : t.fault = s.fault
  answer : t.answer = s.answer
  memory : s.mem.wf → t.mem.wf

theorem sameRun_update (s : State) (g : Vector Word 32) (p : Word) {m : Memory} (k : Nat) (hm : s.mem.wf → m.wf) :
    SameRun s { s with regs := g, pc := p, mem := m, freeIndex := k } :=
  ⟨rfl, rfl, rfl, rfl, rfl, rfl, rfl, rfl, rfl, rfl, hm⟩

theorem SameRun.refl (s : State) : SameRun s s := sameRun_update s s.regs s.pc s.freeIndex id

theorem sameRun_setPc (s : State) (p : Word) : SameRun s (s.setPc p) := sameRun_update s s.regs p s.freeIndex id

theorem SameRun.trans {s t u : State} (h : SameRun s t) (h' : SameRun t u) : SameRun s u where
  pool := h'.pool.trans h.pool
  unserved := h'.unserved.trans h.unserved
  budget := h'.budget.trans h.budget
  instructionRan := h'.instructionRan.trans h.instructionRan
  hostMoves := h'.hostMoves.trans h.hostMoves
  isRunning := h'.isRunning.trans h.isRunning
  shouldStop := h'.shouldStop.trans h.shouldStop
  event := h'.event.trans h.event
  fault := h'.fault.trans h.fault
  answer := h'.answer.trans h.answer
  memory := h'.memory ∘ h.memory

/-! ## What an instruction may latch (R270, R272, R274, R276) -/

/-- A record of one of the three errors that the instruction at `a` can raise itself. -/
structure FaultRecord.RaisedAt (a : Word) (r : FaultRecord) : Prop where
  pc_eq : r.pc = a
  latchable : r.latchable
  kind : r.kind = .poolError ∨ r.kind = .divideError ∨ r.kind = .busError

theorem raisedAt_busError (addr a : Word) : FaultRecord.RaisedAt a ⟨.busError, 0, a, 0, addr⟩ :=
  ⟨rfl, ⟨rfl, rfl⟩, .inr (.inr rfl)⟩

theorem raisedAt_divideError (a : Word) : FaultRecord.RaisedAt a ⟨.divideError, 0, a, 0, 0⟩ :=
  ⟨rfl, ⟨rfl, rfl, rfl⟩, .inr (.inl rfl)⟩

/-- Only a pool index can fail to resolve, and it has 31 bits (R101, R102). -/
theorem toNat_lt_of_resolve_eq_none {p : Pool} {info : Word} (h : resolve p info = none) : info.toNat < 2 ^ 31 := by
  cases hmsb : info.msb with
  | true => rw [resolve_inline p hmsb] at h; cases h
  | false => exact BitVec.toNat_lt_of_msb_false hmsb

theorem raisedAt_poolError {p : Pool} {info : Word} (a : Word) (h : resolve p info = none) :
    FaultRecord.RaisedAt a ⟨.poolError, 0, a, info, 0⟩ :=
  ⟨rfl, ⟨rfl, rfl, toNat_lt_of_resolve_eq_none h⟩, .inl rfl⟩

/-! ## The three ways to end -/

/-- The state an instruction's own work starts from: past the info word, if it has one (R105). -/
def State.atBody (s : State) (i : Instr) : State := if i.hasInfo then s.setPc (s.pc + 4) else s

theorem atBody_of_info {i : Instr} (s : State) (h : i.hasInfo = true) : s.atBody i = s.setPc (s.pc + 4) := if_pos h

theorem sameRun_atBody (s : State) (i : Instr) : SameRun s (s.atBody i) := by
  rw [State.atBody]
  split
  · exact sameRun_setPc s _
  · exact .refl s

theorem atBody_pc (s : State) (i : Instr) : (s.atBody i).pc = if i.hasInfo then s.pc + 4 else s.pc := by
  rw [State.atBody]
  split <;> rfl

/-- How instruction `i`, entered in `s`, can end. -/
inductive Ends (i : Instr) (s : State) : Out → Prop
  | completed {t : State} (run : SameRun s t) (pc : transfersControl i = false → t.pc = (s.atBody i).pc) :
    Ends i s (.next t)
  | signalled {e : Event} (hi : i = .sleep ∨ i = .killtask) (he : e ≠ .none) :
    Ends i s (.next { s with event := e, shouldStop := true })
  | raised {t : State} {r : FaultRecord} (run : SameRun s t) (pc : t.pc = s.pc ∨ (i.hasInfo = true ∧ t.pc = s.pc + 4))
    (record : r.RaisedAt s.insnAddr) : Ends i s (.next (raise r t))

/-! ## Each form of meaning -/

/-- The resolver's own errors, or what the rest of the handler comes to past the info word (R100, R105). -/
theorem ends_withImmediate {i : Instr} {s : State} {k : Word → State → Out} (hi : i.hasInfo = true)
    (hk : ∀ v, Ends i s (k v (s.setPc (s.pc + 4)))) : Ends i s (withImmediate s k) := by
  rcases fetchImmediate_cases s with ⟨hd, -⟩ | ⟨info, v, hd, hv, -⟩ | ⟨info, hd, hv, -⟩
  · rw [withImmediate_busError k hd]
    exact .raised (.refl s) (.inl rfl) (raisedAt_busError ..)
  · rw [withImmediate_ok k hd hv]
    exact hk v
  · rw [withImmediate_poolError k hd hv]
    exact .raised (sameRun_setPc s _) (.inr ⟨hi, rfl⟩) (raisedAt_poolError _ hv)

section Body
variable {i : Instr} {s u : State} (hu : s.atBody i = u)
include hu

/-- A handler that leaves `pc` past its own words. -/
theorem ends_update (g : Vector Word 32) {m : Memory} (k : Nat) (hm : u.mem.wf → m.wf) :
    Ends i s (.next { u with regs := g, mem := m, freeIndex := k }) := by
  subst hu
  exact .completed ((sameRun_atBody s i).trans (sameRun_update _ g _ k hm)) fun _ => rfl

/-- A handler that may move `pc` elsewhere. -/
theorem ends_jump (hi : transfersControl i = true) (g : Vector Word 32) (p : Word) :
    Ends i s (.next { u with regs := g, pc := p }) := by
  subst hu
  exact .completed ((sameRun_atBody s i).trans (sameRun_update _ g p _ id))
    fun h => nomatch hi.symm.trans h

/-- A handler that raises: what it has written by then stays written (R279). -/
theorem ends_raise {r : FaultRecord} (hr : r.RaisedAt s.insnAddr) (g : Vector Word 32) {m : Memory} (k : Nat)
    (hm : u.mem.wf → m.wf) : Ends i s (.next (raise r { u with regs := g, mem := m, freeIndex := k })) := by
  have hpc : u.pc = s.pc ∨ (i.hasInfo = true ∧ u.pc = s.pc + 4) := by
    rw [← hu, atBody_pc]
    cases i.hasInfo with
    | false => exact .inl rfl
    | true => exact .inr ⟨rfl, rfl⟩
  subst hu
  exact .raised ((sameRun_atBody s i).trans (sameRun_update _ g _ k hm)) hpc hr

theorem ends_setReg (rd : Reg) (v : Word) : Ends i s (.next (u.setReg rd v)) :=
  ends_update hu (u.regs.set rd v) u.freeIndex id

theorem ends_raiseBusError (x : Word) : Ends i s (.next (raiseBusError x s.insnAddr u)) :=
  ends_raise hu (raisedAt_busError x _) u.regs u.freeIndex id

theorem ends_divide (q : Word → Word → Word) (rd : Reg) (x y : Word) : Ends i s (divide q rd x y s.insnAddr u) := by
  by_cases hy : y = 0
  · rw [divide_of_eq_zero q rd x _ u hy]
    exact ends_raise hu (raisedAt_divideError _) u.regs u.freeIndex id
  · rw [divide_of_ne_zero q rd x _ u hy]
    exact ends_setReg hu rd _

theorem ends_branchIf (hi : transfersControl i = true) (c : Cond) (x y : Word) (disp : Int) :
    Ends i s (branchIf c x y disp u) := by
  by_cases hc : condHolds c x y = true
  · rw [branchIf_of_holds disp u hc]
    exact ends_jump hu hi u.regs _
  · rw [branchIf_of_not_holds disp u hc]
    exact ends_jump hu hi u.regs u.pc

end Body

theorem ends_load {i : Instr} {s : State} (hi : i.hasInfo = true) (n : Nat) (ext : Word → Word) (rd rs : Reg) :
    Ends i s (load n ext rd rs s) := by
  refine ends_withImmediate hi fun disp => ?_
  have hu := atBody_of_info s hi
  cases hread : memRead (s.setPc (s.pc + 4)) (effAddr (s.setPc (s.pc + 4)) rs disp) n with
  | some v => simp only [hread]; exact ends_setReg hu rd (ext v)
  | none => simp only [hread]; exact ends_raiseBusError hu _

theorem ends_store {i : Instr} {s : State} (hi : i.hasInfo = true) (n : Nat) (rd rs : Reg) :
    Ends i s (store n rd rs s) := by
  refine ends_withImmediate hi fun disp => ?_
  have hu := atBody_of_info s hi
  cases hwrite : memWrite (s.setPc (s.pc + 4)) (effAddr (s.setPc (s.pc + 4)) rs disp) n
      ((s.setPc (s.pc + 4)).reg rd) with
  | some t =>
    obtain ⟨-, -, rfl⟩ := (memWrite_eq_some_iff ..).1 hwrite
    simp only [hwrite]
    exact ends_update hu s.regs s.freeIndex (writeBytes_wf _ _)
  | none => simp only [hwrite]; exact ends_raiseBusError hu _

theorem ends_execStore (first last : Reg) (s : State) : Ends (.store first last) s (execStore first last s) := by
  have hu : s.atBody (.store first last) = s := rfl
  simp only [execStore]
  split
  · exact ends_update hu s.regs s.freeIndex id
  · have hwf (h : s.mem.wf) := pushWords_wf (vs := (rangeRegs first last).map s.reg)
      (s.reg Config.sp - frameBytes first last) h
    rcases pushWords_changes_mem ((rangeRegs first last).map s.reg) s (s.reg Config.sp - frameBytes first last) with
      ⟨m, hpush⟩ | ⟨m, x, hpush⟩ <;> rw [hpush]
    · exact ends_update hu (s.regs.set Config.sp _) s.freeIndex fun h => (hwf h).1 _ hpush
    · exact ends_raise hu (raisedAt_busError x _) s.regs s.freeIndex fun h => (hwf h).2 _ _ hpush

theorem ends_execRestore (first last : Reg) (s : State) :
    Ends (.restore first last) s (execRestore first last s) := by
  have hu : s.atBody (.restore first last) = s := rfl
  simp only [execRestore]
  split
  · exact ends_update hu s.regs s.freeIndex id
  · rcases popWords_changes_regs (rangeRegs first last) s (s.reg Config.sp) with ⟨g, hpop⟩ | ⟨g, x, hpop⟩ <;> rw [hpop]
    · exact ends_update hu (g.set Config.sp _) s.freeIndex id
    · exact ends_raise hu (raisedAt_busError x _) g s.freeIndex id

theorem ends_execSyscpy (rd rs rt : Reg) (s : State) : Ends (.syscpy rd rs rt) s (execSyscpy rd rs rt s) := by
  have hu : s.atBody (.syscpy rd rs rt) = s := rfl
  rcases blockCopy_cases s (s.reg rd) (s.reg rs) (s.reg rt).toNat with ⟨-, -, hcopy⟩ | ⟨-, hcopy⟩ <;>
    rw [execSyscpy, hcopy]
  · exact ends_update hu s.regs s.freeIndex (writeBytes_wf _ _)
  · exact ends_raise hu (raisedAt_busError _ _) s.regs _ (writeBytes_wf _ _)

theorem ends_execSysset (rd rs rt : Reg) (s : State) : Ends (.sysset rd rs rt) s (execSysset rd rs rt s) := by
  have hu : s.atBody (.sysset rd rs rt) = s := rfl
  rcases blockFill_cases s (s.reg rd) ((s.reg rs).setWidth 8) (s.reg rt).toNat with ⟨-, hfill⟩ | ⟨-, hfill⟩ <;>
    rw [execSysset, hfill]
  · exact ends_update hu s.regs s.freeIndex (writeBytes_wf _ _)
  · exact ends_raise hu (raisedAt_busError _ _) s.regs _ (writeBytes_wf _ _)

/-! ## Every instruction -/

/-- The cases are grouped by form of meaning. -/
theorem exec_ends (i : Instr) (s : State) : Ends i s (exec i s) := by
  cases i with
  | add | sub | mul | and | or | xor | neg | not => exact ends_setReg rfl ..
  | addb | subb | andb | orb | xorb | addh | subh | andh | orh | xorh => exact ends_setReg rfl ..
  | sll | srl | sra | slli | srli | srai | sllb | srlb | srab | sllh | srlh | srah => exact ends_setReg rfl ..
  | exsb | exsh | mov | movb | movh => exact ends_setReg rfl ..
  | addi | subi | muli | andi | ori | xori => exact ends_withImmediate rfl fun _ => ends_setReg rfl ..
  | ldi => exact ends_withImmediate rfl fun _ => ends_setReg rfl ..
  | div | divu => exact ends_divide rfl ..
  | divi | divui => exact ends_withImmediate rfl fun _ => ends_divide rfl ..
  | beqi | bnei | bgti | bgei | blti | blei | bgtui | bgeui | bltui | bleui =>
    exact ends_withImmediate rfl fun _ => ends_branchIf rfl rfl ..
  | beqib | bneib | bgtib | bgeib | bltib | bleib | bgtuib | bgeuib | bltuib | bleuib =>
    exact ends_branchIf rfl rfl ..
  | ldb | ldbu | ldh | ldhu | ldw => exact ends_load rfl ..
  | stb | sth | stw => exact ends_store rfl ..
  | jpr | ret => exact ends_jump rfl rfl s.regs _
  | callr => exact ends_jump rfl rfl (s.regs.set Config.ra _) _
  | jpl => exact ends_withImmediate rfl fun _ => ends_jump rfl rfl s.regs _
  | calll => exact ends_withImmediate rfl fun _ => ends_jump rfl rfl (s.regs.set Config.ra _) _
  | store first last => exact ends_execStore first last s
  | restore first last => exact ends_execRestore first last s
  | killtask => exact .signalled (.inr rfl) (by decide)
  | sleep => exact .signalled (.inl rfl) (by decide)
  | syscpy rd rs rt => exact ends_execSyscpy rd rs rt s
  | sysset rd rs rt => exact ends_execSysset rd rs rt s

/-! ## The statements about every instruction -/

theorem Ends.exists_next {i : Instr} {s : State} {o : Out} (h : Ends i s o) : ∃ t, o = .next t := by
  cases h <;> exact ⟨_, rfl⟩

/-- Settles O18: a completed instruction keeps the run state, a signal writes two fields of it, an abort three others. -/
theorem noInstructionTouchesTheRunState : Obligations.NoInstructionTouchesTheRunState := by
  intro i s t hexec
  have hends := exec_ends i s
  rw [hexec] at hends
  cases hends with
  | completed run _ =>
    exact ⟨run.pool, run.unserved, run.budget, run.instructionRan, run.hostMoves,
      fun hrun => ⟨run.fault, run.answer, run.isRunning ▸ hrun⟩, fun _ _ => ⟨run.event, run.shouldStop⟩⟩
  | signalled hi _ =>
    exact ⟨rfl, rfl, rfl, rfl, rfl, fun hrun => ⟨rfl, rfl, hrun⟩,
      fun hsleep hkill => (hi.elim hsleep hkill).elim⟩
  | raised run _ _ =>
    exact ⟨run.pool, run.unserved, run.budget, run.instructionRan, run.hostMoves, nofun,
      fun _ _ => ⟨run.event, run.shouldStop⟩⟩

/-- Settles O21: only a completed instruction or a signal leaves the core Running, and a signal leaves `pc` alone. -/
theorem otherInstructionsAdvancePc : Obligations.OtherInstructionsAdvancePc := by
  intro i s t hexec hrun hstay
  have hends := exec_ends i s
  rw [hexec] at hends
  cases hends with
  | completed _ pc => rw [pc hstay, atBody_pc]
  | signalled hi _ => rcases hi with rfl | rfl <;> rfl
  | raised _ _ _ => cases hrun

/-- Settles O23: an instruction that leaves a Running core Idle has raised. -/
theorem raisingInstructionsArePrecise : Obligations.RaisingInstructionsArePrecise := by
  intro i s t hrun hexec hidle
  have hends := exec_ends i s
  rw [hexec] at hends
  cases hends with
  | completed run _ => cases hrun.symm.trans (run.isRunning.symm.trans hidle)
  | signalled _ _ => cases hrun.symm.trans hidle
  | raised run pc record =>
    exact ⟨_, rfl, record.pc_eq, record.latchable, rfl, record.kind, pc, run.instructionRan, run.budget, run.event,
      run.shouldStop⟩

end Sys2Proof.Machine
end

