-- ==== Sys2Proof/Proofs/StepInvariant.lean ====
section
/-!
PROOF. What one step can do (spec/40_loop_and_resolver.md R93 to R97, spec/60_exceptions.md R280): a host move, the loop
exit, nothing, or one iteration, which ends as its instruction does or in one of the loop's own three errors. The machine
invariant, the count and the bound on a run's length follow from these cases.
-/
namespace Sys2Proof.Machine

/-! ## How an iteration ends -/

/-- How the iteration at `s` can end, before its count. -/
inductive Iterated (s : State) : Out → Prop
  | completed {t : State} (run : SameRun s t) : Iterated s (.next t)
  | signalled {t : State} {e : Event} (run : SameRun s t) (he : e ≠ .none) :
    Iterated s (.next { t with event := e, shouldStop := true })
  | raised {t : State} {r : FaultRecord} (run : SameRun s t) (pc : r.pc = s.pc) (latchable : r.latchable) :
    Iterated s (.next (raise r t))

/-- An instruction entered past its word ends the iteration at that word (R16). -/
theorem Ends.iterated {i : Instr} {s : State} {o : Out} (h : Ends i (s.setPc (s.pc + 4)) o) : Iterated s o := by
  have hentry := sameRun_setPc s (s.pc + 4)
  cases h with
  | completed run _ => exact .completed (hentry.trans run)
  | signalled _ he => exact .signalled hentry he
  | raised run _ record =>
    have hpc : (s.setPc (s.pc + 4)).insnAddr = s.pc := BitVec.add_sub_cancel s.pc 4
    exact .raised (hentry.trans run) (record.pc_eq.trans hpc) record.latchable

theorem iteration_iterated (s : State) : Iterated s (iteration s) := by
  rcases fetchDecode_cases s with ⟨hpc, h⟩ | ⟨-, -, h⟩ | ⟨w, e, -, -, -, h⟩ | ⟨w, i, -, -, -, h⟩ <;> rw [iteration, h]
  · exact .raised (.refl s) rfl ⟨rfl, rfl, rfl, hpc⟩
  · exact .raised (.refl s) rfl ⟨rfl, rfl⟩
  · exact .raised (.refl s) rfl ⟨rfl, rfl⟩
  · exact (exec_ends i _).iterated

theorem iteration_next (s : State) : ∃ v, iteration s = .next v := by
  have h := iteration_iterated s
  generalize iteration s = o at h ⊢
  cases h <;> exact ⟨_, rfl⟩

/-- An iteration from a Running core leaves it Running, or Idle with the record of this iteration latched and answered. -/
theorem running_or_raised {s v : State} (hrun : s.isRunning = true) (hv : iteration s = .next v) :
    v.isRunning = true ∨
      v.isRunning = false ∧ ∃ r, v.fault = some r ∧ r.pc = s.pc ∧ v.answer = some (.error r.kind) := by
  have h := iteration_iterated s
  rw [hv] at h
  cases h with
  | completed run => exact .inl (run.isRunning.trans hrun)
  | signalled run _ => exact .inl (run.isRunning.trans hrun)
  | raised _ pc _ => exact .inr ⟨rfl, _, rfl, pc, rfl⟩

/-! ## How a step goes -/

/-- The core's own move at `s`. -/
inductive CoreMove (s : State) : Out → Prop
  | idle (hidle : s.isRunning = false) : CoreMove s (.next s)
  | exit (hrun : s.isRunning = true) : CoreMove s (.next (loopExit s))
  | iteration {v : State} (hrun : s.isRunning = true) (hstay : leavesLoop s = false) (hv : iteration s = .next v) :
    CoreMove s (.next v.counted)

theorem coreMove_of_nextTurn {s u : State} (h : nextTurn s = coreTurn u) : CoreMove u (step s) := by
  rcases coreTurn_cases u with ⟨hidle, hturn⟩ | ⟨hrun, -, hturn⟩ | ⟨hrun, hstay, hturn⟩
  · rw [step_of_done (h.trans hturn)]
    exact .idle hidle
  · rw [step_of_done (h.trans hturn)]
    exact .exit hrun
  · obtain ⟨v, hv⟩ := iteration_next u
    have hstep : step s = retire (iteration u) := by
      rw [step, h, hturn, iteration]
      rcases fetchDecode_cases u with ⟨-, e⟩ | ⟨-, -, e⟩ | ⟨w, er, -, -, -, e⟩ | ⟨w, i, -, -, -, e⟩ <;> rw [e] <;> rfl
    rw [hstep, hv]
    exact .iteration hrun hstay hv

/-- A step is a move of the host, or of the core once the host has passed or has no move (R5, R95). -/
theorem step_cases (s : State) :
    (∃ m ms, step s = hostMove m { s with hostMoves := ms }) ∨ ∃ ms, CoreMove { s with hostMoves := ms } (step s) := by
  rcases nextTurn_cases s with ⟨-, hturn⟩ | ⟨ms, -, hturn⟩ | ⟨m, ms, -, hturn⟩
  · exact .inr ⟨s.hostMoves, coreMove_of_nextTurn hturn⟩
  · exact .inr ⟨ms, coreMove_of_nextTurn hturn⟩
  · exact .inl ⟨m, ms, step_of_done hturn⟩

/-- Settles O17: `exec_ends` for the instructions; of the steps only a host access can be refused. -/
theorem noInstructionStops : Obligations.NoInstructionStops := by
  refine ⟨fun i s => (exec_ends i s).exists_next, fun s => ?_⟩
  rcases step_cases s with ⟨m, ms, hstep⟩ | ⟨ms, hmove⟩
  · rw [hstep]
    exact (hostMove_cases m _).imp id And.symm
  · generalize step s = o at hmove ⊢
    cases hmove <;> exact .inl ⟨_, rfl⟩

/-! ## The invariant -/

theorem Inv.withMoves {s : State} (hs : Inv s) (ms : List HostMove) : Inv { s with hostMoves := ms } :=
  ⟨hs.memory, hs.counter, hs.eventStops, hs.runningClear, hs.latch⟩

theorem inv_loopEntry {s : State} (b : BitVec 31) (hs : Inv s) : Inv (loopEntry b s) :=
  ⟨hs.memory, Nat.zero_le _, fun h => absurd rfl h, fun _ => rfl, nofun⟩

/-- The host's writes keep all of the run state, and memory canonical (R23, R54, R301). -/
theorem Inv.write {s : State} (hs : Inv s) (g : Vector Word 32) (a : Word) {m : Memory} (hm : m.wf) (p : Pool) :
    Inv { s with regs := g, pc := a, mem := m, pool := p } :=
  ⟨hm, hs.counter, hs.eventStops, hs.runningClear, hs.latch⟩

theorem inv_whileIdle {s s' t : State} (hs' : Inv s') (h : whileIdle s s' = .next t) : Inv t := by
  cases hrun : s.isRunning with
  | true => rw [whileIdle_of_running s' hrun] at h; cases h
  | false => rw [whileIdle_of_idle s' hrun] at h; cases h; exact hs'

theorem inv_hostMove {s t : State} {m : HostMove} (hs : Inv s) (h : hostMove m s = .next t) : Inv t := by
  cases m with
  | run b =>
    simp only [hostMove, hostRun] at h
    split at h <;> cases h
    · exact ⟨hs.memory, hs.counter, hs.eventStops, hs.runningClear, hs.latch⟩
    · exact inv_loopEntry b hs
  | stop => cases h; exact ⟨hs.memory, hs.counter, fun _ => rfl, hs.runningClear, hs.latch⟩
  | writeReg r v => exact inv_whileIdle (hs.write (s.regs.set r v) s.pc hs.memory s.pool) h
  | writePc v => exact inv_whileIdle (hs.write s.regs v hs.memory s.pool) h
  | writeByte a b => exact inv_whileIdle (hs.write s.regs s.pc (write_wf b hs.memory a.isLt) s.pool) h
  | loadPool p => exact inv_whileIdle (hs.write s.regs s.pc hs.memory p) h
  | pass => cases h; exact hs

/-- What keeps the run state keeps the invariant. -/
theorem SameRun.inv {s t : State} (run : SameRun s t) (hs : Inv s) : Inv t where
  memory := run.memory hs.memory
  counter := by rw [run.instructionRan, run.budget]; exact hs.counter
  eventStops := by rw [run.event, run.shouldStop]; exact hs.eventStops
  runningClear := by rw [run.isRunning, run.fault]; exact hs.runningClear
  latch := by rw [run.fault]; exact hs.latch

theorem iteration_inv {s v : State} (hs : Inv s) (hv : iteration s = .next v) : Inv v := by
  have h := iteration_iterated s
  rw [hv] at h
  cases h with
  | completed run => exact run.inv hs
  | signalled run _ =>
    have ht := run.inv hs
    exact ⟨ht.memory, ht.counter, fun _ => rfl, ht.runningClear, ht.latch⟩
  | raised run _ latchable =>
    have ht := run.inv hs
    exact ⟨ht.memory, ht.counter, ht.eventStops, nofun, fun _ h => Option.some.inj h ▸ latchable⟩

/-- The count of a completed iteration stays within the budget, since the loop-top check let it begin (R93, R97). -/
theorem inv_counted {s v : State} (hs : Inv s) (hstay : leavesLoop s = false) (hv : iteration s = .next v) :
    Inv v.counted := by
  have hv' := iteration_inv hs hv
  cases hrun : v.isRunning with
  | false => rwa [counted_of_idle hrun]
  | true =>
    have hlt : s.instructionRan.toNat < s.budget.toNat :=
      Nat.not_le.mp fun hle => Bool.false_ne_true (hstay.symm.trans (leavesLoop_iff.mpr (.inr hle)))
    obtain ⟨hcount, hbudget⟩ := iteration_counter_budget hv
    have hcounter : (v.instructionRan + 1).toNat ≤ v.budget.toNat := by
      rw [hcount, hbudget, toNat_succ_of_lt_budget hlt]
      exact hlt
    rw [counted_of_running hrun]
    exact ⟨hv'.memory, hcounter, hv'.eventStops, hv'.runningClear, hv'.latch⟩

theorem inv_coreMove {s t : State} (hs : Inv s) (h : CoreMove s (.next t)) : Inv t := by
  cases h with
  | idle _ => exact hs
  | exit _ => exact ⟨hs.memory, hs.counter, hs.eventStops, nofun, hs.latch⟩
  | iteration _ hstay hv => exact inv_counted hs hstay hv

/-- Settles O14: the host's moves and the core's keep the invariant, each case by its own lemma. -/
theorem everyStepKeepsTheInvariant : Obligations.EveryStepKeepsTheInvariant := by
  intro s t hs ht
  rcases step_cases s with ⟨m, ms, hstep⟩ | ⟨ms, hmove⟩
  · exact inv_hostMove (hs.withMoves ms) (hstep.symm.trans ht)
  · rw [ht] at hmove
    exact inv_coreMove (hs.withMoves ms) hmove

/-- Settles O15: nothing is in memory, and no event and no record is latched. -/
theorem resetHasTheInvariant : Obligations.ResetHasTheInvariant :=
  ⟨nil_wf, Nat.le_refl 0, fun h => absurd rfl h, fun _ => rfl, nofun⟩

/-- Settles O16: `State.construct` names each of these values. -/
theorem constructionLeavesIdleAndClear : Obligations.ConstructionLeavesIdleAndClear :=
  fun _ _ _ _ _ => ⟨rfl, rfl, rfl, rfl, rfl, rfl, rfl, rfl, rfl, rfl⟩

end Sys2Proof.Machine
end

