-- ==== Sys2Proof/Proofs/OpcodeTable.lean ====
section
/-!
PROOF. What the opcode table says of every word (spec/30_encoding.md R68, R70 to R72, R76). Its opcodes are 0x01 to 0x55;
and each row is sound: what it reads from a word is well formed, is encoded under the row's opcode, has the row's shape and
depends on the bits the slot uses only. A row's soundness follows from its operand form, so it is said once per form.
-/
namespace Sys2Proof.Machine

/-! ## The assigned opcodes (R70, R72) -/

theorem opcodeTable_opcodes : opcodeTable.map (·.op) = (List.range' 1 0x55).map (BitVec.ofNat 8) := rfl

theorem mem_opcodes_iff {op : Byte} : op ∈ opcodeTable.map (·.op) ↔ 1 ≤ op.toNat ∧ op.toNat ≤ 0x55 := by
  rw [opcodeTable_opcodes, List.mem_map]
  constructor
  · rintro ⟨n, hn, rfl⟩
    rw [List.mem_range'_1] at hn
    rw [BitVec.toNat_ofNat]
    omega
  · rintro ⟨hlo, hhi⟩
    exact ⟨op.toNat, List.mem_range'_1.2 ⟨hlo, Nat.lt_succ_of_le hhi⟩,
      (BitVec.ofNat_toNat 8 op).trans (BitVec.setWidth_eq op)⟩

theorem mem_of_slot {op : Byte} {r : OpcodeRow} (h : slot op = some r) : r ∈ opcodeTable ∧ r.op = op :=
  ⟨List.mem_of_find?_eq_some h, beq_iff_eq.1 (List.find?_some h :)⟩

theorem slot_eq_none_iff {op : Byte} : slot op = none ↔ op.toNat = 0 ∨ 0x56 ≤ op.toNat := by
  have hnone : slot op = none ↔ op ∉ opcodeTable.map (·.op) := by
    simp only [slot, List.find?_eq_none, beq_iff_eq, List.mem_map, not_exists, not_and]
  rw [hnone, mem_opcodes_iff]
  omega

theorem exists_slot {op : Byte} (h : 1 ≤ op.toNat ∧ op.toNat ≤ 0x55) : ∃ r, slot op = some r :=
  Option.ne_none_iff_exists'.1 fun hnone => by
    rw [slot_eq_none_iff] at hnone
    omega

/-- A word with an unassigned opcode is refused by name. -/
theorem decodeWord_of_unassigned {w : Word} (h : (opByte w).toNat = 0 ∨ 0x56 ≤ (opByte w).toNat) :
    decodeWord w = .error (.unassigned (opByte w)) := by
  simp only [decodeWord, slot_eq_none_iff.2 h]

theorem decodeWord_of_slot {w : Word} {r : OpcodeRow} (h : slot (opByte w) = some r) :
    decodeWord w = .ok (r.build w) := by
  simp only [decodeWord, h]

/-- What a word decodes to is read by its opcode's row. -/
theorem slot_of_decodeWord {w : Word} {i : Instr} (h : decodeWord w = .ok i) :
    ∃ r, slot (opByte w) = some r ∧ i = r.build w := by
  cases hs : slot (opByte w) with
  | none => simp only [decodeWord, hs] at h; cases h
  | some r =>
    rw [decodeWord_of_slot hs] at h
    cases h
    exact ⟨r, rfl, rfl⟩

/-! ## The bits a slot uses (R68) -/

/-- A field keeps its value under a mask that covers it. -/
theorem extractLsb'_and_mask {w m : Word} {k n : Nat} (h : m.extractLsb' k n = BitVec.allOnes n) :
    (w &&& m).extractLsb' k n = w.extractLsb' k n := by
  rw [BitVec.extractLsb'_and, h, BitVec.and_allOnes]

/-- Every slot uses the opcode, and so does a refusal. -/
theorem usedBits_opcode (op : Byte) : (usedBits op).extractLsb' 0 8 = BitVec.allOnes 8 := by
  unfold usedBits
  repeat' split
  all_goals rfl

theorem opByte_and_usedBits (w : Word) (op : Byte) : opByte (w &&& usedBits op) = opByte w :=
  extractLsb'_and_mask (usedBits_opcode op)

theorem fieldD_and_mask {w m : Word} (h : m.extractLsb' 8 5 = BitVec.allOnes 5) : fieldD (w &&& m) = fieldD w :=
  congrArg BitVec.toFin (extractLsb'_and_mask h)

theorem fieldS_and_mask {w m : Word} (h : m.extractLsb' 16 5 = BitVec.allOnes 5) : fieldS (w &&& m) = fieldS w :=
  congrArg BitVec.toFin (extractLsb'_and_mask h)

theorem fieldT_and_mask {w m : Word} (h : m.extractLsb' 24 5 = BitVec.allOnes 5) : fieldT (w &&& m) = fieldT w :=
  congrArg BitVec.toFin (extractLsb'_and_mask h)

/-! ## Sound rows, by operand form -/

/-- What a row reads from any word has an encoding with the row's opcode and shape, and ignores the unused bits. -/
structure RowSound (r : OpcodeRow) : Prop where
  wellFormed (w : Word) : WellFormed (r.build w) = true
  opcode (w : Word) : opByte (encode (r.build w)) = r.op
  shape (w : Word) : (r.build w).shape = r.shape
  ignores (w : Word) : r.build (w &&& usedBits r.op) = r.build w

section Forms
variable {op : Byte} {shape : Shape} {info : Bool}

theorem rowSound_regs3 {f : Reg → Reg → Reg → Instr} (hw : ∀ d s t, WellFormed (f d s t) = true)
    (ho : ∀ d s t, opByte (encode (f d s t)) = op) (hs : ∀ d s t, (f d s t).shape = shape)
    (hu : usedBits op = 0x1F1F1FFF) : RowSound ⟨op, shape, info, regs3 f⟩ where
  wellFormed _ := hw ..
  opcode _ := ho ..
  shape _ := hs ..
  ignores w := by simp only [regs3_eq, hu, fieldD_and_mask (m := 0x1F1F1FFF) rfl,
    fieldS_and_mask (m := 0x1F1F1FFF) rfl, fieldT_and_mask (m := 0x1F1F1FFF) rfl]

theorem rowSound_regs2 {f : Reg → Reg → Instr} (hw : ∀ d s, WellFormed (f d s) = true)
    (ho : ∀ d s, opByte (encode (f d s)) = op) (hs : ∀ d s, (f d s).shape = shape)
    (hu : usedBits op = 0x001F1FFF) : RowSound ⟨op, shape, info, regs2 f⟩ where
  wellFormed _ := hw ..
  opcode _ := ho ..
  shape _ := hs ..
  ignores w := by simp only [regs2_eq, hu, fieldD_and_mask (m := 0x001F1FFF) rfl, fieldS_and_mask (m := 0x001F1FFF) rfl]

theorem rowSound_reg1 {f : Reg → Instr} (hw : ∀ d, WellFormed (f d) = true) (ho : ∀ d, opByte (encode (f d)) = op)
    (hs : ∀ d, (f d).shape = shape) (hu : usedBits op = 0x00001FFF) : RowSound ⟨op, shape, info, reg1 f⟩ where
  wellFormed _ := hw ..
  opcode _ := ho ..
  shape _ := hs ..
  ignores w := by simp only [reg1_eq, hu, fieldD_and_mask (m := 0x00001FFF) rfl]

theorem rowSound_noOperand {i : Instr} (hw : WellFormed i = true) (ho : opByte (encode i) = op)
    (hs : i.shape = shape) : RowSound ⟨op, shape, info, noOperand i⟩ where
  wellFormed _ := hw
  opcode _ := ho
  shape _ := hs
  ignores _ := rfl

theorem shiftFits_shiftOfByte (b : Byte) : shiftFits (shiftOfByte b) = true :=
  decide_eq_true (Nat.mod_lt _ (by decide))

theorem rowSound_regsShift {f : Reg → Reg → Nat → Instr} (hw : ∀ d s sh, WellFormed (f d s sh) = shiftFits sh)
    (ho : ∀ d s sh, opByte (encode (f d s sh)) = op) (hs : ∀ d s sh, (f d s sh).shape = shape)
    (hu : usedBits op = 0x1F1F1FFF) : RowSound ⟨op, shape, info, regsShift f⟩ where
  wellFormed w := (hw ..).trans (shiftFits_shiftOfByte (byteC w))
  opcode _ := ho ..
  shape _ := hs ..
  ignores w := by
    have hsh : fieldSh (w &&& 0x1F1F1FFF) = fieldSh w := congrArg BitVec.toNat (extractLsb'_and_mask rfl)
    simp only [regsShift_eq, hu, fieldD_and_mask (m := 0x1F1F1FFF) rfl, fieldS_and_mask (m := 0x1F1F1FFF) rfl, hsh]

theorem disp16Fits_toInt (x : BitVec 16) : disp16Fits x.toInt = true :=
  decide_eq_true ⟨x.le_toInt, x.toInt_lt⟩

theorem rowSound_infoBranch {f : Reg → Int → Instr} (hw : ∀ d x, WellFormed (f d x) = disp16Fits x)
    (ho : ∀ d x, opByte (encode (f d x)) = op) (hs : ∀ d x, (f d x).shape = shape)
    (hu : usedBits op = 0xFFFF1FFF) : RowSound ⟨op, shape, info, infoBranch f⟩ where
  wellFormed w := (hw ..).trans (disp16Fits_toInt (imm16 w))
  opcode _ := ho ..
  shape _ := hs ..
  ignores w := by
    have himm : fieldImm16 (w &&& 0xFFFF1FFF) = fieldImm16 w := extractLsb'_and_mask rfl
    simp only [infoBranch_eq, hu, fieldD_and_mask (m := 0xFFFF1FFF) rfl, himm]

theorem signedByteFits_toInt (x : Byte) : signedByteFits x.toInt = true :=
  decide_eq_true ⟨x.le_toInt, x.toInt_lt⟩

theorem unsignedByteFits_toNat (x : Byte) : unsignedByteFits x.toNat = true :=
  decide_eq_true x.isLt

theorem rowSound_byteBranch {f : Reg → Int → Int → Instr}
    (hw : ∀ d b x, WellFormed (f d b x) = (signedByteFits b && signedByteFits x))
    (ho : ∀ d b x, opByte (encode (f d b x)) = op) (hs : ∀ d b x, (f d b x).shape = shape)
    (hu : usedBits op = 0xFFFF1FFF) : RowSound ⟨op, shape, info, byteBranch f⟩ where
  wellFormed w := (hw ..).trans (by rw [signedByteFits_toInt, signedByteFits_toInt]; rfl)
  opcode _ := ho ..
  shape _ := hs ..
  ignores w := by
    have hb : fieldB (w &&& 0xFFFF1FFF) = fieldB w := extractLsb'_and_mask rfl
    have hc : fieldC (w &&& 0xFFFF1FFF) = fieldC w := extractLsb'_and_mask rfl
    simp only [byteBranch_eq, hu, fieldD_and_mask (m := 0xFFFF1FFF) rfl, hb, hc]

theorem rowSound_byteBranchU {f : Reg → Nat → Int → Instr}
    (hw : ∀ d b x, WellFormed (f d b x) = (unsignedByteFits b && signedByteFits x))
    (ho : ∀ d b x, opByte (encode (f d b x)) = op) (hs : ∀ d b x, (f d b x).shape = shape)
    (hu : usedBits op = 0xFFFF1FFF) : RowSound ⟨op, shape, info, byteBranchU f⟩ where
  wellFormed w := (hw ..).trans (by rw [unsignedByteFits_toNat, signedByteFits_toInt]; rfl)
  opcode _ := ho ..
  shape _ := hs ..
  ignores w := by
    have hb : fieldB (w &&& 0xFFFF1FFF) = fieldB w := extractLsb'_and_mask rfl
    have hc : fieldC (w &&& 0xFFFF1FFF) = fieldC w := extractLsb'_and_mask rfl
    simp only [byteBranchU_eq, hu, fieldD_and_mask (m := 0xFFFF1FFF) rfl, hb, hc]

end Forms

/-! ## The rows of the table -/

theorem arithRows_sound : ∀ r ∈ arithRows, RowSound r := by
  simp only [arithRows, List.forall_mem_cons]
  refine ⟨?_, ?_, ?_, ?_, ?_, ?_, ?_, ?_, ?_, ?_, nofun⟩
  iterate 8 exact rowSound_regs3 (fun _ _ _ => rfl) (fun _ _ _ => opByte_instrWord ..) (fun _ _ _ => rfl) rfl
  iterate 2 exact rowSound_regs2 (fun _ _ => rfl) (fun _ _ => opByte_instrWord ..) (fun _ _ => rfl) rfl

theorem immediateRows_sound : ∀ r ∈ immediateRows, RowSound r := by
  simp only [immediateRows, List.forall_mem_cons]
  refine ⟨?_, ?_, ?_, ?_, ?_, ?_, ?_, ?_, nofun⟩
  all_goals exact rowSound_regs2 (fun _ _ => rfl) (fun _ _ => opByte_instrWord ..) (fun _ _ => rfl) rfl

theorem narrowRows_sound : ∀ r ∈ narrowRows, RowSound r := by
  simp only [narrowRows, List.forall_mem_cons]
  refine ⟨?_, ?_, ?_, ?_, ?_, ?_, ?_, ?_, ?_, ?_, nofun⟩
  all_goals exact rowSound_regs3 (fun _ _ _ => rfl) (fun _ _ _ => opByte_instrWord ..) (fun _ _ _ => rfl) rfl

theorem shiftRows_sound : ∀ r ∈ shiftRows, RowSound r := by
  simp only [shiftRows, List.forall_mem_cons]
  refine ⟨?_, ?_, ?_, ?_, ?_, ?_, ?_, ?_, ?_, ?_, ?_, ?_, nofun⟩
  iterate 3 exact rowSound_regs3 (fun _ _ _ => rfl) (fun _ _ _ => opByte_instrWord ..) (fun _ _ _ => rfl) rfl
  iterate 9 exact rowSound_regsShift (fun _ _ _ => rfl) (fun _ _ _ => opByte_instrWord ..) (fun _ _ _ => rfl) rfl

theorem moveRows_sound : ∀ r ∈ moveRows, RowSound r := by
  simp only [moveRows, List.forall_mem_cons]
  refine ⟨?_, ?_, ?_, ?_, ?_, ?_, nofun⟩
  iterate 5 exact rowSound_regs2 (fun _ _ => rfl) (fun _ _ => opByte_instrWord ..) (fun _ _ => rfl) rfl
  exact rowSound_reg1 (fun _ => rfl) (fun _ => opByte_instrWord ..) (fun _ => rfl) rfl

theorem branchRows_sound : ∀ r ∈ branchRows, RowSound r := by
  simp only [branchRows, List.forall_mem_cons]
  refine ⟨?_, ?_, ?_, ?_, ?_, ?_, ?_, ?_, ?_, ?_, nofun⟩
  all_goals exact rowSound_infoBranch (fun _ _ => rfl) (fun _ _ => opByte_infoBranchWord ..) (fun _ _ => rfl) rfl

theorem byteBranchRows_sound : ∀ r ∈ byteBranchRows, RowSound r := by
  simp only [byteBranchRows, List.forall_mem_cons]
  refine ⟨?_, ?_, ?_, ?_, ?_, ?_, ?_, ?_, ?_, ?_, nofun⟩
  iterate 6 exact rowSound_byteBranch (fun _ _ _ => rfl) (fun _ _ _ => opByte_instrWord ..) (fun _ _ _ => rfl) rfl
  iterate 4 exact rowSound_byteBranchU (fun _ _ _ => rfl) (fun _ _ _ => opByte_instrWord ..) (fun _ _ _ => rfl) rfl

theorem memoryRows_sound : ∀ r ∈ memoryRows, RowSound r := by
  simp only [memoryRows, List.forall_mem_cons]
  refine ⟨?_, ?_, ?_, ?_, ?_, ?_, ?_, ?_, nofun⟩
  all_goals exact rowSound_regs2 (fun _ _ => rfl) (fun _ _ => opByte_instrWord ..) (fun _ _ => rfl) rfl

theorem controlRows_sound : ∀ r ∈ controlRows, RowSound r := by
  simp only [controlRows, List.forall_mem_cons]
  refine ⟨?_, ?_, ?_, ?_, ?_, ?_, ?_, ?_, ?_, ?_, ?_, nofun⟩
  iterate 2 exact rowSound_reg1 (fun _ => rfl) (fun _ => opByte_instrWord ..) (fun _ => rfl) rfl
  iterate 3 exact rowSound_noOperand rfl (opByte_instrWord ..) rfl
  iterate 2 exact rowSound_regs2 (fun _ _ => rfl) (fun _ _ => opByte_instrWord ..) (fun _ _ => rfl) rfl
  iterate 2 exact rowSound_noOperand rfl (opByte_instrWord ..) rfl
  iterate 2 exact rowSound_regs3 (fun _ _ _ => rfl) (fun _ _ _ => opByte_instrWord ..) (fun _ _ _ => rfl) rfl

theorem opcodeTable_sound {r : OpcodeRow} (h : r ∈ opcodeTable) : RowSound r := by
  simp only [opcodeTable, List.mem_append] at h
  rcases h with (((((((h | h) | h) | h) | h) | h) | h) | h) | h
  · exact arithRows_sound r h
  · exact immediateRows_sound r h
  · exact narrowRows_sound r h
  · exact shiftRows_sound r h
  · exact moveRows_sound r h
  · exact branchRows_sound r h
  · exact byteBranchRows_sound r h
  · exact memoryRows_sound r h
  · exact controlRows_sound r h

/-! ## The statements about words -/

/-- Settles O1: the opcodes of the table, the shape of each row, and the count of each shape. -/
theorem opcodeAloneDecidesRefusalAndShape : Obligations.OpcodeAloneDecidesRefusalAndShape := by
  refine ⟨fun w => ⟨fun hout => ⟨decodeWord_of_unassigned hout, ?_⟩, fun hin => ?_⟩, by decide +kernel⟩
  · rw [shapeOf, slot_eq_none_iff.2 hout]
    rfl
  · obtain ⟨r, hr⟩ := exists_slot hin
    have hshape : (r.build w).shape = r.shape := (opcodeTable_sound (mem_of_slot hr).1).shape w
    exact ⟨r.build w, decodeWord_of_slot hr, by rw [shapeOf, hr, hshape]; rfl⟩

/-- Settles O3: the row a word is read by is sound, and the canonical word of a well-formed instruction decodes to it. -/
theorem decodedWordsAreWellFormedAndCanonical : Obligations.DecodedWordsAreWellFormedAndCanonical := by
  intro w i hi
  obtain ⟨r, hr, rfl⟩ := slot_of_decodeWord hi
  obtain ⟨hmem, hop⟩ := mem_of_slot hr
  have hsound := opcodeTable_sound hmem
  exact ⟨hsound.wellFormed w, (hsound.opcode w).trans hop, decodeWord_encode (hsound.wellFormed w)⟩

/-- Settles O4: the opcode is kept, so the slot is; and a row ignores the bits its slot does not use. -/
theorem ignoredBitsHaveNoEffect : Obligations.IgnoredBitsHaveNoEffect := by
  intro w
  have hop : opByte (w &&& usedBits (opByte w)) = opByte w := opByte_and_usedBits w _
  change decodeWord (w &&& usedBits (opByte w)) = decodeWord w
  cases hs : slot (opByte w) with
  | none => simp only [decodeWord, hop, hs]
  | some r =>
    obtain ⟨hmem, hrop⟩ := mem_of_slot hs
    have hread : r.build (w &&& usedBits (opByte w)) = r.build w := hrop ▸ (opcodeTable_sound hmem).ignores w
    rw [decodeWord_of_slot hs, decodeWord_of_slot (hop ▸ hs), hread]

/-- Settles O5: each word's row reads its fields. -/
theorem sampleWordsDecode : Obligations.SampleWordsDecode :=
  ⟨rfl, rfl, rfl, rfl, rfl, rfl, rfl, rfl⟩

end Sys2Proof.Machine
end

