-- ==== Sys2Proof/Proofs/LoopSteps.lean ====
section
/-!
PROOF. The loop around the instructions (spec/40_loop_and_resolver.md R90 to R97): the step at an iteration and at the loop
top, the host's `Run` and `Stop`, the count, and the bound that the budget sets to a run.
-/
namespace Sys2Proof.Machine

/-! ## The step at an iteration -/

/-- Settles O6: at an aligned, fetched and decoded word the iteration is the instruction, and the step counts it. -/
theorem stepRunsTheDecodedInstruction : Obligations.StepRunsTheDecodedInstruction :=
  fun _ _ _ _ hs hpc hfetch hdecode hexec =>
    step_of_iteration hs ((iteration_of_decodeWord hpc hfetch hdecode).trans hexec)

/-- An iteration that raises is not counted (R97, R280). -/
theorem step_of_raise {s t : State} {r : FaultRecord} (hs : atIteration s) (h : iteration s = .next (raise r t)) :
    step s = .next (raise r t) :=
  step_of_iteration hs h

theorem iteration_of_misaligned {s : State} (hpc : s.pc.toNat % 4 ≠ 0) :
    iteration s = .next (raiseMisalignedPC s.pc s) := by
  rcases fetchDecode_cases s with ⟨-, h⟩ | ⟨h0, -⟩ | ⟨_, _, h0, -⟩ | ⟨_, _, h0, -⟩
  · rw [iteration, h]
  all_goals exact absurd h0 hpc

theorem iteration_of_refused_fetch {s : State} (hpc : s.pc.toNat % 4 = 0) (hfetch : fetchInsn s s.pc = none) :
    iteration s = .next (raiseBusError s.pc s.pc s) := by
  rcases fetchDecode_cases s with ⟨hne, -⟩ | ⟨-, -, h⟩ | ⟨w, _, -, hw, -⟩ | ⟨w, _, -, hw, -⟩
  · exact absurd hpc hne
  · rw [iteration, h]
  all_goals cases hfetch.symm.trans hw

theorem iteration_of_reject {s : State} {w : Word} {e : DecodeReject} (hpc : s.pc.toNat % 4 = 0)
    (hfetch : fetchInsn s s.pc = some w) (hdecode : decodeWord w = .error e) :
    iteration s = .next (raiseDecodeError (opByte w) s.pc s) := by
  rcases fetchDecode_cases s with ⟨hne, -⟩ | ⟨-, hnone, -⟩ | ⟨w', _, -, hw, -, h⟩ | ⟨w', i, -, hw, hi, -⟩
  · exact absurd hpc hne
  · cases hfetch.symm.trans hnone
  · cases hfetch.symm.trans hw
    rw [iteration, h]
  · cases hfetch.symm.trans hw
    cases hdecode.symm.trans hi

/-- Settles O7: the loop's three errors; an opcode outside the table is the one that is refused. -/
theorem loopRaisesInOrder : Obligations.LoopRaisesInOrder := by
  intro s hs
  refine ⟨fun hpc => ?_, fun hpc hfetch => ?_, fun hpc w hfetch hop => ?_⟩
  · exact step_of_raise hs (iteration_of_misaligned hpc)
  · exact step_of_raise hs (iteration_of_refused_fetch hpc hfetch)
  · exact step_of_raise hs (iteration_of_reject hpc hfetch (decodeWord_of_unassigned hop))

/-! ## The loop top and the host -/

/-- Settles O8: the loop exit, and the step of an Idle core. -/
theorem loopExitsAtTheLoopTop : Obligations.LoopExitsAtTheLoopTop :=
  fun _ hq => ⟨fun hrun hleave => step_of_leavesLoop hq hrun (leavesLoop_iff.mpr hleave), step_of_idle hq⟩

theorem hostRun_of_idle {s : State} (b : BitVec 31) (h : s.isRunning = false) : hostRun b s = loopEntry b s := by
  simp [hostRun, h]

theorem hostRun_of_running {s : State} (b : BitVec 31) (h : s.isRunning = true) :
    hostRun b s = { s with answer := some (.error .reentrancyError) } := by
  simp [hostRun, h]

/-- Settles O9: the pending move is the step, and `Run` is told apart by the run state. -/
theorem hostRunAndStop : Obligations.HostRunAndStop := by
  intro s ms b
  refine ⟨fun hm hidle => ?_, fun hm hrun => ?_, fun hm => step_of_hostMove hm nofun⟩
  · exact (step_of_hostMove hm nofun).trans (congrArg _ (hostRun_of_idle (s := { s with hostMoves := ms }) b hidle))
  · exact (step_of_hostMove hm nofun).trans (congrArg _ (hostRun_of_running (s := { s with hostMoves := ms }) b hrun))

/-! ## The count and the budget -/

/-- Settles O11: an iteration that leaves the core Running is counted, one that raises is not. -/
theorem counterCountsCompletedInstructions : Obligations.CounterCountsCompletedInstructions := by
  intro s t hs ht
  obtain ⟨v, hv, rfl⟩ := iteration_of_step hs ht
  obtain ⟨-, hrun, -⟩ := hs
  obtain ⟨hcount, -⟩ := iteration_counter_budget hv
  rcases running_or_raised hrun hv with hvrun | ⟨hvidle, r, hfault, hpc, -⟩
  · rw [counted_of_running hvrun]
    exact ⟨fun _ => congrArg (· + 1) hcount, fun hidle => nomatch hvrun.symm.trans hidle⟩
  · rw [counted_of_idle hvidle]
    exact ⟨fun h => (nomatch hvidle.symm.trans h), fun _ => ⟨hcount, r, hfault, hpc⟩⟩

/-- An Idle core that has answered its `Run` tells how the run ended (R255). -/
theorem runEnd_isSome {s : State} (hidle : s.isRunning = false) (hanswer : s.answer.isSome = true) :
    (runEnd s).isSome = true := by
  obtain ⟨a, ha⟩ := Option.isSome_iff_exists.1 hanswer
  rw [runEnd, hidle, ha]
  cases s.fault <;> cases s.event <;> rfl

/-- The outcome is an Idle core that counted at most `b` instructions and tells how its run ended. -/
def ReturnsWithin (b : Nat) (o : Out) : Prop :=
  ∃ t, o = .next t ∧ t.isRunning = false ∧ t.instructionRan.toNat ≤ b ∧ (runEnd t).isSome = true

theorem returnsWithin_of_idle {s : State} {b : Nat} (hq : hostQuiet s) (hidle : s.isRunning = false)
    (hanswer : s.answer.isSome = true) (hcounter : s.instructionRan.toNat ≤ b) (k : Nat) :
    ReturnsWithin b (runSteps k s) :=
  ⟨s, runSteps_of_idle hq hidle k, hidle, hcounter, runEnd_isSome hidle hanswer⟩

theorem returnsWithin_of_leavesLoop {s : State} {b : Nat} (hq : hostQuiet s) (hrun : s.isRunning = true)
    (hleave : leavesLoop s = true) (hcounter : s.instructionRan.toNat ≤ b) (k : Nat) :
    ReturnsWithin b (runSteps (k + 1) s) := by
  rw [runSteps_of_step (step_of_leavesLoop hq hrun hleave)]
  exact returnsWithin_of_idle (s := loopExit s) hq rfl rfl hcounter k

/-- A core that at most `k` more completed instructions bring to the end of its budget has returned after `k + 1` steps. -/
theorem runSteps_returnsWithin {k : Nat} {s : State} (hq : hostQuiet s)
    (hanswered : s.isRunning = false → s.answer.isSome = true) (hcounter : s.instructionRan.toNat ≤ s.budget.toNat)
    (hleft : s.isRunning = true → s.budget.toNat ≤ s.instructionRan.toNat + k) :
    ReturnsWithin s.budget.toNat (runSteps (k + 1) s) := by
  induction k generalizing s with
  | zero =>
    rcases quiet_cases hq with hidle | ⟨hrun, hleave⟩ | ⟨-, hrun, -, hlt⟩
    · exact returnsWithin_of_idle hq hidle (hanswered hidle) hcounter _
    · exact returnsWithin_of_leavesLoop hq hrun hleave hcounter _
    · exact absurd (hleft hrun) (Nat.not_le.mpr hlt)
  | succ k ih =>
    rcases quiet_cases hq with hidle | ⟨hrun, hleave⟩ | hit
    · exact returnsWithin_of_idle hq hidle (hanswered hidle) hcounter _
    · exact returnsWithin_of_leavesLoop hq hrun hleave hcounter _
    · have ⟨_, hrun, _, hlt⟩ := hit
      have hroom := hleft hrun
      obtain ⟨v, hv⟩ := iteration_next s
      obtain ⟨hcount, hbudget⟩ := iteration_counter_budget hv
      have hvq := iteration_hostQuiet hq hv
      rw [runSteps_of_step (step_of_iteration hit hv), ← hbudget]
      rcases running_or_raised hrun hv with hvrun | ⟨hvidle, r, -, -, hanswer⟩
      · have hsucc : (v.instructionRan + 1).toNat = s.instructionRan.toNat + 1 := by
          rw [hcount, toNat_succ_of_lt_budget hlt]
        rw [counted_of_running hvrun]
        refine ih (s := { v with instructionRan := v.instructionRan + 1 }) hvq
          (fun hidle => nomatch hvrun.symm.trans hidle) ?_ fun _ => ?_
        all_goals simp only [hsucc, hbudget]; omega
      · rw [counted_of_idle hvidle]
        exact returnsWithin_of_idle hvq hvidle (by rw [hanswer]; rfl) (by rw [hcount, hbudget]; exact hcounter) _

/-- Settles O12: loop entry leaves the whole budget to go. -/
theorem everyRunReturnsWithinItsBudget : Obligations.EveryRunReturnsWithinItsBudget :=
  fun _ _ hq => runSteps_returnsWithin (s := loopEntry _ _) hq nofun (Nat.zero_le _) fun _ => (Nat.zero_add _).ge

end Sys2Proof.Machine
end

