-- ==== Sys2Proof/Proofs/InfoWord.lean ====
section
/-!
PROOF. The info word (spec/40_loop_and_resolver.md R100 to R105): what it resolves to, that an instruction with one fetches
it first, and that an instruction without one never looks at the pool. For the last, one lemma per form of meaning says
that replacing the pool before the handler is the same as replacing it after.
-/
namespace Sys2Proof.Machine

/-! ## The resolver -/

/-- Settles O25: with bit 31 clear the resolver is `PoolLookup` of bits 30..0. -/
theorem poolIndexResolvesToItsInteger : Obligations.PoolIndexResolvesToItsInteger := by
  intro p info hinfo
  have hresolve : resolve p info = poolLookup p (info.extractLsb' 0 31) := by
    rw [resolve_pool p (by rwa [BitVec.msb_eq_getLsbD_last]), BitVec.setWidth_eq_extractLsb' (by decide)]
  rw [hresolve, poolLookup]
  exact ⟨fun v h => by rw [h], fun h => by rw [h], fun h => by rw [h]⟩

/-- Settles O26: the three branches of `FetchImmediate()`. -/
theorem fetchImmediateAdvancesPcOnEveryBranch : Obligations.FetchImmediateAdvancesPcOnEveryBranch := by
  intro s
  rcases fetchImmediate_cases s with ⟨hd, h⟩ | ⟨info, v, hd, hv, h⟩ | ⟨info, hd, hv, h⟩ <;> rw [hd, h]
  · exact ⟨fun _ => rfl, nofun⟩
  · refine ⟨nofun, fun info' hinfo => ?_⟩
    cases hinfo
    rw [hv]
    exact ⟨fun v' hv' => by cases hv'; rfl, nofun⟩
  · refine ⟨nofun, fun info' hinfo => ?_⟩
    cases hinfo
    rw [hv]
    exact ⟨nofun, fun _ => rfl⟩

/-- An instruction with an info word is `FetchImmediate()` and what follows it (R105). -/
theorem exec_eq_withImmediate {i : Instr} (hi : i.hasInfo = true) (s : State) : ∃ k, exec i s = withImmediate s k := by
  cases i with
  | addi | subi | muli | divi | divui | andi | ori | xori | ldi => exact ⟨_, rfl⟩
  | beqi | bnei | bgti | bgei | blti | blei | bgtui | bgeui | bltui | bleui => exact ⟨_, rfl⟩
  | ldb | ldbu | ldh | ldhu | ldw | stb | sth | stw | jpl | calll => exact ⟨_, rfl⟩
  | _ => cases hi

/-! ## Without an info word: another pool -/

/-- The state with another pool. -/
def State.withPool (p : Pool) (s : State) : State := { s with pool := p }

theorem divide_withPool (q : Word → Word → Word) (rd : Reg) (x y a : Word) (s : State) (p : Pool) :
    divide q rd x y a (s.withPool p) = mapNext (State.withPool p) (divide q rd x y a s) := by
  simp only [divide]
  split <;> rfl

theorem branchIf_withPool (c : Cond) (x y : Word) (disp : Int) (s : State) (p : Pool) :
    branchIf c x y disp (s.withPool p) = mapNext (State.withPool p) (branchIf c x y disp s) := by
  simp only [branchIf]
  split <;> rfl

theorem memWrite_withPool (s : State) (a : Word) (n : Nat) (v : Word) (p : Pool) :
    memWrite (s.withPool p) a n v = (memWrite s a n v).map (State.withPool p) := by
  have hmap : (s.withPool p).unserved = s.unserved := rfl
  simp only [memWrite, hmap]
  split <;> rfl

theorem pushWords_withPool (vs : List Word) (s : State) (a : Word) (p : Pool) :
    pushWords (s.withPool p) a vs =
      ((pushWords s a vs).map (State.withPool p)).mapError (Prod.map id (State.withPool p)) := by
  induction vs generalizing s a with
  | nil => rfl
  | cons v vs ih =>
    simp only [pushWords, memWrite_withPool]
    cases memWrite s a 4 v with
    | none => rfl
    | some t => exact ih t (a + 4)

theorem popWords_withPool (rs : List Reg) (s : State) (a : Word) (p : Pool) :
    popWords (s.withPool p) a rs =
      ((popWords s a rs).map (State.withPool p)).mapError (Prod.map id (State.withPool p)) := by
  induction rs generalizing s a with
  | nil => rfl
  | cons r rs ih =>
    have hread : memRead (s.withPool p) a 4 = memRead s a 4 := rfl
    simp only [popWords, hread]
    cases memRead s a 4 with
    | none => rfl
    | some v => exact ih (s.setReg r v) (a + 4)

theorem execStore_withPool (first last : Reg) (s : State) (p : Pool) :
    execStore first last (s.withPool p) = mapNext (State.withPool p) (execStore first last s) := by
  have hreg : (s.withPool p).reg = s.reg := rfl
  simp only [execStore, hreg, pushWords_withPool]
  split
  · rfl
  · cases pushWords s _ _ <;> rfl

theorem execRestore_withPool (first last : Reg) (s : State) (p : Pool) :
    execRestore first last (s.withPool p) = mapNext (State.withPool p) (execRestore first last s) := by
  have hreg : (s.withPool p).reg = s.reg := rfl
  simp only [execRestore, hreg, popWords_withPool]
  split
  · rfl
  · cases popWords s _ _ <;> rfl

theorem execSyscpy_withPool (rd rs rt : Reg) (s : State) (p : Pool) :
    execSyscpy rd rs rt (s.withPool p) = mapNext (State.withPool p) (execSyscpy rd rs rt s) := by
  have hreg : (s.withPool p).reg = s.reg := rfl
  have hmap : (s.withPool p).unserved = s.unserved := rfl
  simp only [execSyscpy, blockCopy, hreg, hmap]
  split <;> rfl

theorem execSysset_withPool (rd rs rt : Reg) (s : State) (p : Pool) :
    execSysset rd rs rt (s.withPool p) = mapNext (State.withPool p) (execSysset rd rs rt s) := by
  have hreg : (s.withPool p).reg = s.reg := rfl
  have hmap : (s.withPool p).unserved = s.unserved := rfl
  simp only [execSysset, blockFill, hreg, hmap]
  split <;> rfl

/-- The cases are grouped by form of meaning; an instruction with an info word is excluded by `hi`. -/
theorem exec_withPool {i : Instr} (hi : i.hasInfo = false) (s : State) (p : Pool) :
    exec i (s.withPool p) = mapNext (State.withPool p) (exec i s) := by
  cases i with
  | add | sub | mul | and | or | xor | neg | not => rfl
  | addb | subb | andb | orb | xorb | addh | subh | andh | orh | xorh => rfl
  | sll | srl | sra | slli | srli | srai | sllb | srlb | srab | sllh | srlh | srah => rfl
  | exsb | exsh | mov | movb | movh | jpr | callr | ret | killtask | sleep => rfl
  | div | divu => exact divide_withPool ..
  | beqib | bneib | bgtib | bgeib | bltib | bleib | bgtuib | bgeuib | bltuib | bleuib => exact branchIf_withPool ..
  | store first last => exact execStore_withPool first last s p
  | restore first last => exact execRestore_withPool first last s p
  | syscpy rd rs rt => exact execSyscpy_withPool rd rs rt s p
  | sysset rd rs rt => exact execSysset_withPool rd rs rt s p
  | _ => cases hi

/-- Settles O27: the resolver's errors come first, and without an info word the pool may be replaced before or after. -/
theorem infoWordIsFetchedFirst : Obligations.InfoWordIsFetchedFirst := by
  intro i s
  constructor
  · intro hi
    obtain ⟨k, hk⟩ := exec_eq_withImmediate hi s
    exact raisesForInfoWord_of_withImmediate hk
  · intro hi p t hexec
    exact (exec_withPool hi s p).trans (congrArg _ hexec)

end Sys2Proof.Machine
end

