-- ==== Sys2Proof/Proofs/ArithmeticLaws.lean ====
section
/-!
PROOF. Results as arithmetic (spec/41_arith_logic.md R150 to R152, spec/42_shift.md R160 to R163): quotients by their
remainders, narrow results by the low bits of their operands, shifts as scalings, and the fixed-point conversions.
-/
namespace Sys2Proof.Machine

/-! ## Division (R150) -/

/-- The model's signed quotient is the bit vectors' one. -/
theorem quotS_eq_sdiv (x y : Word) : quotS x y = x.sdiv y := by
  apply BitVec.eq_of_toInt_eq
  rw [quotS, BitVec.toInt_ofInt, BitVec.toInt_sdiv]

/-- Only -2^31 / -1 does not fit. -/
theorem toInt_quotS {x y : Word} (h : ¬(x = 0x80000000 ∧ y = 0xFFFFFFFF)) :
    (quotS x y).toInt = x.toInt.tdiv y.toInt := by
  rw [quotS_eq_sdiv]
  exact BitVec.toInt_sdiv_of_ne_or_ne x y (not_and_or.mp h)

/-- The remainder of a truncating division is smaller than the divisor and takes the dividend's sign. -/
theorem tmod_spec (a : Int) {b : Int} (hb : b ≠ 0) :
    a = a.tdiv b * b + a.tmod b ∧ (a.tmod b).natAbs < b.natAbs ∧ (0 ≤ a → 0 ≤ a.tmod b) ∧ (a ≤ 0 → a.tmod b ≤ 0) := by
  refine ⟨(Int.tdiv_mul_add_tmod a b).symm, ?_, Int.tmod_nonneg b, fun ha => ?_⟩
  · rw [Int.natAbs_tmod]
    exact Nat.mod_lt _ (Int.natAbs_pos.mpr hb)
  · have hneg : 0 ≤ (-a).tmod b := Int.tmod_nonneg b (Int.neg_nonneg.mpr ha)
    rw [Int.neg_tmod] at hneg
    exact Int.neg_nonneg.mp hneg

theorem toNat_quotU (x y : Word) : (quotU x y).toNat = x.toNat / y.toNat := by
  rw [quotU, BitVec.toNat_ofNat, Nat.mod_eq_of_lt ((Nat.div_le_self _ _).trans_lt x.isLt)]

/-- Settles O31: the truncated quotient and its remainder, the one overflow apart, and Euclidean division. -/
theorem divisionLaws : Obligations.DivisionLaws := by
  intro s rd rs rt hy
  refine ⟨⟨_, divide_of_ne_zero quotS rd _ _ s hy, ?_, ?_⟩, ⟨_, divide_of_ne_zero quotU rd _ _ s hy, ?_⟩⟩ <;>
    rw [reg_setReg_self]
  · rintro ⟨hx, hy'⟩
    rw [hx, hy']
    decide
  · intro hover
    have hy' : (s.reg rt).toInt ≠ 0 := BitVec.toInt_ne (y := 0#32).mpr hy
    exact ⟨_, toInt_quotS hover ▸ tmod_spec (s.reg rs).toInt hy'⟩
  · have hpos : 0 < (s.reg rt).toNat := Nat.pos_of_ne_zero fun h => hy (BitVec.eq_of_toNat_eq h)
    exact ⟨_, by rw [toNat_quotU, Nat.div_add_mod'], Nat.mod_lt (s.reg rs).toNat hpos⟩

/-! ## Narrow forms (R151) -/

/-- The low `n` bits of what `f` gives are a function of the low `n` bits of its operands. -/
def OnLowBits (n : Nat) (f : Word → Word → Word) : Prop :=
  ∃ g : BitVec n → BitVec n → BitVec n, ∀ x y, (f x y).setWidth n = g (x.setWidth n) (y.setWidth n)

section LowBits
variable {n : Nat} (hn : n ≤ 32)
include hn

theorem onLowBits_add : OnLowBits n (fun x y => x + y) := ⟨(· + ·), fun x y => BitVec.setWidth_add x y hn⟩

theorem onLowBits_sub : OnLowBits n (fun x y => x - y) :=
  ⟨(· - ·), fun x y => by
    simp only [BitVec.sub_eq_add_neg, BitVec.setWidth_add _ _ hn, BitVec.setWidth_neg_of_le hn]⟩

end LowBits

theorem onLowBits_and (n : Nat) : OnLowBits n (fun x y => x &&& y) := ⟨(· &&& ·), fun _ _ => BitVec.setWidth_and⟩
theorem onLowBits_or (n : Nat) : OnLowBits n (fun x y => x ||| y) := ⟨(· ||| ·), fun _ _ => BitVec.setWidth_or⟩
theorem onLowBits_xor (n : Nat) : OnLowBits n (fun x y => x ^^^ y) := ⟨(· ^^^ ·), fun _ _ => BitVec.setWidth_xor⟩

theorem setWidth_eq_of_mod_eq {n : Nat} {x y : Word} (h : x.toNat % 2 ^ n = y.toNat % 2 ^ n) :
    x.setWidth n = y.setWidth n :=
  BitVec.eq_of_toNat_eq (by rwa [BitVec.toNat_setWidth, BitVec.toNat_setWidth])

/-- What a narrowed form writes depends on the low bits of its sources alone, and fits them. -/
theorem narrowed_low {n : Nat} {i : Reg → Reg → Reg → Instr} {f : Word → Word → Word} (hf : OnLowBits n f)
    (he : ∀ rd rs rt s, exec (i rd rs rt) s = narrowed n f rd rs rt s) {s1 s2 t1 t2 : State} {rd rs rt : Reg}
    (hs : (s1.reg rs).toNat % 2 ^ n = (s2.reg rs).toNat % 2 ^ n)
    (ht : (s1.reg rt).toNat % 2 ^ n = (s2.reg rt).toNat % 2 ^ n)
    (h1 : exec (i rd rs rt) s1 = .next t1) (h2 : exec (i rd rs rt) s2 = .next t2) :
    t1.reg rd = t2.reg rd ∧ (t1.reg rd).toNat < 2 ^ n := by
  obtain ⟨g, hg⟩ := hf
  rw [he] at h1 h2
  cases h1
  cases h2
  rw [reg_setReg_self, reg_setReg_self]
  constructor
  · simp only [zext, hg, setWidth_eq_of_mod_eq hs, setWidth_eq_of_mod_eq ht]
  · rw [toNat_zext]
    exact Nat.mod_lt _ (Nat.two_pow_pos n)

/-- Settles O35: the five operations on bytes, then the same five on halves. -/
theorem narrowFormsSeeOnlyTheLowBits : Obligations.NarrowFormsSeeOnlyTheLowBits := by
  intro r hr s1 s2 t1 t2 rd rs rt
  simp only [List.mem_cons, List.not_mem_nil, or_false] at hr
  rcases hr with rfl | rfl | rfl | rfl | rfl | rfl | rfl | rfl | rfl | rfl
  · exact narrowed_low (onLowBits_add (by decide)) fun _ _ _ _ => rfl
  · exact narrowed_low (onLowBits_sub (by decide)) fun _ _ _ _ => rfl
  · exact narrowed_low (onLowBits_and 8) fun _ _ _ _ => rfl
  · exact narrowed_low (onLowBits_or 8) fun _ _ _ _ => rfl
  · exact narrowed_low (onLowBits_xor 8) fun _ _ _ _ => rfl
  · exact narrowed_low (onLowBits_add (by decide)) fun _ _ _ _ => rfl
  · exact narrowed_low (onLowBits_sub (by decide)) fun _ _ _ _ => rfl
  · exact narrowed_low (onLowBits_and 16) fun _ _ _ _ => rfl
  · exact narrowed_low (onLowBits_or 16) fun _ _ _ _ => rfl
  · exact narrowed_low (onLowBits_xor 16) fun _ _ _ _ => rfl

/-! ## Shifts (R161 to R163) -/

theorem toInt_sshiftRight_eq_fdiv (x : Word) (n : Nat) : (x.sshiftRight n).toInt = x.toInt.fdiv (2 ^ n) := by
  rw [BitVec.toInt_sshiftRight, Int.shiftRight_eq_div_pow, Int.fdiv_eq_ediv_of_nonneg _ (by positivity)]
  norm_cast

/-- Settles O37: each shift by the count in the low 5 bits, as its arithmetic. -/
theorem shiftsAreScalings : Obligations.ShiftsAreScalings := by
  intro s rd rs rt
  refine ⟨⟨_, rfl, ?_⟩, ⟨_, rfl, ?_⟩, ⟨_, rfl, ?_⟩⟩ <;> rw [reg_setReg_self]
  · rw [BitVec.toNat_shiftLeft, Nat.shiftLeft_eq, countOf]
  · rw [BitVec.toNat_ushiftRight, Nat.shiftRight_eq_div_pow, countOf]
  · rw [toInt_sshiftRight_eq_fdiv, countOf]

/-! ## Fixed-point helpers (R152) -/

/-- Scaling back gives the signed value exactly, so nothing is truncated. -/
theorem truncScaled_scaledToRat {scale : Nat} (hscale : scale ≠ 0) (x : Word) :
    truncScaled scale (scaledToRat scale x) = x.toInt := by
  have hback : scaledToRat scale x * scale = (x.toInt : Rat) := div_mul_cancel₀ _ (Nat.cast_ne_zero.mpr hscale)
  rw [truncScaled, hback, Rat.num_intCast, Rat.den_intCast]
  exact Int.tdiv_one _

theorem fitsSigned32_toInt (x : Word) : fitsSigned32 x.toInt = true :=
  decide_eq_true ⟨x.le_toInt, x.toInt_lt⟩

/-- Settles O60: both scales are nonzero, and a word's signed value is in range. -/
theorem fixedPointRoundTrip : Obligations.FixedPointRoundTrip := by
  intro x
  rw [fixedToReal, realToFixed, fixed9ToReal, realToFixed9, truncScaled_scaledToRat (by decide),
    truncScaled_scaledToRat (by decide), if_pos (fitsSigned32_toInt x), if_pos (fitsSigned32_toInt x)]
  exact ⟨BitVec.ofInt_toInt, BitVec.ofInt_toInt⟩

end Sys2Proof.Machine
end

