-- ==== Sys2Proof/Proofs/WideAccess.lean ====
section
/-!
PROOF. Accesses of several bytes (spec/20_memory.md R44 to R49, R56, spec/45_load_store.md R223 to R229). A naturally
aligned access does not wrap around the address space, so its bytes stand at consecutive addresses; their little-endian
value is their concatenation, and a part of a word's bytes is the bytes of the shifted word.
-/
namespace Sys2Proof.Machine

/-! ## The bytes of an aligned access (R48, R49) -/

theorem alignedTo_iff {n : Nat} {a : Word} : alignedTo n a = true ↔ a.toNat % n = 0 := beq_iff_eq

/-- An access whose width divides the address space does not wrap when it is aligned. -/
theorem toNat_add_of_aligned {n k : Nat} {a : Word} (hn : n ∣ 2 ^ 32) (ha : a.toNat % n = 0) (hk : k < n) :
    (a + BitVec.ofNat 32 k).toNat = a.toNat + k := by
  obtain ⟨m, hm⟩ := hn
  obtain ⟨q, hq⟩ := Nat.dvd_of_mod_eq_zero ha
  have hqm : q < m := Nat.lt_of_mul_lt_mul_left (a := n) (by rw [← hq, ← hm]; exact a.isLt)
  have hroom : n * q + n ≤ n * m := Nat.mul_le_mul_left n hqm
  rw [BitVec.toNat_add, BitVec.toNat_ofNat]
  omega

theorem readBytes_of_aligned {n : Nat} {a : Word} (m : Memory) (hn : n ∣ 2 ^ 32) (ha : a.toNat % n = 0) :
    m.readBytes a n = (List.range n).map fun k => m.read (a.toNat + k) :=
  List.map_congr_left fun k hk => by rw [toNat_add_of_aligned hn ha (List.mem_range.1 hk)]

theorem toNat_append_byte {n : Nat} (x : BitVec n) (b : Byte) : (x ++ b).toNat = b.toNat + 256 * x.toNat := by
  rw [BitVec.toNat_append, ← Nat.shiftLeft_add_eq_or_of_lt b.isLt, Nat.shiftLeft_eq]
  omega

theorem ofNat_littleEndian_two (b : Nat → Byte) :
    BitVec.ofNat 32 (littleEndian ((List.range 2).map b)) = (b 1 ++ b 0 : BitVec (8 + 8)).setWidth 32 := by
  have hvalue : littleEndian ((List.range 2).map b) = (b 1 ++ b 0).toNat := by
    simp only [List.range_succ, List.range_zero, List.nil_append, List.cons_append, List.map_cons, List.map_nil,
      littleEndian, toNat_append_byte]
    omega
  rw [hvalue, BitVec.ofNat_toNat]

theorem ofNat_littleEndian_four (b : Nat → Byte) :
    BitVec.ofNat 32 (littleEndian ((List.range 4).map b)) = (b 3 ++ b 2 ++ b 1 ++ b 0 : BitVec (8 + 8 + 8 + 8)) := by
  have hvalue : littleEndian ((List.range 4).map b) = (b 3 ++ b 2 ++ b 1 ++ b 0).toNat := by
    simp only [List.range_succ, List.range_zero, List.nil_append, List.cons_append, List.map_cons, List.map_nil,
      littleEndian, toNat_append_byte]
    omega
  rw [hvalue, BitVec.ofNat_toNat]
  exact BitVec.setWidth_eq _

/-! ## Wide loads (R223 to R225, R229) -/

theorem sext_setWidth {n : Nat} (hn : n ≤ 32) (x : BitVec n) : sext n (x.setWidth 32) = x.signExtend 32 := by
  rw [sext, BitVec.setWidth_setWidth_of_le x hn, BitVec.setWidth_eq]

theorem zext_setWidth {n : Nat} (hn : n ≤ 32) (x : BitVec n) : zext n (x.setWidth 32) = x.setWidth 32 := by
  rw [zext, BitVec.setWidth_setWidth_of_le x hn, BitVec.setWidth_eq]

/-- A load of `n` bytes: an aligned and served `EA`, or any other. The handler's extension of the little-endian value is
`g` of the bytes. -/
theorem wideLoad_row {op : Byte} {shape : Shape} {info : Bool} {n : Nat} {ext : Word → Word} {g : (Nat → Byte) → Word}
    {f : Reg → Reg → Instr} (hn : n ∣ 2 ^ 32) (hs : slot op = some ⟨op, shape, info, regs2 f⟩)
    (he : ∀ rd rs s, exec (f rd rs) s = load n ext rd rs s)
    (hg : ∀ b : Nat → Byte, ext (BitVec.ofNat 32 (littleEndian ((List.range n).map b))) = g b) :
    isEncoded op shape info (fun w => f (fieldD w) (fieldS w)) ∧
    (∀ (s : State) (rd rs : Reg), raisesForInfoWord (f rd rs) s) ∧
    ∀ (s : State) (info disp : Word) (rd rs : Reg), fetchData s s.pc = some info → resolve s.pool info = some disp →
      let ea := s.reg rs + disp
      (ea.toNat % n = 0 ∧ servedRange s.unserved ea n = true → exec (f rd rs) s =
        .next { s with pc := s.pc + 4, regs := s.regs.set rd (g fun k => s.mem.read (ea.toNat + k)) }) ∧
      (¬(ea.toNat % n = 0 ∧ servedRange s.unserved ea n = true) → exec (f rd rs) s =
        .next (raise ⟨.busError, 0, s.pc - 4, 0, ea⟩ { s with pc := s.pc + 4 })) := by
  obtain ⟨hencoded, hinfo, hload⟩ := load_row hs he
  refine ⟨hencoded, hinfo, fun s info disp rd rs hd hv => ?_⟩
  obtain ⟨hsome, hnone⟩ := hload s info disp rd rs hd hv
  constructor
  · rintro ⟨haligned, hserved⟩
    rw [hsome _ ((memRead_eq_some_iff ..).2 ⟨alignedTo_iff.2 haligned, hserved, rfl⟩),
      readBytes_of_aligned _ hn haligned, hg]
  · intro h
    exact hnone ((memRead_eq_none_iff ..).2 (by rwa [alignedTo_iff]))

/-- Settles O44: a half sign-extended by LDH and zero-extended by LDHU, and a word. -/
theorem wideLoadResults : Obligations.WideLoadResults := by
  intro r hr
  simp only [List.mem_cons, List.not_mem_nil, or_false] at hr
  rcases hr with rfl | rfl | rfl
  · exact wideLoad_row (by decide) rfl (fun _ _ _ => rfl) fun b =>
      (congrArg _ (ofNat_littleEndian_two b)).trans (sext_setWidth (by decide) _)
  · exact wideLoad_row (by decide) rfl (fun _ _ _ => rfl) fun b =>
      (congrArg _ (ofNat_littleEndian_two b)).trans (zext_setWidth (by decide) _)
  · exact wideLoad_row (by decide) rfl (fun _ _ _ => rfl) ofNat_littleEndian_four

/-! ## Stores (R226 to R229) -/

theorem bytesOf_getElem {n k : Nat} (v : Word) (h : k < (bytesOf n v).length) :
    (bytesOf n v)[k] = v.extractLsb' (8 * k) 8 := by
  simp [bytesOf]

/-- A write of bytes reaches no other number than the addresses of its range. -/
theorem read_writeBytes_of_ne (m : Memory) (a : Word) {x : Nat} (bs : List Byte)
    (h : ∀ k < bs.length, (a + BitVec.ofNat 32 k).toNat ≠ x) : (m.writeBytes a bs).read x = m.read x := by
  induction bs generalizing m a with
  | nil => rfl
  | cons b bs ih =>
    have hhead : x ≠ a.toNat := fun e => h 0 (Nat.succ_pos _) (by rw [e]; exact congrArg _ (BitVec.add_zero a))
    have htail : ∀ k < bs.length, (a + 1 + BitVec.ofNat 32 k).toNat ≠ x := fun k hk => by
      have hshift : a + 1 + BitVec.ofNat 32 k = a + BitVec.ofNat 32 (k + 1) := by bv_omega
      rw [hshift]
      exact h (k + 1) (Nat.succ_lt_succ hk)
    rw [Memory.writeBytes, ih _ _ htail, read_write, if_neg hhead]

section Store
variable {n : Nat} {rd rs : Reg} {s : State} {info disp : Word}

theorem store_of_served (hd : fetchData s s.pc = some info) (hv : resolve s.pool info = some disp)
    (haligned : alignedTo n (s.reg rs + disp) = true) (hserved : servedRange s.unserved (s.reg rs + disp) n = true) :
    store n rd rs s =
      .next ((s.setPc (s.pc + 4)).setMem (s.mem.writeBytes (s.reg rs + disp) (bytesOf n (s.reg rd)))) := by
  have hwrite : memWrite (s.setPc (s.pc + 4)) (effAddr (s.setPc (s.pc + 4)) rs disp) n
      ((s.setPc (s.pc + 4)).reg rd) = some _ := (memWrite_eq_some_iff ..).2 ⟨haligned, hserved, rfl⟩
  rw [store, withImmediate_ok _ hd hv]
  simp only [hwrite]
  rfl

theorem store_of_refused (hd : fetchData s s.pc = some info) (hv : resolve s.pool info = some disp)
    (h : ¬(alignedTo n (s.reg rs + disp) = true ∧ servedRange s.unserved (s.reg rs + disp) n = true)) :
    store n rd rs s =
      .next (raise ⟨.busError, 0, s.pc - 4, 0, s.reg rs + disp⟩ { s with pc := s.pc + 4 }) := by
  have hwrite : memWrite (s.setPc (s.pc + 4)) (effAddr (s.setPc (s.pc + 4)) rs disp) n
      ((s.setPc (s.pc + 4)).reg rd) = none := (memWrite_eq_none_iff ..).2 h
  rw [store, withImmediate_ok _ hd hv]
  simp only [hwrite]
  rfl

end Store

/-- A store of `n` bytes: an aligned and served `EA`, or any other. -/
theorem store_row {op : Byte} {shape : Shape} {info : Bool} {n : Nat} {f : Reg → Reg → Instr} (hn : n ∣ 2 ^ 32)
    (hs : slot op = some ⟨op, shape, info, regs2 f⟩) (he : ∀ rd rs s, exec (f rd rs) s = store n rd rs s) :
    isEncoded op shape info (fun w => f (fieldD w) (fieldS w)) ∧
    (∀ (s : State) (rd rs : Reg), raisesForInfoWord (f rd rs) s) ∧
    ∀ (s : State) (info disp : Word) (rd rs : Reg), fetchData s s.pc = some info → resolve s.pool info = some disp →
      let ea := s.reg rs + disp
      (ea.toNat % n = 0 ∧ servedRange s.unserved ea n = true →
        ∃ m : Memory, exec (f rd rs) s = .next { s with pc := s.pc + 4, mem := m } ∧
          (∀ k, k < n → m.read (ea.toNat + k) = (s.reg rd).extractLsb' (8 * k) 8) ∧
          (∀ a : Nat, (a < ea.toNat ∨ ea.toNat + n ≤ a) → m.read a = s.mem.read a)) ∧
      (¬(ea.toNat % n = 0 ∧ servedRange s.unserved ea n = true) → exec (f rd rs) s =
        .next (raise ⟨.busError, 0, s.pc - 4, 0, ea⟩ { s with pc := s.pc + 4 })) := by
  refine ⟨isEncoded_regs2 hs, fun s rd rs => raisesForInfoWord_of_withImmediate (he rd rs s), ?_⟩
  intro s info disp rd rs hd hv ea
  rw [he]
  constructor
  · rintro ⟨haligned, hserved⟩
    refine ⟨_, store_of_served hd hv (alignedTo_iff.2 haligned) hserved, fun k hk => ?_, fun a ha => ?_⟩
    · have hlen : (bytesOf n (s.reg rd)).length ≤ 2 ^ 32 := by
        rw [bytesOf_length]
        exact Nat.le_of_dvd (by decide) hn
      rw [← toNat_add_of_aligned hn haligned hk,
        read_writeBytes_inside _ _ _ hlen k (by rwa [bytesOf_length]), bytesOf_getElem]
    · refine read_writeBytes_of_ne _ _ _ fun k hk => ?_
      rw [bytesOf_length] at hk
      rw [toNat_add_of_aligned hn haligned hk]
      omega
  · intro h
    exact store_of_refused hd hv (by rwa [alignedTo_iff])

/-- Settles O45: one, two and four bytes. -/
theorem storeResults : Obligations.StoreResults := by
  intro r hr
  simp only [List.mem_cons, List.not_mem_nil, or_false] at hr
  rcases hr with rfl | rfl | rfl
  all_goals exact store_row (by decide) rfl fun _ _ _ => rfl

/-- Settles O47: the fetch is a read of the word that the store has written. -/
theorem fetchSeesTheLatestStore : Obligations.FetchSeesTheLatestStore := by
  intro s t info disp rd rs hd hv haligned hserved hexec
  have hstored := store_of_served (rd := rd) hd hv (alignedTo_iff.2 haligned) hserved
  cases hexec.symm.trans hstored
  exact memRead_memWrite_word (s := s.setPc (s.pc + 4))
    ((memWrite_eq_some_iff ..).2 ⟨alignedTo_iff.2 haligned, hserved, rfl⟩)

/-! ## A part of a word (R48) -/

theorem servedRange_part {u : List AddrRange} {a : Word} {j n : Nat} (hjn : j + n ≤ 4)
    (h : servedRange u a 4 = true) : servedRange u (a + BitVec.ofNat 32 j) n = true :=
  (servedRange_iff u _ n (by omega)).2 fun k hk => by
    rw [BitVec.add_assoc, ← BitVec.ofNat_add]
    exact (servedRange_iff u a 4 (by decide)).1 h _ (by omega)

/-- The bytes from the `j`-th on are the low bytes of the word shifted right by `j` bytes. -/
theorem readBytes_part (m : Memory) (a v : Word) {j n : Nat} (hjn : j + n ≤ 4) :
    (m.writeBytes a (bytesOf 4 v)).readBytes (a + BitVec.ofNat 32 j) n = bytesOf n (v >>> (8 * j)) := by
  refine List.ext_getElem (by rw [readBytes_length, bytesOf_length]) fun k h1 h2 => ?_
  rw [bytesOf_length] at h2
  have hjk : j + k < (bytesOf 4 v).length := by rw [bytesOf_length]; omega
  have hbyte : v.extractLsb' (8 * (j + k)) 8 = (v >>> (8 * j)).extractLsb' (8 * k) 8 := by
    refine BitVec.eq_of_getLsbD_eq fun i _ => ?_
    simp only [BitVec.getLsbD_extractLsb', BitVec.getLsbD_ushiftRight, Nat.mul_add, Nat.add_assoc]
  rw [readBytes_getElem, BitVec.add_assoc, ← BitVec.ofNat_add,
    read_writeBytes_inside _ _ _ (by rw [bytesOf_length]; decide) _ hjk, bytesOf_getElem, bytesOf_getElem, hbyte]

/-- An aligned read inside a word that was written gives its part of the word. -/
theorem memRead_part {s t : State} {a v : Word} (h : memWrite s a 4 v = some t) {j n : Nat} (hjn : j + n ≤ 4)
    (haligned : alignedTo n (a + BitVec.ofNat 32 j) = true) :
    memRead t (a + BitVec.ofNat 32 j) n = some (BitVec.ofNat 32 (littleEndian (bytesOf n (v >>> (8 * j))))) := by
  obtain ⟨-, hserved, rfl⟩ := (memWrite_eq_some_iff ..).1 h
  exact (memRead_eq_some_iff ..).2 ⟨haligned, servedRange_part hjn hserved, by rw [setMem_mem, readBytes_part _ _ _ hjn]⟩

theorem ofNat_bytesOf_one (v : Word) : BitVec.ofNat 32 (littleEndian (bytesOf 1 v)) = v &&& 0xFF := by
  rw [littleEndian_bytesOf_one, ← zext_eq_ofNat_mod]
  exact zext_eq_and 8 v

theorem ofNat_bytesOf_two (v : Word) : BitVec.ofNat 32 (littleEndian (bytesOf 2 v)) = v &&& 0xFFFF := by
  rw [littleEndian_bytesOf_two, ← zext_eq_ofNat_mod]
  exact zext_eq_and 16 v

/-- Settles O46: the word itself, its four bytes and its two halves. -/
theorem narrowReadsSeeLittleEndianBytes : Obligations.NarrowReadsSeeLittleEndianBytes := by
  intro s t a v h
  refine ⟨memRead_memWrite_word h, fun k hk => ?_, fun k hk => ?_⟩
  · rw [memRead_part h hk (alignedTo_one _), ofNat_bytesOf_one]
  · obtain ⟨haligned, -, -⟩ := (memWrite_eq_some_iff ..).1 h
    have hhalf : alignedTo 2 (a + BitVec.ofNat 32 (2 * k)) = true := by
      rw [alignedTo_iff] at haligned ⊢
      bv_omega
    rw [memRead_part h (by omega) hhalf, ofNat_bytesOf_two, ← Nat.mul_assoc]

end Sys2Proof.Machine
end
